-- ==== Sys2Proof/Word.lean ====
section
/-!
DEFINITION. The bit-vector types of the BSE (R7, R11, R108, R301): the storage word, the register value, the
command word and the slot-number field. Nothing here has a body that a rule could make wrong: widths only.
-/

namespace Sys2Proof

/-- A storage word, 32 bits (R7); also the width of `CMD`, `ERR` and `STICKY` (R111 to R113). -/
abbrev Word := BitVec 32

/-- A register or TMEM entry, 64 bits (R108, R109, R202). -/
abbrev Value := BitVec 64

/-- A slot field of a command word: a slot number 0 to 15 as an unsigned 4-bit integer (R301, R304). -/
abbrev SlotNo := BitVec 4

end Sys2Proof
end

