-- ==== Sys2Proof/Syntax.lean ====
section
/-!
DEFINITION. The commands of the BSE, whole: one constructor per row of spec/opcode_table.json (R307). The operands are the
slot fields the row's form uses (R302); values, indices and counts come from the argument registers (R305).
-/

namespace Sys2Proof

/-- The 49 commands. `sd` is the target or destination slot, `sa` and `sb` the source slots (R301). -/
inductive Instr where
  -- Lifecycle (R400 to R403)
  /-- `INIT`, form `S`, R400. -/
  | init (sd : SlotNo)
  /-- `INITC`, form `S`, R401. -/
  | initc (sd : SlotNo)
  /-- `CLOSE`, form `S`, R402. -/
  | close (sd : SlotNo)
  /-- `STATUS`, form `S`, R403. -/
  | status (sd : SlotNo)
  -- Cursor and length (R450 to R457)
  /-- `GETPOS`, form `S`, R450. -/
  | getpos (sd : SlotNo)
  /-- `SETPOS`, form `S`, R451. -/
  | setpos (sd : SlotNo)
  /-- `GETLEN`, form `S`, R452. -/
  | getlen (sd : SlotNo)
  /-- `GETLEN8`, form `S`, R453. -/
  | getlen8 (sd : SlotNo)
  /-- `GETLEN16`, form `S`, R454. -/
  | getlen16 (sd : SlotNo)
  /-- `GETLEN32`, form `S`, R455. -/
  | getlen32 (sd : SlotNo)
  /-- `GETLEN64`, form `S`, R456. -/
  | getlen64 (sd : SlotNo)
  /-- `GETCAP`, form `S`, R457. -/
  | getcap (sd : SlotNo)
  -- Scalar writes, full width (R610 to R614)
  /-- `WR1`, form `SW`, R610. -/
  | wr1 (sd : SlotNo)
  /-- `WR8`, form `SW`, R611. -/
  | wr8 (sd : SlotNo)
  /-- `WR16`, form `SW`, R612. -/
  | wr16 (sd : SlotNo)
  /-- `WR32`, form `SW`, R613. -/
  | wr32 (sd : SlotNo)
  /-- `WR64`, form `SW`, R614. -/
  | wr64 (sd : SlotNo)
  -- Scalar writes, sub-range (R615 to R619)
  /-- `WRR1`, form `SW`, R615. -/
  | wrr1 (sd : SlotNo)
  /-- `WRR8`, form `SW`, R616. -/
  | wrr8 (sd : SlotNo)
  /-- `WRR16`, form `SW`, R617. -/
  | wrr16 (sd : SlotNo)
  /-- `WRR32`, form `SW`, R618. -/
  | wrr32 (sd : SlotNo)
  /-- `WRR64`, form `SW`, R619. -/
  | wrr64 (sd : SlotNo)
  -- Scalar reads, full width (R620 to R624)
  /-- `RD1`, form `SW`, R620. -/
  | rd1 (sd : SlotNo)
  /-- `RD8`, form `SW`, R621. -/
  | rd8 (sd : SlotNo)
  /-- `RD16`, form `SW`, R622. -/
  | rd16 (sd : SlotNo)
  /-- `RD32`, form `SW`, R623. -/
  | rd32 (sd : SlotNo)
  /-- `RD64`, form `SW`, R624. -/
  | rd64 (sd : SlotNo)
  -- Scalar reads, sub-range (R625 to R629)
  /-- `RDR1`, form `SW`, R625. -/
  | rdr1 (sd : SlotNo)
  /-- `RDR8`, form `SW`, R626. -/
  | rdr8 (sd : SlotNo)
  /-- `RDR16`, form `SW`, R627. -/
  | rdr16 (sd : SlotNo)
  /-- `RDR32`, form `SW`, R628. -/
  | rdr32 (sd : SlotNo)
  /-- `RDR64`, form `SW`, R629. -/
  | rdr64 (sd : SlotNo)
  -- Array writes (R630 to R634)
  /-- `WRA1`, form `SW`, R630. -/
  | wra1 (sd : SlotNo)
  /-- `WRA8`, form `SW`, R631. -/
  | wra8 (sd : SlotNo)
  /-- `WRA16`, form `SW`, R632. -/
  | wra16 (sd : SlotNo)
  /-- `WRA32`, form `SW`, R633. -/
  | wra32 (sd : SlotNo)
  /-- `WRA64`, form `SW`, R634. -/
  | wra64 (sd : SlotNo)
  -- Array reads (R635 to R639)
  /-- `RDA1`, form `SW`, R635. -/
  | rda1 (sd : SlotNo)
  /-- `RDA8`, form `SW`, R636. -/
  | rda8 (sd : SlotNo)
  /-- `RDA16`, form `SW`, R637. -/
  | rda16 (sd : SlotNo)
  /-- `RDA32`, form `SW`, R638. -/
  | rda32 (sd : SlotNo)
  /-- `RDA64`, form `SW`, R639. -/
  | rda64 (sd : SlotNo)
  -- Byte-stream read (R640)
  /-- `RDBYTE`, form `S`, R640. -/
  | rdbyte (sd : SlotNo)
  -- Logical (R701 to R704)
  /-- `AND`, form `DAB`, R701. -/
  | and (sd sa sb : SlotNo)
  /-- `OR`, form `DAB`, R702. -/
  | or (sd sa sb : SlotNo)
  /-- `XOR`, form `DAB`, R703. -/
  | xor (sd sa sb : SlotNo)
  /-- `NOT`, form `DA`, R704. -/
  | not (sd sa : SlotNo)
  -- Shift (R750, R751)
  /-- `SHL`, form `DA`, R750. -/
  | shl (sd sa : SlotNo)
  /-- `SHR`, form `DA`, R751. -/
  | shr (sd sa : SlotNo)
  deriving DecidableEq, Repr

end Sys2Proof
end

