-- ==== Sys2Proof/Decode.lean ====
section
/-!
DEFINITION. The command encoding (30_encoding.md): the field layout of R301, the decoder of R300 to R308, total on every
32-bit word and rejecting by name, then the encoder written from the same tables, and the rows of spec/opcode_table.json
as the table gives them (mask and match), which Laws/PerInstr.lean holds the encoder against.
-/

namespace Sys2Proof

/-- `OPC`, bits `[7:0]` (R301). -/
def opcOf (c : Word) : BitVec 8 := c.extractLsb' 0 8

/-- `SD`, bits `[11:8]` (R301). -/
def sdOf (c : Word) : SlotNo := c.extractLsb' 8 4

/-- `SA`, bits `[15:12]` (R301). -/
def saOf (c : Word) : SlotNo := c.extractLsb' 12 4

/-- `SB`, bits `[19:16]` (R301). -/
def sbOf (c : Word) : SlotNo := c.extractLsb' 16 4

/-- `WID`, bits `[22:20]` (R301, R303). -/
def widOf (c : Word) : BitVec 3 := c.extractLsb' 20 3

/-- `RSV`, bits `[31:23]`, reserved, must be 0 (R301). -/
def rsvOf (c : Word) : BitVec 9 := c.extractLsb' 23 9

/-- Why a word names no command (R308). Every one of them raises `ILLEGAL_COMMAND`; the names are the model's own
(notes/assumptions/13.md). -/
inductive DecodeError where
  /-- `RSV` is not 0. -/
  | reservedBits
  /-- `OPC` is not in R307's table. -/
  | unknownOpcode
  /-- `WID` is 5, 6 or 7 in a typed command (R303). -/
  | reservedWidth
  /-- A field that the command's form does not use is not 0 (R302). -/
  | unusedField
  deriving DecidableEq, Repr

/-- Form `S` (R302): only `OPC` and `SD` are used. -/
def formS (c : Word) (i : SlotNo → Instr) : Except DecodeError Instr :=
  if saOf c = 0 ∧ sbOf c = 0 ∧ widOf c = 0 then .ok (i (sdOf c)) else .error .unusedField

/-- Form `SW` (R302): `OPC`, `SD` and the width code, which selects one of five commands (R303). -/
def formSW (c : Word) (i1 i8 i16 i32 i64 : SlotNo → Instr) : Except DecodeError Instr :=
  if saOf c = 0 ∧ sbOf c = 0 then
    match (widOf c).toNat with
    | 0 => .ok (i1 (sdOf c))
    | 1 => .ok (i8 (sdOf c))
    | 2 => .ok (i16 (sdOf c))
    | 3 => .ok (i32 (sdOf c))
    | 4 => .ok (i64 (sdOf c))
    | _ => .error .reservedWidth
  else .error .unusedField

/-- Form `DAB` (R302): `OPC`, `SD`, `SA` and `SB`. -/
def formDAB (c : Word) (i : SlotNo → SlotNo → SlotNo → Instr) : Except DecodeError Instr :=
  if widOf c = 0 then .ok (i (sdOf c) (saOf c) (sbOf c)) else .error .unusedField

/-- Form `DA` (R302): `OPC`, `SD` and `SA`. -/
def formDA (c : Word) (i : SlotNo → SlotNo → Instr) : Except DecodeError Instr :=
  if sbOf c = 0 ∧ widOf c = 0 then .ok (i (sdOf c) (saOf c)) else .error .unusedField

/-- R300, R307, R308: the command a word names, or why it names none. -/
def decode (c : Word) : Except DecodeError Instr :=
  if rsvOf c = 0 then
    match (opcOf c).toNat with
    | 0x01 => formS c .init
    | 0x02 => formS c .initc
    | 0x03 => formS c .close
    | 0x04 => formS c .status
    | 0x10 => formS c .getpos
    | 0x11 => formS c .setpos
    | 0x12 => formS c .getlen
    | 0x13 => formS c .getlen8
    | 0x14 => formS c .getlen16
    | 0x15 => formS c .getlen32
    | 0x16 => formS c .getlen64
    | 0x17 => formS c .getcap
    | 0x20 => formSW c .wr1 .wr8 .wr16 .wr32 .wr64
    | 0x21 => formSW c .wrr1 .wrr8 .wrr16 .wrr32 .wrr64
    | 0x22 => formSW c .rd1 .rd8 .rd16 .rd32 .rd64
    | 0x23 => formSW c .rdr1 .rdr8 .rdr16 .rdr32 .rdr64
    | 0x24 => formSW c .wra1 .wra8 .wra16 .wra32 .wra64
    | 0x25 => formSW c .rda1 .rda8 .rda16 .rda32 .rda64
    | 0x26 => formS c .rdbyte
    | 0x30 => formDAB c .and
    | 0x31 => formDAB c .or
    | 0x32 => formDAB c .xor
    | 0x33 => formDA c .not
    | 0x40 => formDA c .shl
    | 0x41 => formDA c .shr
    | _ => .error .unknownOpcode
  else .error .reservedBits

/-- A word of form `S`: R302's pattern, bit 31 first. -/
def encodeS (opc : BitVec 8) (sd : SlotNo) : Word := 0#20 ++ sd ++ opc

/-- A word of form `SW`: R302's pattern, bit 31 first. -/
def encodeSW (opc : BitVec 8) (wid : BitVec 3) (sd : SlotNo) : Word := 0#9 ++ wid ++ 0#8 ++ sd ++ opc

/-- A word of form `DAB`: R302's pattern, bit 31 first. -/
def encodeDAB (opc : BitVec 8) (sd sa sb : SlotNo) : Word := 0#12 ++ sb ++ sa ++ sd ++ opc

/-- A word of form `DA`: R302's pattern, bit 31 first. -/
def encodeDA (opc : BitVec 8) (sd sa : SlotNo) : Word := 0#16 ++ sa ++ sd ++ opc

/-- The command word of a command (R302, R303, R307). -/
def encode : Instr → Word
  | .init sd => encodeS 0x01 sd
  | .initc sd => encodeS 0x02 sd
  | .close sd => encodeS 0x03 sd
  | .status sd => encodeS 0x04 sd
  | .getpos sd => encodeS 0x10 sd
  | .setpos sd => encodeS 0x11 sd
  | .getlen sd => encodeS 0x12 sd
  | .getlen8 sd => encodeS 0x13 sd
  | .getlen16 sd => encodeS 0x14 sd
  | .getlen32 sd => encodeS 0x15 sd
  | .getlen64 sd => encodeS 0x16 sd
  | .getcap sd => encodeS 0x17 sd
  | .wr1 sd => encodeSW 0x20 0 sd
  | .wr8 sd => encodeSW 0x20 1 sd
  | .wr16 sd => encodeSW 0x20 2 sd
  | .wr32 sd => encodeSW 0x20 3 sd
  | .wr64 sd => encodeSW 0x20 4 sd
  | .wrr1 sd => encodeSW 0x21 0 sd
  | .wrr8 sd => encodeSW 0x21 1 sd
  | .wrr16 sd => encodeSW 0x21 2 sd
  | .wrr32 sd => encodeSW 0x21 3 sd
  | .wrr64 sd => encodeSW 0x21 4 sd
  | .rd1 sd => encodeSW 0x22 0 sd
  | .rd8 sd => encodeSW 0x22 1 sd
  | .rd16 sd => encodeSW 0x22 2 sd
  | .rd32 sd => encodeSW 0x22 3 sd
  | .rd64 sd => encodeSW 0x22 4 sd
  | .rdr1 sd => encodeSW 0x23 0 sd
  | .rdr8 sd => encodeSW 0x23 1 sd
  | .rdr16 sd => encodeSW 0x23 2 sd
  | .rdr32 sd => encodeSW 0x23 3 sd
  | .rdr64 sd => encodeSW 0x23 4 sd
  | .wra1 sd => encodeSW 0x24 0 sd
  | .wra8 sd => encodeSW 0x24 1 sd
  | .wra16 sd => encodeSW 0x24 2 sd
  | .wra32 sd => encodeSW 0x24 3 sd
  | .wra64 sd => encodeSW 0x24 4 sd
  | .rda1 sd => encodeSW 0x25 0 sd
  | .rda8 sd => encodeSW 0x25 1 sd
  | .rda16 sd => encodeSW 0x25 2 sd
  | .rda32 sd => encodeSW 0x25 3 sd
  | .rda64 sd => encodeSW 0x25 4 sd
  | .rdbyte sd => encodeS 0x26 sd
  | .and sd sa sb => encodeDAB 0x30 sd sa sb
  | .or sd sa sb => encodeDAB 0x31 sd sa sb
  | .xor sd sa sb => encodeDAB 0x32 sd sa sb
  | .not sd sa => encodeDA 0x33 sd sa
  | .shl sd sa => encodeDA 0x40 sd sa
  | .shr sd sa => encodeDA 0x41 sd sa

/-- A row of spec/opcode_table.json: a word `c` matches the row when `c &&& mask = matchBits` (R300). -/
structure OpcodeRow where
  mask : Word
  matchBits : Word
  deriving DecidableEq, Repr

/-- The word `c` matches the row (R300). -/
def OpcodeRow.matchesWord (r : OpcodeRow) (c : Word) : Bool := c &&& r.mask == r.matchBits

/-- The command's row of spec/opcode_table.json, mask and match as the table gives them. -/
def Instr.row : Instr → OpcodeRow
  | .init _ => { mask := 0xFFFFF0FF, matchBits := 0x00000001 }
  | .initc _ => { mask := 0xFFFFF0FF, matchBits := 0x00000002 }
  | .close _ => { mask := 0xFFFFF0FF, matchBits := 0x00000003 }
  | .status _ => { mask := 0xFFFFF0FF, matchBits := 0x00000004 }
  | .getpos _ => { mask := 0xFFFFF0FF, matchBits := 0x00000010 }
  | .setpos _ => { mask := 0xFFFFF0FF, matchBits := 0x00000011 }
  | .getlen _ => { mask := 0xFFFFF0FF, matchBits := 0x00000012 }
  | .getlen8 _ => { mask := 0xFFFFF0FF, matchBits := 0x00000013 }
  | .getlen16 _ => { mask := 0xFFFFF0FF, matchBits := 0x00000014 }
  | .getlen32 _ => { mask := 0xFFFFF0FF, matchBits := 0x00000015 }
  | .getlen64 _ => { mask := 0xFFFFF0FF, matchBits := 0x00000016 }
  | .getcap _ => { mask := 0xFFFFF0FF, matchBits := 0x00000017 }
  | .wr1 _ => { mask := 0xFFFFF0FF, matchBits := 0x00000020 }
  | .wr8 _ => { mask := 0xFFFFF0FF, matchBits := 0x00100020 }
  | .wr16 _ => { mask := 0xFFFFF0FF, matchBits := 0x00200020 }
  | .wr32 _ => { mask := 0xFFFFF0FF, matchBits := 0x00300020 }
  | .wr64 _ => { mask := 0xFFFFF0FF, matchBits := 0x00400020 }
  | .wrr1 _ => { mask := 0xFFFFF0FF, matchBits := 0x00000021 }
  | .wrr8 _ => { mask := 0xFFFFF0FF, matchBits := 0x00100021 }
  | .wrr16 _ => { mask := 0xFFFFF0FF, matchBits := 0x00200021 }
  | .wrr32 _ => { mask := 0xFFFFF0FF, matchBits := 0x00300021 }
  | .wrr64 _ => { mask := 0xFFFFF0FF, matchBits := 0x00400021 }
  | .rd1 _ => { mask := 0xFFFFF0FF, matchBits := 0x00000022 }
  | .rd8 _ => { mask := 0xFFFFF0FF, matchBits := 0x00100022 }
  | .rd16 _ => { mask := 0xFFFFF0FF, matchBits := 0x00200022 }
  | .rd32 _ => { mask := 0xFFFFF0FF, matchBits := 0x00300022 }
  | .rd64 _ => { mask := 0xFFFFF0FF, matchBits := 0x00400022 }
  | .rdr1 _ => { mask := 0xFFFFF0FF, matchBits := 0x00000023 }
  | .rdr8 _ => { mask := 0xFFFFF0FF, matchBits := 0x00100023 }
  | .rdr16 _ => { mask := 0xFFFFF0FF, matchBits := 0x00200023 }
  | .rdr32 _ => { mask := 0xFFFFF0FF, matchBits := 0x00300023 }
  | .rdr64 _ => { mask := 0xFFFFF0FF, matchBits := 0x00400023 }
  | .wra1 _ => { mask := 0xFFFFF0FF, matchBits := 0x00000024 }
  | .wra8 _ => { mask := 0xFFFFF0FF, matchBits := 0x00100024 }
  | .wra16 _ => { mask := 0xFFFFF0FF, matchBits := 0x00200024 }
  | .wra32 _ => { mask := 0xFFFFF0FF, matchBits := 0x00300024 }
  | .wra64 _ => { mask := 0xFFFFF0FF, matchBits := 0x00400024 }
  | .rda1 _ => { mask := 0xFFFFF0FF, matchBits := 0x00000025 }
  | .rda8 _ => { mask := 0xFFFFF0FF, matchBits := 0x00100025 }
  | .rda16 _ => { mask := 0xFFFFF0FF, matchBits := 0x00200025 }
  | .rda32 _ => { mask := 0xFFFFF0FF, matchBits := 0x00300025 }
  | .rda64 _ => { mask := 0xFFFFF0FF, matchBits := 0x00400025 }
  | .rdbyte _ => { mask := 0xFFFFF0FF, matchBits := 0x00000026 }
  | .and _ _ _ => { mask := 0xFFF000FF, matchBits := 0x00000030 }
  | .or _ _ _ => { mask := 0xFFF000FF, matchBits := 0x00000031 }
  | .xor _ _ _ => { mask := 0xFFF000FF, matchBits := 0x00000032 }
  | .not _ _ => { mask := 0xFFFF00FF, matchBits := 0x00000033 }
  | .shl _ _ => { mask := 0xFFFF00FF, matchBits := 0x00000040 }
  | .shr _ _ => { mask := 0xFFFF00FF, matchBits := 0x00000041 }

/-- The command that the decoder reads from an instruction whose bits are `w`: a command is one 32-bit word (R301, R309), so
bits at and above `nbits` are 0 and no byte order arises. -/
def decodeTableWord (nbits w : Nat) : Option Instr :=
  match decode (BitVec.ofNat 32 (w % 2 ^ nbits)) with
  | .ok i => some i
  | .error _ => none

end Sys2Proof
end

