-- ==== Sys2Proof/Config.lean ====
section
/-!
DEFINITION. The implementation parameters of the BSE (R10, R211): what one instance fixes. The spec leaves them OPEN and
says that the model takes each as an argument, so they are plain data that `State` carries and no step changes
(notes/assumptions/1.md). NUM_SLOTS is the length of the slot file.
-/

namespace Sys2Proof

/-- MAX_WORDS, TMEM_ENTRIES and BSE_BASE (R10, R211, D4 to D6). -/
structure Params where
  /-- The largest word count one slot's storage may grow to (R10, D4). -/
  maxWords : Nat
  /-- The number of 64-bit entries of TMEM (R10, D5). -/
  tmemEntries : Nat
  /-- Where the register window lies in the host's address space (R211, D6). -/
  bseBase : Nat
  deriving DecidableEq, Repr

/-- The legal values of R10's table; BSE_BASE may be any address. -/
abbrev Params.Legal (p : Params) : Prop :=
  1 ≤ p.maxWords ∧ p.maxWords ≤ 2 ^ 32 ∧ p.tmemEntries ≤ 2 ^ 16

/-- The legal values of NUM_SLOTS (R10): 1 to 16, what the 4-bit slot fields can name. -/
abbrev LegalSlotCount (n : Nat) : Prop := 1 ≤ n ∧ n ≤ 16

/-- DESIGN CHOICE (notes/assumptions/1.md), unsafe: the parameters `State.reset` has. They are the values that
95_test_vectors.md assumes; BSE_BASE 0 makes a host address equal to its window offset. -/
def Params.reference : Params := { maxWords := 1024, tmemEntries := 16, bseBase := 0 }

/-- DESIGN CHOICE (notes/assumptions/1.md), unsafe: the NUM_SLOTS of `State.reset`, 95_test_vectors.md's value. -/
def referenceSlotCount : Nat := 4

end Sys2Proof
end

