-- ==== Sys2Proof/Machine/State.lean ====
section
/-!
DEFINITION. The state of the BSE as plain data (10_state.md, 20_memory.md): the slot context file, the host registers, TMEM,
the parameters of the instance, and two fields of the model's own: the outside events not yet accepted and the answer of the
last host read. Also the error kinds, the fault, the refusals and the state after reset.
-/

namespace Sys2Proof.Machine

/-- The five fields of one slot (R100). The word count `nw` (R102) is the length of `words` (notes/assumptions/2.md). -/
structure Slot where
  /-- `open`, one bit (R101). -/
  isOpen : Bool
  /-- `words`, the storage words from index 0 (R103). -/
  words : List Word
  /-- `L`, the length in bits (R104). -/
  len : Nat
  /-- `P`, the bit cursor (R105). -/
  pos : Nat
  deriving DecidableEq, Repr

/-- The empty stream: one word of zeros, length and cursor 0, open (R116, R400). -/
def Slot.empty : Slot := { isOpen := true, words := [0#32], len := 0, pos := 0 }

/-- TMEM (R200, R202): the entries written since reset, as pairs of entry index and 64-bit value. Its canonical form has the
indices strictly rising; an index that is not listed is unwritten (R900, D30; notes/assumptions/5.md and 6.md). -/
abbrev Memory := List (Nat × Value)

/-- The errors a command can raise (R800), in the order of their codes 1 to 6. -/
inductive Err where
  /-- The word names no command, or a used slot field names no slot (R802). -/
  | illegalCommand
  /-- A closed slot was named as the stream slot or as a source (R803). -/
  | disposed
  /-- An operand check failed (R804). -/
  | invalidArg
  /-- `SETPOS` beyond the length or below 0 (R805). -/
  | outOfRange
  /-- An array buffer does not lie inside TMEM (R806). -/
  | tmemRange
  /-- A stream would need more than MAX_WORDS words (R807). -/
  | capacityExceeded
  deriving DecidableEq, Repr

/-- The width of a host access. R206 admits only the full width of the register or entry; the others can be attempted and are
refused. -/
inductive BusWidth where
  | w8
  | w16
  | w32
  | w64
  | w128
  deriving DecidableEq, Repr

/-- What the outside does to the BSE, one event at a time (R213, R816): the host's reads and writes at a host address, and the
platform's reset (R900). -/
inductive HostEvent where
  /-- Reset is asserted (R900). -/
  | reset
  /-- A host read at a host address (R115, R203). -/
  | read (addr : Nat) (width : BusWidth)
  /-- A host write at a host address; a 32-bit write carries its word in bits `[31:0]` of `data`. -/
  | write (addr : Nat) (width : BusWidth) (data : Value)
  deriving DecidableEq, Repr

/-- Why the machine stops with a fault. -/
inductive Fault where
  /-- A `WRA*` command or a host read reads a TMEM entry that nothing has written since reset. Raised by `readEntries` and by
  the host read of TMEM, as R900 and D30 say a model must. Safe: the hardware goes on with an unspecified value, so a true
  claim may become unprovable and no false one provable. -/
  | tmemUnwritten (index : Nat)
  deriving DecidableEq, Repr

/-- Why the machine refuses. -/
inductive Refusal where
  /-- The instruction has no meaning yet. Raised by an arm of `exec` only; no arm does so. Safe. -/
  | notModelled (mnemonic : String)
  /-- A host access that is not full-width at the offset of a register or entry, or lies outside the window. Raised by the
  host read and write, as R206 says the model must. Safe: such a program has no meaning in the spec. -/
  | hostAccess (addr : Nat) (width : BusWidth)
  deriving DecidableEq, Repr

/-- The whole state. -/
structure State where
  /-- The slot context file (R100), from slot 0; its length is NUM_SLOTS (R10, notes/assumptions/1.md). -/
  slots : List Slot
  /-- `A0` (R108). -/
  a0 : Value
  /-- `A1` (R108). -/
  a1 : Value
  /-- `A2` (R108). -/
  a2 : Value
  /-- `A3` (R108). -/
  a3 : Value
  /-- `R0`, the result value (R109). -/
  r0 : Value
  /-- `R1`, the count of bits read (R109). -/
  r1 : Value
  /-- `ERR` (R111). -/
  err : Word
  /-- `STICKY` (R112). -/
  sticky : Word
  /-- TMEM (R202). -/
  tmem : Memory
  /-- The parameters of the instance (R10, R211); no step changes them. -/
  params : Params
  /-- The model's own: the outside events not yet accepted, oldest first (notes/assumptions/3.md). -/
  pending : List HostEvent
  /-- The model's own: what the last accepted host read answered, zero-extended to 64 bits (notes/assumptions/4.md). -/
  readData : Option Value
  deriving DecidableEq, Repr

/-- The state after reset of an instance with `numSlots` slots and the parameters `p` (R116, R900): every slot the open empty
stream, every register 0, every TMEM entry unwritten. -/
def State.resetWith (p : Params) (numSlots : Nat) : State :=
  { slots := List.replicate numSlots Slot.empty
    a0 := 0#64
    a1 := 0#64
    a2 := 0#64
    a3 := 0#64
    r0 := 0#64
    r1 := 0#64
    err := 0#32
    sticky := 0#32
    tmem := []
    params := p
    pending := []
    readData := none }

/-- The machine right after reset (R900), for the parameters that notes/assumptions/1.md names. -/
def State.reset : State := State.resetWith Params.reference referenceSlotCount

end Sys2Proof.Machine
end

