-- ==== Sys2Proof/Machine/Flags.lean ====
section
/-!
DEFINITION. The BSE's flags (R114): the status a command leaves in `ERR` (R111, R800) and the accumulated errors in `STICKY`
(R112). There are no condition codes; a short read sets no flag (R808).
-/

namespace Sys2Proof.Machine

/-- The code of an error (R800). -/
def Err.code : Err → Nat
  | .illegalCommand => 1
  | .disposed => 2
  | .invalidArg => 3
  | .outOfRange => 4
  | .tmemRange => 5
  | .capacityExceeded => 6

/-- The code 0, `OK` (R800). -/
def okStatus : Word := 0#32

/-- What `ERR` holds after the error `e`: its code in bits `[2:0]`, zeros above (R111). -/
def Err.status (e : Err) : Word := BitVec.ofNat 32 e.code

/-- What `STICKY` becomes when the error `e` is raised: bit `code(e)` is set and no bit is cleared (R112). -/
def stickyAfter (sticky : Word) (e : Err) : Word := sticky ||| (1#32 <<< e.code)

end Sys2Proof.Machine
end

