-- ==== Sys2Proof/Machine/Ops.lean ====
section
/-!
DEFINITION. The named operations over the state that every meaning is built from: ending a command with success or with an
error (R801: the one shared operation for taking an error; an error is not a trap, so there is no return from one, R810,
R811), reaching a slot by its number, the bits of a stream, and reading and writing TMEM.
-/

namespace Sys2Proof.Machine

/-- What a command or a step answers. -/
abbrev Result := Host.Outcome State Fault Refusal

/-! ## Ending a command -/

/-- The end of a command that succeeds: `x[ERR] <- 0` (R111). -/
def State.ok (s : State) : State := { s with err := okStatus }

/-- `raise e` (R801): `ERR` takes the code, `STICKY` gains its bit, and nothing else changes. -/
def State.raise (s : State) (e : Err) : State :=
  { s with err := e.status, sticky := stickyAfter s.sticky e }

/-- A command that ends by raising `e` ends in a next state (R801, R810): the host reads `ERR` and goes on (R811). -/
def State.fail (s : State) (e : Err) : Result := .next (s.raise e)

/-! ## Slots -/

/-- The slot that a slot field names, none when the number is not below NUM_SLOTS (R100, R304). -/
def State.slot? (s : State) (n : SlotNo) : Option Slot := s.slots[n.toNat]?

/-- `S[n] <- t` (R15). -/
def State.setSlot (s : State) (n : SlotNo) (t : Slot) : State := { s with slots := s.slots.set n.toNat t }

/-- `nw`, the word count of a slot (R102). -/
def Slot.nw (t : Slot) : Nat := t.words.length

/-- `bit(s, p)`, the bit of stream position `p`: bit `p % 32` of word `p / 32` (R12, R103); false at a position that does not
exist. -/
def Slot.bit (t : Slot) (p : Nat) : Bool := (t.words.getD (p / 32) 0#32).getLsbD (p % 32)

/-- The check that `n` names a slot that exists (R304, R802), then what follows on that slot. -/
def State.onSlot (s : State) (n : SlotNo) (k : Slot → Result) : Result :=
  match s.slot? n with
  | none => s.fail .illegalCommand
  | some t => k t

/-- The checks of a single-slot command, in the order of R809: the slot exists (R802), it is open (R803); then what follows. -/
def State.onOpenSlot (s : State) (n : SlotNo) (k : Slot → Result) : Result :=
  s.onSlot n fun t => if t.isOpen then k t else s.fail .disposed

/-! ## Words from bits -/

/-- The word whose bit `j` is `g j` for `j < k` and 0 above. -/
def wordOfBits (g : Nat → Bool) : Nat → Word
  | 0 => 0#32
  | k + 1 => wordOfBits g k ||| (if g k then 1#32 <<< k else 0#32)

/-- `zext_64` of a count or position (D32). -/
def countValue (n : Nat) : Value := BitVec.ofNat 64 n

/-! ## TMEM -/

/-- The canonical form: entry indices strictly rising. No entry can equal what an unlisted index reads as, since an unlisted
entry has no value. -/
abbrev Memory.wf (m : Memory) : Prop := m.Pairwise fun x y => x.1 < y.1

/-- `MemRead(i, 1)` (R15): the entry's value, none when nothing has written it since reset (R900). -/
def Memory.read : Memory → Nat → Option Value
  | [], _ => none
  | (a, v) :: rest, i => if a = i then some v else Memory.read rest i

/-- `MemWrite(i, 1, v)` (R15): the entry is replaced, or listed at its place in the rising order. -/
def Memory.write : Memory → Nat → Value → Memory
  | [], i, v => [(i, v)]
  | (a, u) :: rest, i, v =>
    if i < a then (i, v) :: (a, u) :: rest
    else if i = a then (i, v) :: rest
    else (a, u) :: Memory.write rest i v

/-- `cnt` entries from index `start`, in index order; the index of the first unwritten one when there is one (R900, D30). -/
def Memory.readEntries (m : Memory) (start : Nat) : Nat → Except Nat (List Value)
  | 0 => .ok []
  | cnt + 1 =>
    match m.read start with
    | none => .error start
    | some v =>
      match m.readEntries (start + 1) cnt with
      | .error i => .error i
      | .ok vs => .ok (v :: vs)

end Sys2Proof.Machine
end

