-- ==== Sys2Proof/Machine/Operands.lean ====
section
/-!
DEFINITION. The operand forms (R305, R16, R601) and the checks on them (R604, R605). Every operand but a value is the signed
integer that a 64-bit register denotes, and every check is on mathematical integers, so none can wrap (D8).
-/

namespace Sys2Proof.Machine

/-- `sint64(v)` (R14): the integer a 64-bit pattern denotes in two's complement. -/
def sint64 (v : Value) : Int := v.toInt

/-- `zext_64(v[W-1:0])`: the low `W` bits of a value, zeros above (R14, R601). -/
def lowBits (W : Nat) (v : Value) : Value := (v.setWidth W).setWidth 64

/-- `ValidRange(W, b, c)` (R604): `0 ≤ b`, `0 ≤ c` and `c ≤ W - b`. -/
def validRange (W : Nat) (b c : Int) : Bool :=
  !(decide (b < 0) || decide (c < 0) || decide (c > (W : Int) - b))

/-- The operands of an array command (R305): the buffer is the TMEM range `[base, base + len)`. -/
structure ArrayArgs where
  base : Int
  len : Int
  off : Int
  cnt : Int
  deriving DecidableEq, Repr

/-- `base`, `len`, `off` and `cnt` from `A0` to `A3` (R305). -/
def State.arrayArgs (s : State) : ArrayArgs :=
  { base := sint64 s.a0, len := sint64 s.a1, off := sint64 s.a2, cnt := sint64 s.a3 }

/-- `ValidArray` (R605): the error it raises, none when the buffer is legal. The source's test comes first (R806). -/
def ArrayArgs.check (a : ArrayArgs) (tmemEntries : Nat) : Option Err :=
  if a.off < 0 ∨ a.cnt < 0 ∨ a.off + a.cnt > a.len then some .invalidArg
  else if a.base < 0 ∨ a.base + a.len > (tmemEntries : Int) then some .tmemRange
  else none

/-- The TMEM index of the first element, `base + off` (R202), for arguments that pass the check. -/
def ArrayArgs.start (a : ArrayArgs) : Nat := (a.base + a.off).toNat

/-- The number of elements, for arguments that pass the check. -/
def ArrayArgs.count (a : ArrayArgs) : Nat := a.cnt.toNat

end Sys2Proof.Machine
end

