-- ==== Sys2Proof/Machine/WordEngine.lean ====
section
/-!
DEFINITION. The generic word engine and splitter (42_word_engine.md): the mask table, growth and reservation, the 32-bit write
and read, the 64-bit split, and the typed multiplexer's two paths (R606, R607). Every typed command moves its bits only
through these (R513). They act on one slot's fields and raise no error (R501).
-/

namespace Sys2Proof.Machine

/-! ## The mask table -/

/-- The 33 entries of `MASK` as R500 prints them. -/
def maskTable : List Word :=
  [0x00000000#32, 0x00000001#32, 0x00000003#32, 0x00000007#32, 0x0000000F#32, 0x0000001F#32, 0x0000003F#32, 0x0000007F#32,
   0x000000FF#32, 0x000001FF#32, 0x000003FF#32, 0x000007FF#32, 0x00000FFF#32, 0x00001FFF#32, 0x00003FFF#32, 0x00007FFF#32,
   0x0000FFFF#32, 0x0001FFFF#32, 0x0003FFFF#32, 0x0007FFFF#32, 0x000FFFFF#32, 0x001FFFFF#32, 0x003FFFFF#32, 0x007FFFFF#32,
   0x00FFFFFF#32, 0x01FFFFFF#32, 0x03FFFFFF#32, 0x07FFFFFF#32, 0x0FFFFFFF#32, 0x1FFFFFFF#32, 0x3FFFFFFF#32, 0x7FFFFFFF#32,
   0xFFFFFFFF#32]

/-- `MASK[c]` (R500); every use has `c ≤ 32`. -/
def mask (c : Nat) : Word := maskTable.getD c 0#32

/-! ## Growth -/

/-- `Grow` (R502): the storage doubles, the new words are 0. -/
def Slot.grow (t : Slot) : Slot := { t with words := t.words ++ List.replicate t.nw 0#32 }

/-- The loop of `Reserve` (R503): `n` doubled while `32 * n < e`. The first argument bounds the loop; `e` itself suffices when
`n ≥ 1`, because each pass at least doubles `n` (notes/assumptions/11.md). -/
def doublings : Nat → Nat → Nat → Nat
  | 0, n, _ => n
  | fuel + 1, n, e => if 32 * n < e then doublings fuel (2 * n) e else n

/-- The word count that `Reserve(s, T)` finds for `T` bits written at the cursor (R503). -/
def Slot.reserve (t : Slot) (T : Nat) : Nat := doublings (t.pos + T) t.nw (t.pos + T)

/-! ## Writing -/

/-- One pass of the splitter (R505): the field `v[b + n - 1 : b]`, which fits between the cursor and the end of the cursor's
word, is cleared and ORed into that word, which `Grow` makes first when it does not exist; the cursor advances by `n` and the
length becomes `max(L, P)`. -/
def Slot.placeInWord (t : Slot) (v : Word) (b n : Nat) : Slot :=
  let w := t.pos / 32
  let j := t.pos % 32
  let g := if w = t.nw then t.grow else t
  let f := (v >>> b) &&& mask n
  let m := mask n <<< j
  { g with
    words := g.words.modify w fun x => (x &&& ~~~m) ||| (f <<< j)
    pos := g.pos + n
    len := max g.len (g.pos + n) }

/-- `EngineWrite` (R505), the splitter: as many bits as the cursor's word has room for, then the remainder at bit 0 of the next
word. The first argument bounds the recursion: every pass places at least one bit, so the count itself suffices
(notes/assumptions/11.md). -/
def Slot.engineWriteFuel : Nat → Slot → Word → Nat → Nat → Slot
  | 0, t, _, _, _ => t
  | fuel + 1, t, v, b, c =>
    if c = 0 then t
    else
      let n := min c (32 - t.pos % 32)
      let t' := t.placeInWord v b n
      if n < c then Slot.engineWriteFuel fuel t' v (b + n) (c - n) else t'

/-- `EngineWrite(s, v, b, c)` (R504, R505). -/
def Slot.engineWrite (t : Slot) (v : Word) (b c : Nat) : Slot := Slot.engineWriteFuel c t v b c

/-- `EngineWrite64(s, v, b, c)` (R511): the low half first, then the high half. -/
def Slot.engineWrite64 (t : Slot) (v : Value) (b c : Nat) : Slot :=
  if b < 32 then
    let cLo := min c (32 - b)
    (t.engineWrite (v.extractLsb' 0 32) b cLo).engineWrite (v.extractLsb' 32 32) 0 (c - cLo)
  else t.engineWrite (v.extractLsb' 32 32) (b - 32) c

/-! ## Reading -/

/-- What an engine read answers: the slot with its cursor advanced, the value and the count of bits read. -/
structure ReadResult (w : Nat) where
  slot : Slot
  value : BitVec w
  count : Nat
  deriving DecidableEq, Repr

/-- The `n` bits at the cursor, which lie in the cursor's word, at bits `[n-1:0]` (R508). -/
def Slot.takeFromWord (t : Slot) (n : Nat) : Word :=
  (t.words.getD (t.pos / 32) 0#32 >>> (t.pos % 32)) &&& mask n

/-- `EngineRead` (R508): the available bits of the cursor's word, then the remainder from the next word. The first argument
bounds the recursion: every pass that recurses takes at least one bit (notes/assumptions/11.md). -/
def Slot.engineReadFuel : Nat → Slot → Nat → Nat → ReadResult 32
  | 0, t, _, _ => { slot := t, value := 0#32, count := 0 }
  | fuel + 1, t, b, c =>
    let k := min c (t.len - t.pos)
    if k = 0 then { slot := t, value := 0#32, count := 0 }
    else
      let n := min k (32 - t.pos % 32)
      let f := t.takeFromWord n
      let t' : Slot := { t with pos := t.pos + n }
      if n < k then
        let r := Slot.engineReadFuel fuel t' (b + n) (k - n)
        { slot := r.slot, value := (f <<< b) ||| r.value, count := n + r.count }
      else { slot := t', value := f <<< b, count := n }

/-- `EngineRead(s, b, c)` (R507, R508). -/
def Slot.engineRead (t : Slot) (b c : Nat) : ReadResult 32 := Slot.engineReadFuel c t b c

/-- `EngineRead64(s, b, c)` (R512): the low half first, then the high half. -/
def Slot.engineRead64 (t : Slot) (b c : Nat) : ReadResult 64 :=
  if b < 32 then
    let cLo := min c (32 - b)
    let lo := t.engineRead b cLo
    let hi := lo.slot.engineRead 0 (c - cLo)
    { slot := hi.slot, value := hi.value ++ lo.value, count := lo.count + hi.count }
  else
    let hi := t.engineRead (b - 32) c
    { slot := hi.slot, value := hi.value ++ 0#32, count := hi.count }

/-! ## The multiplexer's paths -/

/-- `WriteValue(s, v, W, b, c)` (R606). -/
def Slot.writeValue (t : Slot) (v : Value) (W b c : Nat) : Slot :=
  if W = 64 then t.engineWrite64 v b c else t.engineWrite ((v.setWidth W).setWidth 32) b c

/-- `ReadValue(s, W, b, c)` (R607). -/
def Slot.readValue (t : Slot) (W b c : Nat) : ReadResult 64 :=
  if W = 64 then t.engineRead64 b c
  else
    let r := t.engineRead b c
    { slot := r.slot, value := r.value.setWidth 64, count := r.count }

end Sys2Proof.Machine
end

