-- ==== Sys2Proof/Machine/Cursor.lean ====
section
/-!
DEFINITION. The cursor and length commands (41_cursor.md): the seven queries, whose results are zero-extended to 64 bits in
`R0` (D32), and `SETPOS`.
-/

namespace Sys2Proof.Machine

/-- `ceil(a / b)` for `b > 0` (R13). -/
def ceilDiv (a b : Nat) : Nat := (a + b - 1) / b

/-- A query of an open slot: `R0` takes a count computed from the slot (R450, R452 to R457). -/
def query (f : Slot → Nat) (sd : SlotNo) (s : State) : Result :=
  s.onOpenSlot sd fun t => .next { s with r0 := countValue (f t) }.ok

/-- `GETPOS sD` (R450): the cursor. -/
def execGetpos (sd : SlotNo) (s : State) : Result := query (fun t => t.pos) sd s

/-- `SETPOS sD` (R451): the cursor moves to `sint64(A0)`, which must lie in `0 ≤ p ≤ L` (C1). -/
def execSetpos (sd : SlotNo) (s : State) : Result :=
  s.onOpenSlot sd fun t =>
    let p := sint64 s.a0
    if p < 0 ∨ p > (t.len : Int) then s.fail .outOfRange
    else .next (s.setSlot sd { t with pos := p.toNat }).ok

/-- `GETLEN sD` (R452): the length in bits. -/
def execGetlen (sd : SlotNo) (s : State) : Result := query (fun t => t.len) sd s

/-- `GETLEN8 sD` (R453): the length in 8-bit units, rounded up. -/
def execGetlen8 (sd : SlotNo) (s : State) : Result := query (fun t => ceilDiv t.len 8) sd s

/-- `GETLEN16 sD` (R454): the length in 16-bit units, rounded up. -/
def execGetlen16 (sd : SlotNo) (s : State) : Result := query (fun t => ceilDiv t.len 16) sd s

/-- `GETLEN32 sD` (R455): the length in 32-bit units, rounded up. -/
def execGetlen32 (sd : SlotNo) (s : State) : Result := query (fun t => ceilDiv t.len 32) sd s

/-- `GETLEN64 sD` (R456): the length in 64-bit units, rounded up. -/
def execGetlen64 (sd : SlotNo) (s : State) : Result := query (fun t => ceilDiv t.len 64) sd s

/-- `GETCAP sD` (R457): the capacity in bits. -/
def execGetcap (sd : SlotNo) (s : State) : Result := query (fun t => 32 * t.nw) sd s

end Sys2Proof.Machine
end

