-- ==== Sys2Proof/Machine/Lifecycle.lean ====
section
/-!
DEFINITION. The lifecycle commands (40_lifecycle.md): `INIT`, `INITC`, `CLOSE`, `STATUS`.
-/

namespace Sys2Proof.Machine

/-- `INIT sD` (R400): the slot becomes a new empty stream, whatever it held, open or closed (D20). -/
def execInit (sd : SlotNo) (s : State) : Result :=
  s.onSlot sd fun _ => .next (s.setSlot sd Slot.empty).ok

/-- The word count of a stream pre-sized to `c ≥ 0` bits: `max(1, ceil(c / 32))` (R401, D18). -/
def wordsForBits (c : Nat) : Nat := max 1 ((c + 31) / 32)

/-- `INITC sD` (R401): the slot becomes a new empty stream pre-sized to `sint64(A0)` bits; a closed slot is accepted (D20). -/
def execInitc (sd : SlotNo) (s : State) : Result :=
  s.onSlot sd fun _ =>
    let c := sint64 s.a0
    if c < 0 then s.fail .invalidArg
    else
      let n := wordsForBits c.toNat
      if n > s.params.maxWords then s.fail .capacityExceeded
      else .next (s.setSlot sd { isOpen := true, words := List.replicate n 0#32, len := 0, pos := 0 }).ok

/-- `CLOSE sD` (R402): the stream ends; its words, length and cursor are kept and unreachable (R117). -/
def execClose (sd : SlotNo) (s : State) : Result :=
  s.onOpenSlot sd fun t => .next (s.setSlot sd { t with isOpen := false }).ok

/-- `STATUS sD` (R403): `CanRead` in bit 0 and `CanWrite` in bit 1 of `R0`; the one query that works on a closed slot (D19). -/
def execStatus (sd : SlotNo) (s : State) : Result :=
  s.onSlot sd fun t => .next { s with r0 := if t.isOpen then 3#64 else 0#64 }.ok

end Sys2Proof.Machine
end

