-- ==== Sys2Proof/Machine/Logical.lean ====
section
/-!
DEFINITION. The logical stream combiner (44_logical.md): the result-stream construction that the logical and shift commands
share (R700), and `AND`, `OR`, `XOR`, `NOT`.
-/

namespace Sys2Proof.Machine

/-- `Build(a, f)` (R700): a new open stream with the length and word count of `a`, cursor 0, bit `p` equal to `f p` below the
length and 0 above it. -/
def Slot.build (a : Slot) (f : Nat → Bool) : Slot :=
  { isOpen := true
    words := (List.range a.nw).map fun w =>
      wordOfBits (fun j => decide (32 * w + j < a.len) && f (32 * w + j)) 32
    len := a.len
    pos := 0 }

/-- A command of form `DAB` (R701 to R703): the three slots exist (R802); `SA`, then `SB` is open (R803; `SD` is not
checked); the lengths are equal (R804); then `SD` is replaced by the bitwise combination. The sources are read before `SD`
is replaced, so they may be `SD`. -/
def combine (f : Bool → Bool → Bool) (sd sa sb : SlotNo) (s : State) : Result :=
  s.onSlot sd fun _ => s.onSlot sa fun a => s.onSlot sb fun b =>
    if !a.isOpen then s.fail .disposed
    else if !b.isOpen then s.fail .disposed
    else if a.len ≠ b.len then s.fail .invalidArg
    else .next (s.setSlot sd (a.build fun p => f (a.bit p) (b.bit p))).ok

/-- `AND sD, sA, sB` (R701). -/
def execAnd (sd sa sb : SlotNo) (s : State) : Result := combine (fun x y => x && y) sd sa sb s

/-- `OR sD, sA, sB` (R702). -/
def execOr (sd sa sb : SlotNo) (s : State) : Result := combine (fun x y => x || y) sd sa sb s

/-- `XOR sD, sA, sB` (R703). -/
def execXor (sd sa sb : SlotNo) (s : State) : Result := combine (fun x y => x ^^ y) sd sa sb s

/-- `NOT sD, sA` (R704): only the committed bits are complemented (C5). -/
def execNot (sd sa : SlotNo) (s : State) : Result :=
  s.onSlot sd fun _ => s.onOpenSlot sa fun a => .next (s.setSlot sd (a.build fun p => !(a.bit p))).ok

end Sys2Proof.Machine
end

