-- ==== Sys2Proof/Machine/Shift.lean ====
section
/-!
DEFINITION. The bitwise stream shifter (45_shift.md): `SHL` toward position 0, `SHR` away from it. The amount is `sint64(A0)`,
legal at any value of 0 or more (D17).
-/

namespace Sys2Proof.Machine

/-- A shift command (R750, R751): the slots exist, `SA` is open, the amount is not negative; then `SD` is replaced by the
stream whose bit `p` is `f a n p`. -/
def shift (f : Slot → Nat → Nat → Bool) (sd sa : SlotNo) (s : State) : Result :=
  s.onSlot sd fun _ => s.onOpenSlot sa fun a =>
    let n := sint64 s.a0
    if n < 0 then s.fail .invalidArg
    else .next (s.setSlot sd (a.build (f a n.toNat))).ok

/-- `SHL sD, sA` (R750): bit `p` of the result is bit `p + n` of the source, 0 from `L - n` on. -/
def execShl (sd sa : SlotNo) (s : State) : Result :=
  shift (fun a n p => decide (p + n < a.len) && a.bit (p + n)) sd sa s

/-- `SHR sD, sA` (R751): bit `p` of the result is bit `p - n` of the source, 0 below `n`. -/
def execShr (sd sa : SlotNo) (s : State) : Result :=
  shift (fun a n p => decide (n ≤ p) && a.bit (p - n)) sd sa s

end Sys2Proof.Machine
end

