-- ==== Sys2Proof/Machine/Typed.lean ====
section
/-!
DEFINITION. The typed accessor commands (43_typed_access.md): scalar writes and reads, full width and sub-range, array writes
and reads, at the widths 1, 8, 16, 32 and 64 (R600), and the byte-stream read. Each command is one line over the shared
operation of its form; the shared operations follow the pseudocode of R610 to R640 and check in the order of R809.
-/

namespace Sys2Proof.Machine

/-- A write of `T` bits in all at the cursor: `Reserve`'s check against MAX_WORDS (R503, R807), then the new slot. -/
def commitWrite (sd : SlotNo) (t : Slot) (T : Nat) (t' : Slot) (s : State) : Result :=
  if t.reserve T > s.params.maxWords then s.fail .capacityExceeded else .next (s.setSlot sd t').ok

/-- A scalar write at full width (R610 to R614). -/
def scalarWrite (W : Nat) (sd : SlotNo) (s : State) : Result :=
  s.onOpenSlot sd fun t => commitWrite sd t W (t.writeValue s.a0 W 0 W) s

/-- A scalar write of a sub-range (R615 to R619): `b` from `A1`, `c` from `A2`. -/
def subrangeWrite (W : Nat) (sd : SlotNo) (s : State) : Result :=
  s.onOpenSlot sd fun t =>
    let b := sint64 s.a1
    let c := sint64 s.a2
    if validRange W b c then commitWrite sd t c.toNat (t.writeValue s.a0 W b.toNat c.toNat) s
    else s.fail .invalidArg

/-- The state after a scalar read: the slot's cursor advanced, the value in `R0` and the count in `R1` (R109). -/
def State.afterRead (s : State) (sd : SlotNo) (r : ReadResult 64) : State :=
  { s.setSlot sd r.slot with r0 := r.value, r1 := countValue r.count }.ok

/-- A scalar read at full width (R620 to R624); a short read is not an error (R509). -/
def scalarRead (W : Nat) (sd : SlotNo) (s : State) : Result :=
  s.onOpenSlot sd fun t => .next (s.afterRead sd (t.readValue W 0 W))

/-- A scalar read of a sub-range (R625 to R629): `b` from `A1`, `c` from `A2`. -/
def subrangeRead (W : Nat) (sd : SlotNo) (s : State) : Result :=
  s.onOpenSlot sd fun t =>
    let b := sint64 s.a1
    let c := sint64 s.a2
    if validRange W b c then .next (s.afterRead sd (t.readValue W b.toNat c.toNat))
    else s.fail .invalidArg

/-- The element loop of an array write: each element is the full-width scalar write of its width, in index order. -/
def Slot.writeElements (t : Slot) (W : Nat) : List Value → Slot
  | [] => t
  | e :: es => (t.writeValue e W 0 W).writeElements W es

/-- An array write (R630 to R634). Every check precedes the first element (R209, R809); an unwritten TMEM entry is a fault
(R900, D30). -/
def arrayWrite (W : Nat) (sd : SlotNo) (s : State) : Result :=
  s.onOpenSlot sd fun t =>
    let a := s.arrayArgs
    match a.check s.params.tmemEntries with
    | some e => s.fail e
    | none =>
      if t.reserve (a.count * W) > s.params.maxWords then s.fail .capacityExceeded
      else
        match s.tmem.readEntries a.start a.count with
        | .error i => .fault (.tmemUnwritten i)
        | .ok es => .next (s.setSlot sd (t.writeElements W es)).ok

/-- What the element loop of an array read leaves: the slot, TMEM and the total of bits read. -/
structure ArrayRead where
  slot : Slot
  tmem : Memory
  total : Nat
  deriving DecidableEq, Repr

/-- The element loop of an array read (R635 to R639): `cnt` full-width scalar reads, each written to its entry, from entry
`i` in index order; an element past the data is written as 0 (D11). -/
def Slot.readElements (W : Nat) : Nat → Slot → Memory → Nat → ArrayRead
  | 0, t, m, _ => { slot := t, tmem := m, total := 0 }
  | cnt + 1, t, m, i =>
    let r := t.readValue W 0 W
    let rest := Slot.readElements W cnt r.slot (m.write i r.value) (i + 1)
    { slot := rest.slot, tmem := rest.tmem, total := r.count + rest.total }

/-- An array read (R635 to R639): the total in `R1`, `R0` unchanged. -/
def arrayRead (W : Nat) (sd : SlotNo) (s : State) : Result :=
  s.onOpenSlot sd fun t =>
    let a := s.arrayArgs
    match a.check s.params.tmemEntries with
    | some e => s.fail e
    | none =>
      let r := Slot.readElements W a.count t s.tmem a.start
      .next { s.setSlot sd r.slot with tmem := r.tmem, r1 := countValue r.total }.ok

/-- `WR1 sD` (R610): write one boolean. -/
def execWr1 (sd : SlotNo) (s : State) : Result := scalarWrite 1 sd s

/-- `WR8 sD` (R611): write one byte. -/
def execWr8 (sd : SlotNo) (s : State) : Result := scalarWrite 8 sd s

/-- `WR16 sD` (R612): write one 16-bit value. -/
def execWr16 (sd : SlotNo) (s : State) : Result := scalarWrite 16 sd s

/-- `WR32 sD` (R613): write one 32-bit value. -/
def execWr32 (sd : SlotNo) (s : State) : Result := scalarWrite 32 sd s

/-- `WR64 sD` (R614): write one 64-bit value. -/
def execWr64 (sd : SlotNo) (s : State) : Result := scalarWrite 64 sd s

/-- `WRR1 sD` (R615): write a sub-range of one boolean. -/
def execWrr1 (sd : SlotNo) (s : State) : Result := subrangeWrite 1 sd s

/-- `WRR8 sD` (R616): write a sub-range of one byte. -/
def execWrr8 (sd : SlotNo) (s : State) : Result := subrangeWrite 8 sd s

/-- `WRR16 sD` (R617): write a sub-range of one 16-bit value. -/
def execWrr16 (sd : SlotNo) (s : State) : Result := subrangeWrite 16 sd s

/-- `WRR32 sD` (R618): write a sub-range of one 32-bit value. -/
def execWrr32 (sd : SlotNo) (s : State) : Result := subrangeWrite 32 sd s

/-- `WRR64 sD` (R619): write a sub-range of one 64-bit value. -/
def execWrr64 (sd : SlotNo) (s : State) : Result := subrangeWrite 64 sd s

/-- `RD1 sD` (R620): read one boolean. -/
def execRd1 (sd : SlotNo) (s : State) : Result := scalarRead 1 sd s

/-- `RD8 sD` (R621): read one byte. -/
def execRd8 (sd : SlotNo) (s : State) : Result := scalarRead 8 sd s

/-- `RD16 sD` (R622): read one 16-bit value. -/
def execRd16 (sd : SlotNo) (s : State) : Result := scalarRead 16 sd s

/-- `RD32 sD` (R623): read one 32-bit value. -/
def execRd32 (sd : SlotNo) (s : State) : Result := scalarRead 32 sd s

/-- `RD64 sD` (R624): read one 64-bit value. -/
def execRd64 (sd : SlotNo) (s : State) : Result := scalarRead 64 sd s

/-- `RDR1 sD` (R625): read a sub-range of one boolean. -/
def execRdr1 (sd : SlotNo) (s : State) : Result := subrangeRead 1 sd s

/-- `RDR8 sD` (R626): read a sub-range of one byte. -/
def execRdr8 (sd : SlotNo) (s : State) : Result := subrangeRead 8 sd s

/-- `RDR16 sD` (R627): read a sub-range of one 16-bit value. -/
def execRdr16 (sd : SlotNo) (s : State) : Result := subrangeRead 16 sd s

/-- `RDR32 sD` (R628): read a sub-range of one 32-bit value. -/
def execRdr32 (sd : SlotNo) (s : State) : Result := subrangeRead 32 sd s

/-- `RDR64 sD` (R629): read a sub-range of one 64-bit value. -/
def execRdr64 (sd : SlotNo) (s : State) : Result := subrangeRead 64 sd s

/-- `WRA1 sD` (R630): write an array, each element a boolean. -/
def execWra1 (sd : SlotNo) (s : State) : Result := arrayWrite 1 sd s

/-- `WRA8 sD` (R631): write an array, each element a byte. -/
def execWra8 (sd : SlotNo) (s : State) : Result := arrayWrite 8 sd s

/-- `WRA16 sD` (R632): write an array, each element a 16-bit value. -/
def execWra16 (sd : SlotNo) (s : State) : Result := arrayWrite 16 sd s

/-- `WRA32 sD` (R633): write an array, each element a 32-bit value. -/
def execWra32 (sd : SlotNo) (s : State) : Result := arrayWrite 32 sd s

/-- `WRA64 sD` (R634): write an array, each element a 64-bit value. -/
def execWra64 (sd : SlotNo) (s : State) : Result := arrayWrite 64 sd s

/-- `RDA1 sD` (R635): read an array, each element a boolean. -/
def execRda1 (sd : SlotNo) (s : State) : Result := arrayRead 1 sd s

/-- `RDA8 sD` (R636): read an array, each element a byte. -/
def execRda8 (sd : SlotNo) (s : State) : Result := arrayRead 8 sd s

/-- `RDA16 sD` (R637): read an array, each element a 16-bit value. -/
def execRda16 (sd : SlotNo) (s : State) : Result := arrayRead 16 sd s

/-- `RDA32 sD` (R638): read an array, each element a 32-bit value. -/
def execRda32 (sd : SlotNo) (s : State) : Result := arrayRead 32 sd s

/-- `RDA64 sD` (R639): read an array, each element a 64-bit value. -/
def execRda64 (sd : SlotNo) (s : State) : Result := arrayRead 64 sd s

/-- `RDBYTE sD` (R640): one byte, or the sentinel -1 when no bit was read; a short byte is a value (D12). -/
def execRdbyte (sd : SlotNo) (s : State) : Result :=
  s.onOpenSlot sd fun t =>
    let r := t.readValue 8 0 8
    let s' := s.afterRead sd r
    .next (if r.count = 0 then { s' with r0 := 0xFFFFFFFFFFFFFFFF#64 } else s')

end Sys2Proof.Machine
end

