-- ==== Sys2Proof/Machine/Dispatch.lean ====
section
/-! DEFINITION. What each command does: one arm per constructor of `Instr`, each one direct call of its meaning. -/

namespace Sys2Proof.Machine

def exec (i : Instr) (s : State) : Host.Outcome State Fault Refusal :=
  match i with
  -- Lifecycle (R400 to R403)
  | .init sd => Sys2Proof.Machine.execInit sd s
  | .initc sd => Sys2Proof.Machine.execInitc sd s
  | .close sd => Sys2Proof.Machine.execClose sd s
  | .status sd => Sys2Proof.Machine.execStatus sd s
  -- Cursor and length (R450 to R457)
  | .getpos sd => Sys2Proof.Machine.execGetpos sd s
  | .setpos sd => Sys2Proof.Machine.execSetpos sd s
  | .getlen sd => Sys2Proof.Machine.execGetlen sd s
  | .getlen8 sd => Sys2Proof.Machine.execGetlen8 sd s
  | .getlen16 sd => Sys2Proof.Machine.execGetlen16 sd s
  | .getlen32 sd => Sys2Proof.Machine.execGetlen32 sd s
  | .getlen64 sd => Sys2Proof.Machine.execGetlen64 sd s
  | .getcap sd => Sys2Proof.Machine.execGetcap sd s
  -- Scalar writes, full width (R610 to R614)
  | .wr1 sd => Sys2Proof.Machine.execWr1 sd s
  | .wr8 sd => Sys2Proof.Machine.execWr8 sd s
  | .wr16 sd => Sys2Proof.Machine.execWr16 sd s
  | .wr32 sd => Sys2Proof.Machine.execWr32 sd s
  | .wr64 sd => Sys2Proof.Machine.execWr64 sd s
  -- Scalar writes, sub-range (R615 to R619)
  | .wrr1 sd => Sys2Proof.Machine.execWrr1 sd s
  | .wrr8 sd => Sys2Proof.Machine.execWrr8 sd s
  | .wrr16 sd => Sys2Proof.Machine.execWrr16 sd s
  | .wrr32 sd => Sys2Proof.Machine.execWrr32 sd s
  | .wrr64 sd => Sys2Proof.Machine.execWrr64 sd s
  -- Scalar reads, full width (R620 to R624)
  | .rd1 sd => Sys2Proof.Machine.execRd1 sd s
  | .rd8 sd => Sys2Proof.Machine.execRd8 sd s
  | .rd16 sd => Sys2Proof.Machine.execRd16 sd s
  | .rd32 sd => Sys2Proof.Machine.execRd32 sd s
  | .rd64 sd => Sys2Proof.Machine.execRd64 sd s
  -- Scalar reads, sub-range (R625 to R629)
  | .rdr1 sd => Sys2Proof.Machine.execRdr1 sd s
  | .rdr8 sd => Sys2Proof.Machine.execRdr8 sd s
  | .rdr16 sd => Sys2Proof.Machine.execRdr16 sd s
  | .rdr32 sd => Sys2Proof.Machine.execRdr32 sd s
  | .rdr64 sd => Sys2Proof.Machine.execRdr64 sd s
  -- Array writes (R630 to R634)
  | .wra1 sd => Sys2Proof.Machine.execWra1 sd s
  | .wra8 sd => Sys2Proof.Machine.execWra8 sd s
  | .wra16 sd => Sys2Proof.Machine.execWra16 sd s
  | .wra32 sd => Sys2Proof.Machine.execWra32 sd s
  | .wra64 sd => Sys2Proof.Machine.execWra64 sd s
  -- Array reads (R635 to R639)
  | .rda1 sd => Sys2Proof.Machine.execRda1 sd s
  | .rda8 sd => Sys2Proof.Machine.execRda8 sd s
  | .rda16 sd => Sys2Proof.Machine.execRda16 sd s
  | .rda32 sd => Sys2Proof.Machine.execRda32 sd s
  | .rda64 sd => Sys2Proof.Machine.execRda64 sd s
  -- Byte-stream read (R640)
  | .rdbyte sd => Sys2Proof.Machine.execRdbyte sd s
  -- Logical (R701 to R704)
  | .and sd sa sb => Sys2Proof.Machine.execAnd sd sa sb s
  | .or sd sa sb => Sys2Proof.Machine.execOr sd sa sb s
  | .xor sd sa sb => Sys2Proof.Machine.execXor sd sa sb s
  | .not sd sa => Sys2Proof.Machine.execNot sd sa s
  -- Shift (R750, R751)
  | .shl sd sa => Sys2Proof.Machine.execShl sd sa s
  | .shr sd sa => Sys2Proof.Machine.execShr sd sa s

end Sys2Proof.Machine
end

