-- ==== Sys2Proof/Machine/HostPort.lean ====
section
/-!
DEFINITION. The host port: how the BSE gets its next command and what every other outside event does. The register window of
R115, the TMEM window of R203, the accesses R206 refuses, the command register (R113, R300), and the reset input (R900).
-/

namespace Sys2Proof.Machine

/-- What a full-width host access reaches (R115, R203). -/
inductive Target where
  | cmd
  | err
  | sticky
  /-- A reserved offset: reads 0, writes ignored. -/
  | reserved
  | a0
  | a1
  | a2
  | a3
  | r0
  | r1
  | tmem (index : Nat)
  deriving DecidableEq, Repr

/-- The number of bytes of a host access. -/
def BusWidth.bytes : BusWidth → Nat
  | .w8 => 1
  | .w16 => 2
  | .w32 => 4
  | .w64 => 8
  | .w128 => 16

/-- The rows of R115 below 0x40: each register only at its own offset and its full width (R206). -/
def registerAt : Nat → BusWidth → Option Target
  | 0x00, .w32 => some .cmd
  | 0x04, .w32 => some .err
  | 0x08, .w32 => some .sticky
  | 0x0C, .w32 => some .reserved
  | 0x10, .w64 => some .a0
  | 0x18, .w64 => some .a1
  | 0x20, .w64 => some .a2
  | 0x28, .w64 => some .a3
  | 0x30, .w64 => some .r0
  | 0x38, .w64 => some .r1
  | _, _ => none

/-- The whole window by offset (R115, R211). The reserved range 0x40 to 0xFFF has no width of its own: an access of any width
that stays inside it reaches it (DESIGN CHOICE, unsafe; notes/assumptions/7.md). -/
def windowAt (tmemEntries off : Nat) (w : BusWidth) : Option Target :=
  if off < 0x40 then registerAt off w
  else if off < 0x1000 then
    if off + w.bytes ≤ 0x1000 then some .reserved else none
  else if w = .w64 ∧ (off - 0x1000) % 8 = 0 ∧ (off - 0x1000) / 8 < tmemEntries then
    some (.tmem ((off - 0x1000) / 8))
  else none

/-- What a host address reaches: the window lies at BSE_BASE (R211). -/
def hostTarget (p : Params) (addr : Nat) (w : BusWidth) : Option Target :=
  if addr < p.bseBase then none else windowAt p.tmemEntries (addr - p.bseBase) w

/-- R300: a word written to `CMD` executes one command; a word that names none raises `ILLEGAL_COMMAND` (R308, R802). -/
def runCommand (c : Word) (s : State) : Result :=
  match decode c with
  | .ok i => exec i s
  | .error _ => s.fail .illegalCommand

/-- A host read answers `v` and changes nothing else (R210). -/
def State.answer (s : State) (v : Value) : State := { s with readData := some v }

/-- A host read that reaches a target (R115); `CMD` and the reserved offsets read 0 (R113). An unwritten TMEM entry is a fault
(R900, D30). -/
def hostReadAt (g : Target) (s : State) : Result :=
  match g with
  | .cmd => .next (s.answer 0#64)
  | .err => .next (s.answer (s.err.setWidth 64))
  | .sticky => .next (s.answer (s.sticky.setWidth 64))
  | .reserved => .next (s.answer 0#64)
  | .a0 => .next (s.answer s.a0)
  | .a1 => .next (s.answer s.a1)
  | .a2 => .next (s.answer s.a2)
  | .a3 => .next (s.answer s.a3)
  | .r0 => .next (s.answer s.r0)
  | .r1 => .next (s.answer s.r1)
  | .tmem i =>
    match s.tmem.read i with
    | none => .fault (.tmemUnwritten i)
    | some v => .next (s.answer v)

/-- A host write that reaches a target (R115): `CMD` executes; `ERR`, `STICKY`, `R0`, `R1` and the reserved offsets ignore it
(R109, R111, R112). -/
def hostWriteAt (g : Target) (v : Value) (s : State) : Result :=
  match g with
  | .cmd => runCommand (v.setWidth 32) s
  | .err => .next s
  | .sticky => .next s
  | .reserved => .next s
  | .a0 => .next { s with a0 := v }
  | .a1 => .next { s with a1 := v }
  | .a2 => .next { s with a2 := v }
  | .a3 => .next { s with a3 := v }
  | .r0 => .next s
  | .r1 => .next s
  | .tmem i => .next { s with tmem := s.tmem.write i v }

/-- The reset input (R900): every piece of the BSE's state takes its reset value. The parameters, the number of slots, the
outside events still to come and the host's last answer are not the BSE's state (notes/assumptions/9.md). -/
def State.resetInput (s : State) : State :=
  { State.resetWith s.params s.slots.length with pending := s.pending, readData := s.readData }

/-- One outside event (R213, R902). -/
def accept (e : HostEvent) (s : State) : Result :=
  match e with
  | .reset => .next s.resetInput
  | .read addr w =>
    match hostTarget s.params addr w with
    | none => .refused (.hostAccess addr w)
    | some g => hostReadAt g s
  | .write addr w v =>
    match hostTarget s.params addr w with
    | none => .refused (.hostAccess addr w)
    | some g => hostWriteAt g v s

/-- The host access that issues the command word `c`: a 32-bit write to `CMD` at offset 0x00 (R113, R115). -/
def commandEvent (p : Params) (c : Word) : HostEvent := .write p.bseBase .w32 (c.setWidth 64)

/-- One step: the oldest outside event is taken and done whole before the next (R902); with none pending the state holds
(R818, R906; notes/assumptions/3.md). -/
def stepOnce (s : State) : Result :=
  match s.pending with
  | [] => .next s
  | e :: rest => accept e { s with pending := rest }

/-- `s` with the command word `w mod 2^nbits` as the next outside event. -/
def State.placeCommand (s : State) (nbits w : Nat) : State :=
  { s with pending := commandEvent s.params (BitVec.ofNat 32 (w % 2 ^ nbits)) :: s.pending }

end Sys2Proof.Machine
end

