-- ==== Sys2Proof/Machine/Step.lean ====
section
/-!
DEFINITION. One step of the machine. The BSE has no program counter and fetches nothing (R110): a step takes the oldest outside
event, and a command runs when that event is the host's write of its word to `CMD` (notes/assumptions/3.md).
-/

namespace Sys2Proof.Machine

/-- One step (R110, R902). -/
def step (s : State) : Host.Outcome State Fault Refusal := stepOnce s

/-- `s` with the instruction `w` of `nbits` bits as the one the next step runs: the host's write of it to `CMD` is the oldest
outside event. -/
def State.withFetchWord (s : State) (nbits w : Nat) : State := s.placeCommand nbits w

end Sys2Proof.Machine
end

