-- ==== Sys2Proof/WellFormed.lean ====
section
/-!
DEFINITION. Well-formedness of a command for an instance with `numSlots` slots: every slot field its form uses names a slot
that exists (R304). A command that is not well-formed raises `ILLEGAL_COMMAND` (R300, R802); the slot fields are 4 bits wide
by their type, so this is the only check.
-/

namespace Sys2Proof

/-- The slot fields that the command's form uses (R302), in the order SD, SA, SB. -/
def Instr.slotFields : Instr → List SlotNo
  | .init sd => [sd]
  | .initc sd => [sd]
  | .close sd => [sd]
  | .status sd => [sd]
  | .getpos sd => [sd]
  | .setpos sd => [sd]
  | .getlen sd => [sd]
  | .getlen8 sd => [sd]
  | .getlen16 sd => [sd]
  | .getlen32 sd => [sd]
  | .getlen64 sd => [sd]
  | .getcap sd => [sd]
  | .wr1 sd => [sd]
  | .wr8 sd => [sd]
  | .wr16 sd => [sd]
  | .wr32 sd => [sd]
  | .wr64 sd => [sd]
  | .wrr1 sd => [sd]
  | .wrr8 sd => [sd]
  | .wrr16 sd => [sd]
  | .wrr32 sd => [sd]
  | .wrr64 sd => [sd]
  | .rd1 sd => [sd]
  | .rd8 sd => [sd]
  | .rd16 sd => [sd]
  | .rd32 sd => [sd]
  | .rd64 sd => [sd]
  | .rdr1 sd => [sd]
  | .rdr8 sd => [sd]
  | .rdr16 sd => [sd]
  | .rdr32 sd => [sd]
  | .rdr64 sd => [sd]
  | .wra1 sd => [sd]
  | .wra8 sd => [sd]
  | .wra16 sd => [sd]
  | .wra32 sd => [sd]
  | .wra64 sd => [sd]
  | .rda1 sd => [sd]
  | .rda8 sd => [sd]
  | .rda16 sd => [sd]
  | .rda32 sd => [sd]
  | .rda64 sd => [sd]
  | .rdbyte sd => [sd]
  | .and sd sa sb => [sd, sa, sb]
  | .or sd sa sb => [sd, sa, sb]
  | .xor sd sa sb => [sd, sa, sb]
  | .not sd sa => [sd, sa]
  | .shl sd sa => [sd, sa]
  | .shr sd sa => [sd, sa]

/-- R304: every used slot field is below NUM_SLOTS. -/
def Instr.wellFormed (numSlots : Nat) (i : Instr) : Bool :=
  i.slotFields.all fun n => decide (n.toNat < numSlots)

end Sys2Proof
end

