-- ==== Sys2Proof/Machine/Assembler.lean ====
section
/-!
DEFINITION. The notation around the commands (30_encoding.md sections 6 and 7): host statements (R311), the element types and
width aliases (R320, R600), the immediate forms (R321, R322), the named sequences (R323) and the conversion macros (R330), each
as the host events it stands for. None is a command: they are what a host writes with the core commands. Where a macro uses
a value the host has read (`SEEKEND`, `TOBYTES`), its parts take that value as an argument.
-/

namespace Sys2Proof.Machine

/-- The value widths of the typed paths (R9, R303). -/
inductive Width where
  | w1
  | w8
  | w16
  | w32
  | w64
  deriving DecidableEq, Repr

/-- The bits of a width. -/
def Width.bits : Width → Nat
  | .w1 => 1
  | .w8 => 8
  | .w16 => 16
  | .w32 => 32
  | .w64 => 64

/-- The source's element types (R320, R600). -/
inductive ElemType where
  | bool
  | byte
  | sbyte
  | char
  | short
  | ushort
  | int
  | uint
  | float
  | long
  | ulong
  | double
  deriving DecidableEq, Repr

/-- The width path of an element type (R320, R600). -/
def ElemType.width : ElemType → Width
  | .bool => .w1
  | .byte => .w8
  | .sbyte => .w8
  | .char => .w16
  | .short => .w16
  | .ushort => .w16
  | .int => .w32
  | .uint => .w32
  | .float => .w32
  | .long => .w64
  | .ulong => .w64
  | .double => .w64

/-- The six typed forms (R320). -/
inductive TypedForm where
  | wr
  | wrr
  | rd
  | rdr
  | wra
  | rda
  deriving DecidableEq, Repr

/-- The command of a form at a width (R303, R307). -/
def typedCommand (f : TypedForm) (w : Width) (sd : SlotNo) : Instr :=
  match f, w with
  | .wr, .w1 => .wr1 sd
  | .wr, .w8 => .wr8 sd
  | .wr, .w16 => .wr16 sd
  | .wr, .w32 => .wr32 sd
  | .wr, .w64 => .wr64 sd
  | .wrr, .w1 => .wrr1 sd
  | .wrr, .w8 => .wrr8 sd
  | .wrr, .w16 => .wrr16 sd
  | .wrr, .w32 => .wrr32 sd
  | .wrr, .w64 => .wrr64 sd
  | .rd, .w1 => .rd1 sd
  | .rd, .w8 => .rd8 sd
  | .rd, .w16 => .rd16 sd
  | .rd, .w32 => .rd32 sd
  | .rd, .w64 => .rd64 sd
  | .rdr, .w1 => .rdr1 sd
  | .rdr, .w8 => .rdr8 sd
  | .rdr, .w16 => .rdr16 sd
  | .rdr, .w32 => .rdr32 sd
  | .rdr, .w64 => .rdr64 sd
  | .wra, .w1 => .wra1 sd
  | .wra, .w8 => .wra8 sd
  | .wra, .w16 => .wra16 sd
  | .wra, .w32 => .wra32 sd
  | .wra, .w64 => .wra64 sd
  | .rda, .w1 => .rda1 sd
  | .rda, .w8 => .rda8 sd
  | .rda, .w16 => .rda16 sd
  | .rda, .w32 => .rda32 sd
  | .rda, .w64 => .rda64 sd

/-- The pseudo-instruction `F.T sD` (R320). -/
def typedAlias (f : TypedForm) (ty : ElemType) (sd : SlotNo) : Instr := typedCommand f ty.width sd

/-- `WRBYTE sD` (R322). -/
def wrbyte (sd : SlotNo) : Instr := .wr8 sd

/-- The registers a host statement can name (R311). -/
inductive HostReg where
  | a0
  | a1
  | a2
  | a3
  | r0
  | r1
  | err
  | sticky
  deriving DecidableEq, Repr

/-- A statement of a host program: R311's four, and a command. -/
inductive HostStmt where
  /-- `set An, v`, `n` taken modulo 4. -/
  | set (n : Fin 4) (v : Value)
  /-- `get r`. -/
  | get (r : HostReg)
  /-- `tset i, v`. -/
  | tset (i : Nat) (v : Value)
  /-- `tget i`. -/
  | tget (i : Nat)
  /-- A command, written to `CMD`. -/
  | cmd (i : Instr)
  deriving DecidableEq, Repr

/-- The window offset and width of a register (R115). -/
def HostReg.place : HostReg → Nat × BusWidth
  | .a0 => (0x10, .w64)
  | .a1 => (0x18, .w64)
  | .a2 => (0x20, .w64)
  | .a3 => (0x28, .w64)
  | .r0 => (0x30, .w64)
  | .r1 => (0x38, .w64)
  | .err => (0x04, .w32)
  | .sticky => (0x08, .w32)

/-- The host event a statement stands for (R115, R203, R311). -/
def HostStmt.event (p : Params) : HostStmt → HostEvent
  | .set n v => .write (p.bseBase + 0x10 + 8 * n.val) .w64 v
  | .get r => .read (p.bseBase + r.place.1) r.place.2
  | .tset i v => .write (p.bseBase + 0x1000 + 8 * i) .w64 v
  | .tget i => .read (p.bseBase + 0x1000 + 8 * i) .w64
  | .cmd i => commandEvent p (encode i)

/-- `WR<W> sD, #v` (R321). -/
def wrImm (w : Width) (sd : SlotNo) (v : Value) : List HostStmt := [.set 0 v, .cmd (typedCommand .wr w sd)]

/-- `WRR<W> sD, #v, #b, #c` (R321). -/
def wrrImm (w : Width) (sd : SlotNo) (v b c : Value) : List HostStmt :=
  [.set 0 v, .set 1 b, .set 2 c, .cmd (typedCommand .wrr w sd)]

/-- `RDR<W> sD, #b, #c` (R321). -/
def rdrImm (w : Width) (sd : SlotNo) (b c : Value) : List HostStmt :=
  [.set 1 b, .set 2 c, .cmd (typedCommand .rdr w sd)]

/-- The array forms' `set` statements (R321). -/
def arrayImm (i : Instr) (base len off cnt : Value) : List HostStmt :=
  [.set 0 base, .set 1 len, .set 2 off, .set 3 cnt, .cmd i]

/-- `WRA<W> sD, #base, #len, #off, #cnt` (R321). -/
def wraImm (w : Width) (sd : SlotNo) (base len off cnt : Value) : List HostStmt :=
  arrayImm (typedCommand .wra w sd) base len off cnt

/-- `RDA<W> sD, #base, #len, #off, #cnt` (R321). -/
def rdaImm (w : Width) (sd : SlotNo) (base len off cnt : Value) : List HostStmt :=
  arrayImm (typedCommand .rda w sd) base len off cnt

/-- `INITC sD, #c` (R321). -/
def initcImm (sd : SlotNo) (c : Value) : List HostStmt := [.set 0 c, .cmd (.initc sd)]

/-- `SETPOS sD, #p` (R321). -/
def setposImm (sd : SlotNo) (p : Value) : List HostStmt := [.set 0 p, .cmd (.setpos sd)]

/-- `SHL sD, sA, #n` (R321). -/
def shlImm (sd sa : SlotNo) (n : Value) : List HostStmt := [.set 0 n, .cmd (.shl sd sa)]

/-- `SHR sD, sA, #n` (R321). -/
def shrImm (sd sa : SlotNo) (n : Value) : List HostStmt := [.set 0 n, .cmd (.shr sd sa)]

/-- `REWIND sD` (R323). -/
def rewind (sd : SlotNo) : List HostStmt := setposImm sd 0#64

/-- `SEEKEND sD` up to the read of the length (R323). -/
def seekendQuery (sd : SlotNo) : List HostStmt := [.cmd (.getlen sd), .get .r0]

/-- `SEEKEND sD` after it, with the value read from `R0` (R323). -/
def seekendMove (sd : SlotNo) (r0 : Value) : List HostStmt := setposImm sd r0

/-- `TOBYTES` up to the read of the position (R330). -/
def tobytesSave (sd : SlotNo) : List HostStmt := [.cmd (.getpos sd), .get .r0]

/-- `TOBYTES` up to the read of the byte count (R330). -/
def tobytesCount (sd : SlotNo) : List HostStmt := setposImm sd 0#64 ++ [.cmd (.getlen8 sd), .get .r0]

/-- `TOBYTES` after it, with the position `p` and the byte count `n` that were read (R330). -/
def tobytesCopy (sd : SlotNo) (base p n : Value) : List HostStmt :=
  rdaImm .w8 sd base n 0#64 n ++ setposImm sd p

/-- `FROMBYTES sD, #base, #n` (R330). -/
def frombytes (sd : SlotNo) (base n : Value) : List HostStmt :=
  [.cmd (.init sd)] ++ wraImm .w8 sd base n 0#64 n ++ setposImm sd 0#64

/-- The mnemonic of a command (R307). -/
def mnemonicOf : Instr → String
  | .init _ => "INIT"
  | .initc _ => "INITC"
  | .close _ => "CLOSE"
  | .status _ => "STATUS"
  | .getpos _ => "GETPOS"
  | .setpos _ => "SETPOS"
  | .getlen _ => "GETLEN"
  | .getlen8 _ => "GETLEN8"
  | .getlen16 _ => "GETLEN16"
  | .getlen32 _ => "GETLEN32"
  | .getlen64 _ => "GETLEN64"
  | .getcap _ => "GETCAP"
  | .wr1 _ => "WR1"
  | .wr8 _ => "WR8"
  | .wr16 _ => "WR16"
  | .wr32 _ => "WR32"
  | .wr64 _ => "WR64"
  | .wrr1 _ => "WRR1"
  | .wrr8 _ => "WRR8"
  | .wrr16 _ => "WRR16"
  | .wrr32 _ => "WRR32"
  | .wrr64 _ => "WRR64"
  | .rd1 _ => "RD1"
  | .rd8 _ => "RD8"
  | .rd16 _ => "RD16"
  | .rd32 _ => "RD32"
  | .rd64 _ => "RD64"
  | .rdr1 _ => "RDR1"
  | .rdr8 _ => "RDR8"
  | .rdr16 _ => "RDR16"
  | .rdr32 _ => "RDR32"
  | .rdr64 _ => "RDR64"
  | .wra1 _ => "WRA1"
  | .wra8 _ => "WRA8"
  | .wra16 _ => "WRA16"
  | .wra32 _ => "WRA32"
  | .wra64 _ => "WRA64"
  | .rda1 _ => "RDA1"
  | .rda8 _ => "RDA8"
  | .rda16 _ => "RDA16"
  | .rda32 _ => "RDA32"
  | .rda64 _ => "RDA64"
  | .rdbyte _ => "RDBYTE"
  | .and _ _ _ => "AND"
  | .or _ _ _ => "OR"
  | .xor _ _ _ => "XOR"
  | .not _ _ => "NOT"
  | .shl _ _ => "SHL"
  | .shr _ _ => "SHR"

/-- A slot operand, `s0` to `s15` (R310). -/
def slotText (n : SlotNo) : String := "s" ++ toString n.toNat

/-- A command in assembler notation: the mnemonic, then its slot operands in the order SD, SA, SB (R310). -/
def assemblyText (i : Instr) : String :=
  mnemonicOf i ++ " " ++ ", ".intercalate (i.slotFields.map slotText)

end Sys2Proof.Machine
end

