-- ==== Sys2Proof/Safety.lean ====
section
/-!
DEFINITION. The terms that claims use: the invariant of a slot and of the whole state (10_state.md), and what the word engine
does stated on stream bits (R504, R507), independently of the pseudocode that Machine/WordEngine.lean follows.
-/

namespace Sys2Proof.Machine

/-! ## The invariant -/

/-- R102, R104, R105 without the bound MAX_WORDS: at least one word, `P ≤ L ≤ 32 · nw`. -/
abbrev Slot.InBounds (t : Slot) : Prop := 1 ≤ t.nw ∧ t.pos ≤ t.len ∧ t.len ≤ 32 * t.nw

/-- The padding invariant (R106): every bit at or above the length is 0. -/
abbrev Slot.Padded (t : Slot) : Prop := ∀ p, t.len ≤ p → p < 32 * t.nw → t.bit p = false

/-- A slot as R102 to R106 say every slot is. -/
abbrev Slot.Wf (maxWords : Nat) (t : Slot) : Prop := t.InBounds ∧ t.nw ≤ maxWords ∧ t.Padded

/-- The bits of `STICKY` that read as 0: bit 0 and bits `[31:7]` (R112). -/
def stickyZeroBits : Word := 0xFFFFFF81#32

/-- The invariant of the machine: legal parameters and slot count (R10), every slot as R102 to R106 say, `ERR` and `STICKY`
at legal values and `R1` a bit count (R111, R112, R115), TMEM in canonical form with no entry at or above TMEM_ENTRIES
(R200). -/
abbrev State.Inv (s : State) : Prop :=
  s.params.Legal ∧ LegalSlotCount s.slots.length ∧ (∀ t ∈ s.slots, t.Wf s.params.maxWords) ∧
    s.err.toNat ≤ 6 ∧ s.sticky &&& stickyZeroBits = 0#32 ∧
    s.r1.toNat ≤ max 64 (64 * s.params.tmemEntries) ∧
    s.tmem.wf ∧ ∀ e ∈ s.tmem, e.1 < s.params.tmemEntries

/-! ## The engine on stream bits -/

/-- `n` is the smallest `nw · 2^i` that holds `e` bits (R504). -/
def IsGrown (nw e n : Nat) : Prop :=
  ∃ i, n = nw * 2 ^ i ∧ e ≤ 32 * n ∧ ∀ j, e ≤ 32 * (nw * 2 ^ j) → i ≤ j

/-- What R504 says of a write of the field `v[b + c - 1 : b]` at the cursor of `t`, leaving `t'`. -/
structure WritesField (t t' : Slot) (v : Value) (b c : Nat) : Prop where
  isOpen : t'.isOpen = t.isOpen
  pos : t'.pos = t.pos + c
  len : t'.len = max t.len (t.pos + c)
  grown : IsGrown t.nw (t.pos + c) t'.nw
  field : ∀ k < c, t'.bit (t.pos + k) = v.getLsbD (b + k)
  other : ∀ p, p < t.pos ∨ t.pos + c ≤ p → t'.bit p = t.bit p

/-- What R507 says of a read of up to `c` bits at the cursor of `t`, placed from bit `b`: the slot `t'`, the value `v` and the
count `k` it leaves. -/
structure ReadsField (t t' : Slot) (v : Value) (b c k : Nat) : Prop where
  count : k = min c (t.len - t.pos)
  field : ∀ i < k, v.getLsbD (b + i) = t.bit (t.pos + i)
  other : ∀ i, i < b ∨ b + k ≤ i → v.getLsbD i = false
  slot : t' = { t with pos := t.pos + k }

/-- What R630 to R634 say of the element loop of an array write of the values `es` at width `W`: element `k` takes the `W`
bits from `P + k · W`. -/
structure WritesElements (t t' : Slot) (W : Nat) (es : List Value) : Prop where
  isOpen : t'.isOpen = t.isOpen
  pos : t'.pos = t.pos + es.length * W
  len : t'.len = max t.len (t.pos + es.length * W)
  grown : IsGrown t.nw (t.pos + es.length * W) t'.nw
  field : ∀ k < es.length, ∀ i < W, t'.bit (t.pos + k * W + i) = (es.getD k 0#64).getLsbD i
  other : ∀ p, p < t.pos ∨ t.pos + es.length * W ≤ p → t'.bit p = t.bit p

/-- What R635 to R639 say of the element loop of an array read of `cnt` elements of width `W` into TMEM from entry `start`:
entry `start + k` takes the committed bits among the `W` from `P + k · W`, zero-extended. -/
structure ReadsElements (t t' : Slot) (m m' : Memory) (W cnt start total : Nat) : Prop where
  count : total = min (cnt * W) (t.len - t.pos)
  slot : t' = { t with pos := t.pos + total }
  element : ∀ k < cnt, ∃ v, Memory.read m' (start + k) = some v ∧
    ∀ i, v.getLsbD i = (decide (i < W ∧ t.pos + k * W + i < t.len) && t.bit (t.pos + k * W + i))
  other : ∀ j, j < start ∨ start + cnt ≤ j → Memory.read m' j = Memory.read m j

/-- What R700 says of a result stream built from the source `a` and the bit function `f`. -/
structure BuiltFrom (a t' : Slot) (f : Nat → Bool) : Prop where
  isOpen : t'.isOpen = true
  nw : t'.nw = a.nw
  len : t'.len = a.len
  pos : t'.pos = 0
  bit : ∀ p, t'.bit p = (decide (p < a.len) && f p)

/-! ## Kinds of commands -/

/-- What a command reads and checks, by its form (R305, R803, R809): the kinds that the whole-machine rules distinguish. -/
inductive Kind where
  /-- `INIT` and `STATUS`: no check but that the slot exists. -/
  | unchecked
  /-- `INITC`. -/
  | presize
  /-- The commands that read no argument and check only that their slot is open. -/
  | plain (sd : SlotNo)
  /-- `SETPOS`. -/
  | seek (sd : SlotNo)
  /-- A scalar write at full width `W`. -/
  | write (W : Nat) (sd : SlotNo)
  /-- A scalar write of a sub-range of width `W`. -/
  | writeRange (W : Nat) (sd : SlotNo)
  /-- A scalar read of a sub-range of width `W`. -/
  | readRange (W : Nat) (sd : SlotNo)
  /-- An array write of width `W`. -/
  | writeArray (W : Nat) (sd : SlotNo)
  /-- An array read of width `W`. -/
  | readArray (W : Nat) (sd : SlotNo)
  /-- `AND`, `OR`, `XOR`. -/
  | pair (sa sb : SlotNo)
  /-- `NOT`. -/
  | complement (sa : SlotNo)
  /-- `SHL`, `SHR`. -/
  | shift (sa : SlotNo)
  deriving DecidableEq, Repr

/-- The kind of a command. -/
def kindOf : Instr → Kind
  | .init _ => .unchecked
  | .initc _ => .presize
  | .close sd => .plain sd
  | .status _ => .unchecked
  | .getpos sd => .plain sd
  | .setpos sd => .seek sd
  | .getlen sd => .plain sd
  | .getlen8 sd => .plain sd
  | .getlen16 sd => .plain sd
  | .getlen32 sd => .plain sd
  | .getlen64 sd => .plain sd
  | .getcap sd => .plain sd
  | .wr1 sd => .write 1 sd
  | .wr8 sd => .write 8 sd
  | .wr16 sd => .write 16 sd
  | .wr32 sd => .write 32 sd
  | .wr64 sd => .write 64 sd
  | .wrr1 sd => .writeRange 1 sd
  | .wrr8 sd => .writeRange 8 sd
  | .wrr16 sd => .writeRange 16 sd
  | .wrr32 sd => .writeRange 32 sd
  | .wrr64 sd => .writeRange 64 sd
  | .rd1 sd => .plain sd
  | .rd8 sd => .plain sd
  | .rd16 sd => .plain sd
  | .rd32 sd => .plain sd
  | .rd64 sd => .plain sd
  | .rdr1 sd => .readRange 1 sd
  | .rdr8 sd => .readRange 8 sd
  | .rdr16 sd => .readRange 16 sd
  | .rdr32 sd => .readRange 32 sd
  | .rdr64 sd => .readRange 64 sd
  | .wra1 sd => .writeArray 1 sd
  | .wra8 sd => .writeArray 8 sd
  | .wra16 sd => .writeArray 16 sd
  | .wra32 sd => .writeArray 32 sd
  | .wra64 sd => .writeArray 64 sd
  | .rda1 sd => .readArray 1 sd
  | .rda8 sd => .readArray 8 sd
  | .rda16 sd => .readArray 16 sd
  | .rda32 sd => .readArray 32 sd
  | .rda64 sd => .readArray 64 sd
  | .rdbyte sd => .plain sd
  | .and _ sa sb => .pair sa sb
  | .or _ sa sb => .pair sa sb
  | .xor _ sa sb => .pair sa sb
  | .not _ sa => .complement sa
  | .shl _ sa => .shift sa
  | .shr _ sa => .shift sa

/-- `SD`, the one slot a command may change (R404). -/
def destOf : Instr → SlotNo
  | .init sd => sd
  | .initc sd => sd
  | .close sd => sd
  | .status sd => sd
  | .getpos sd => sd
  | .setpos sd => sd
  | .getlen sd => sd
  | .getlen8 sd => sd
  | .getlen16 sd => sd
  | .getlen32 sd => sd
  | .getlen64 sd => sd
  | .getcap sd => sd
  | .wr1 sd => sd
  | .wr8 sd => sd
  | .wr16 sd => sd
  | .wr32 sd => sd
  | .wr64 sd => sd
  | .wrr1 sd => sd
  | .wrr8 sd => sd
  | .wrr16 sd => sd
  | .wrr32 sd => sd
  | .wrr64 sd => sd
  | .rd1 sd => sd
  | .rd8 sd => sd
  | .rd16 sd => sd
  | .rd32 sd => sd
  | .rd64 sd => sd
  | .rdr1 sd => sd
  | .rdr8 sd => sd
  | .rdr16 sd => sd
  | .rdr32 sd => sd
  | .rdr64 sd => sd
  | .wra1 sd => sd
  | .wra8 sd => sd
  | .wra16 sd => sd
  | .wra32 sd => sd
  | .wra64 sd => sd
  | .rda1 sd => sd
  | .rda8 sd => sd
  | .rda16 sd => sd
  | .rda32 sd => sd
  | .rda64 sd => sd
  | .rdbyte sd => sd
  | .and sd _ _ => sd
  | .or sd _ _ => sd
  | .xor sd _ _ => sd
  | .not sd _ => sd
  | .shl sd _ => sd
  | .shr sd _ => sd

/-- The slots whose `open` bit a command checks (R803): `SD` of the single-slot commands but `INIT`, `INITC` and `STATUS`; `SA`
and `SB` of the logical and shift commands, which never check `SD`. -/
def Kind.openChecked : Kind → List SlotNo
  | .unchecked => []
  | .presize => []
  | .plain sd => [sd]
  | .seek sd => [sd]
  | .write _ sd => [sd]
  | .writeRange _ sd => [sd]
  | .readRange _ sd => [sd]
  | .writeArray _ sd => [sd]
  | .readArray _ sd => [sd]
  | .pair sa sb => [sa, sb]
  | .complement sa => [sa]
  | .shift sa => [sa]

/-- Whether a command reads the argument register `A<n>` (R118, R305). -/
def Kind.readsArg (k : Kind) (n : Fin 4) : Bool :=
  match k with
  | .unchecked => false
  | .presize => n == 0
  | .plain _ => false
  | .seek _ => n == 0
  | .write _ _ => n == 0
  | .writeRange _ _ => n != 3
  | .readRange _ _ => n == 1 || n == 2
  | .writeArray _ _ => true
  | .readArray _ _ => true
  | .pair _ _ => false
  | .complement _ => false
  | .shift _ => n == 0

/-- The commands that write `R0` when they succeed (R118). -/
def writesR0 (i : Instr) : Prop :=
  ∃ sd, i ∈ [.status sd, .getpos sd, .getlen sd, .getlen8 sd, .getlen16 sd, .getlen32 sd, .getlen64 sd, .getcap sd, .rd1 sd,
    .rd8 sd, .rd16 sd, .rd32 sd, .rd64 sd, .rdr1 sd, .rdr8 sd, .rdr16 sd, .rdr32 sd, .rdr64 sd, .rdbyte sd]

/-- The commands that read a stream (R118, R210). -/
def readsStream (i : Instr) (sd : SlotNo) : Prop :=
  i ∈ [.rd1 sd, .rd8 sd, .rd16 sd, .rd32 sd, .rd64 sd, .rdr1 sd, .rdr8 sd, .rdr16 sd, .rdr32 sd, .rdr64 sd, .rda1 sd, .rda8 sd,
    .rda16 sd, .rda32 sd, .rda64 sd, .rdbyte sd]

/-- The commands that write TMEM (R118). -/
def writesTmem (i : Instr) : Prop := ∃ sd, i ∈ [.rda1 sd, .rda8 sd, .rda16 sd, .rda32 sd, .rda64 sd]

/-- The commands that put an open stream into `SD` whatever it held (R101). -/
def opensSlot (i : Instr) (n : SlotNo) : Prop :=
  i = .init n ∨ i = .initc n ∨ (∃ sa sb, i = .and n sa sb ∨ i = .or n sa sb ∨ i = .xor n sa sb) ∨
    ∃ sa, i = .not n sa ∨ i = .shl n sa ∨ i = .shr n sa

/-! ## Errors -/

/-- `raise` with the code `k` (R801): `ERR` holds `k`, bit `k` of `STICKY` is set, and nothing else changes. -/
def State.afterError (s : State) (k : Nat) : State :=
  { s with err := BitVec.ofNat 32 k, sticky := s.sticky ||| (1#32 <<< k) }

/-- The argument registers of an array command make no buffer (R605, first test). -/
def State.badBuffer (s : State) : Prop :=
  s.a2.toInt < 0 ∨ s.a3.toInt < 0 ∨ s.a2.toInt + s.a3.toInt > s.a1.toInt

/-- The buffer of an array command does not lie in TMEM (R605, second test). -/
def State.bufferOutside (s : State) : Prop :=
  s.a0.toInt < 0 ∨ s.a0.toInt + s.a1.toInt > (s.params.tmemEntries : Int)

/-- `A1` and `A2` name no field of a `W`-bit value (R604). -/
def State.badRange (s : State) (W : Nat) : Prop :=
  s.a1.toInt < 0 ∨ s.a2.toInt < 0 ∨ s.a1.toInt + s.a2.toInt > (W : Int)

/-- A write of `T` bits at the cursor of slot `n` needs more than MAX_WORDS words (R503, R807). -/
def State.overCapacity (s : State) (n : SlotNo) (T : Nat) : Prop :=
  ∃ t m, s.slot? n = some t ∧ IsGrown t.nw (t.pos + T) m ∧ s.params.maxWords < m

/-- Whether the error with code `k` applies to a command in a state (R802 to R807), each error by itself. -/
def errorApplies (i : Instr) (s : State) (k : Nat) : Prop :=
  match k with
  | 1 => i.wellFormed s.slots.length = false
  | 2 => ∃ n ∈ (kindOf i).openChecked, ∃ t, s.slot? n = some t ∧ t.isOpen = false
  | 3 =>
    match kindOf i with
    | .presize => s.a0.toInt < 0
    | .writeRange W _ => s.badRange W
    | .readRange W _ => s.badRange W
    | .writeArray _ _ => s.badBuffer
    | .readArray _ _ => s.badBuffer
    | .pair sa sb => ∃ a b, s.slot? sa = some a ∧ s.slot? sb = some b ∧ a.len ≠ b.len
    | .shift _ => s.a0.toInt < 0
    | _ => False
  | 4 =>
    match kindOf i with
    | .seek sd => ∃ t, s.slot? sd = some t ∧ (s.a0.toInt < 0 ∨ s.a0.toInt > (t.len : Int))
    | _ => False
  | 5 =>
    match kindOf i with
    | .writeArray _ _ => s.bufferOutside
    | .readArray _ _ => s.bufferOutside
    | _ => False
  | 6 =>
    match kindOf i with
    | .presize => s.params.maxWords < max 1 ((s.a0.toInt.toNat + 31) / 32)
    | .write W sd => s.overCapacity sd W
    | .writeRange _ sd => s.overCapacity sd s.a2.toInt.toNat
    | .writeArray W sd => s.overCapacity sd (s.a3.toInt.toNat * W)
    | _ => False
  | _ => False

end Sys2Proof.Machine
end

