-- ==== Sys2Proof/Certificates/Slice0/Obligations.lean ====
section
/-!
DEFINITION. The statements for the provers. A conclusion `exec i s = .next { s with … }` says at once that the command completes,
what it writes, and that it changes nothing else: every slot but the one set, every register, `STICKY`, TMEM. `State.afterError k`
is the raise of R801. Slots are read with `State.slot?`, stream bits with `Slot.bit`, TMEM with `Memory.read`.
In every statement about `step`, host accesses and resets wait in `State.pending`: the model's choice (notes/assumptions/3.md).
-/

open Sys2Proof Sys2Proof.Machine

/-! ## Decoding and the step -/

/-- Decode and encode agree in both directions (R300 to R308): the decoder answers a command for a word exactly when the word is
that command's encoding. So every operand comes back, and every reserved word, unused field or unknown operation code is refused. -/
def Obligations.DecodeReadsExactlyEncodings : Prop :=
  ∀ (c : Word) (i : Instr), decode c = .ok i ↔ c = encode i

/-- R300's row selection: the decoder takes the row whose `match` equals `c & mask`, there is at most one, and a word that matches
some row is decoded to a command of that row. -/
def Obligations.RowSelectsCommand : Prop :=
  ∀ c : Word,
    (∀ i, decode c = .ok i → c &&& i.row.mask = i.row.matchBits) ∧
    (∀ j : Instr, c &&& j.row.mask = j.row.matchBits → ∃ i, decode c = .ok i ∧ i.row = j.row) ∧
    ∀ i j : Instr, c &&& i.row.mask = i.row.matchBits → c &&& j.row.mask = j.row.matchBits → i.row = j.row

/-- Words that the spec writes out decode to the commands it says they are (R307, R400, R401, R403, R701 to R704, R750, R751). The
last two words are refused, as R308 says; the names of the two reasons are the model's choice (notes/assumptions/13.md). -/
def Obligations.SpecWordsDecode : Prop :=
  decode 0x00000001#32 = .ok (.init 0) ∧ decode 0x00000102#32 = .ok (.initc 1) ∧ decode 0x00000004#32 = .ok (.status 0) ∧
    decode 0x00300120#32 = .ok (.wr32 1) ∧ decode 0x00010330#32 = .ok (.and 3 0 1) ∧
    decode 0x00010331#32 = .ok (.or 3 0 1) ∧ decode 0x00010232#32 = .ok (.xor 2 0 1) ∧
    decode 0x00000333#32 = .ok (.not 3 0) ∧ decode 0x00000340#32 = .ok (.shl 3 0) ∧
    decode 0x00000241#32 = .ok (.shr 2 0) ∧ decode 0x00000000#32 = .error .unknownOpcode ∧
    decode 0x00500020#32 = .error .reservedWidth

/-- A step runs the decoded command: when the oldest outside event is the host's write of a word to `CMD` and the word decodes to
`i`, the step is `exec i` on the state with that event taken. Nothing else is added around `exec`. That outside events wait in
`pending` is the model's choice (notes/assumptions/3.md). -/
def Obligations.StepRunsDecodedCommand : Prop :=
  ∀ (s : State) (rest : List HostEvent) (data : Value) (i : Instr),
    s.pending = .write s.params.bseBase .w32 data :: rest → decode (data.setWidth 32) = .ok i →
    step s = exec i { s with pending := rest }

/-- R802: a word that matches no row, or whose command names a slot that does not exist, raises `ILLEGAL_COMMAND`, whatever the
slots hold. -/
def Obligations.IllegalWordRaises : Prop :=
  ∀ (s : State) (rest : List HostEvent) (data : Value),
    s.pending = .write s.params.bseBase .w32 data :: rest →
    ((∀ i : Instr, (data.setWidth 32) &&& i.row.mask ≠ i.row.matchBits) ∨
      ∃ i, decode (data.setWidth 32) = .ok i ∧ ∃ n ∈ i.slotFields, s.slots.length ≤ n.toNat) →
    step s = .next ({ s with pending := rest }.afterError 1)

/-! ## Lifecycle -/

/-- `INIT` (R400). -/
def Obligations.InitRule : Prop :=
  ∀ sd : SlotNo, encode (.init sd) = 0x00000001#32 ||| (sd.setWidth 32 <<< 8) ∧
    ∀ (s : State) (t : Slot), s.slot? sd = some t →
      exec (.init sd) s = .next { s with
        slots := s.slots.set sd.toNat { isOpen := true, words := [0#32], len := 0, pos := 0 }
        err := 0#32 }

/-- `INITC` (R401). -/
def Obligations.InitcRule : Prop :=
  ∀ sd : SlotNo, encode (.initc sd) = 0x00000002#32 ||| (sd.setWidth 32 <<< 8) ∧
    ∀ (s : State) (t : Slot), s.slot? sd = some t →
      let n := max 1 ((s.a0.toInt.toNat + 31) / 32)
      (s.a0.toInt < 0 → exec (.initc sd) s = .next (s.afterError 3)) ∧
      (0 ≤ s.a0.toInt → s.params.maxWords < n → exec (.initc sd) s = .next (s.afterError 6)) ∧
      (0 ≤ s.a0.toInt → n ≤ s.params.maxWords →
        exec (.initc sd) s = .next { s with
          slots := s.slots.set sd.toNat { isOpen := true, words := List.replicate n 0#32, len := 0, pos := 0 }
          err := 0#32 })

/-- `CLOSE` (R402). -/
def Obligations.CloseRule : Prop :=
  ∀ sd : SlotNo, encode (.close sd) = 0x00000003#32 ||| (sd.setWidth 32 <<< 8) ∧
    ∀ (s : State) (t : Slot), s.slot? sd = some t →
      (t.isOpen = false → exec (.close sd) s = .next (s.afterError 2)) ∧
      (t.isOpen = true →
        exec (.close sd) s = .next { s with
          slots := s.slots.set sd.toNat { isOpen := false, words := t.words, len := t.len, pos := t.pos }
          err := 0#32 })

/-- `STATUS` (R403). -/
def Obligations.StatusRule : Prop :=
  ∀ sd : SlotNo, encode (.status sd) = 0x00000004#32 ||| (sd.setWidth 32 <<< 8) ∧
    ∀ (s : State) (t : Slot), s.slot? sd = some t →
      (t.isOpen = true → exec (.status sd) s = .next { s with r0 := 3#64, err := 0#32 }) ∧
      (t.isOpen = false → exec (.status sd) s = .next { s with r0 := 0#64, err := 0#32 })

/-! ## Cursor and length -/

/-- The seven queries (R450, R452 to R457): the command, its word for slot 0, and the count it answers. -/
def Obligations.QueryRules : Prop :=
  ∀ (sd : SlotNo) (p : Instr × Word × (Slot → Nat)),
    p ∈ [(Instr.getpos sd, 0x00000010#32, fun t : Slot => t.pos),
      (.getlen sd, 0x00000012#32, fun t => t.len),
      (.getlen8 sd, 0x00000013#32, fun t => (t.len + 7) / 8),
      (.getlen16 sd, 0x00000014#32, fun t => (t.len + 15) / 16),
      (.getlen32 sd, 0x00000015#32, fun t => (t.len + 31) / 32),
      (.getlen64 sd, 0x00000016#32, fun t => (t.len + 63) / 64),
      (.getcap sd, 0x00000017#32, fun t => 32 * t.words.length)] →
    encode p.1 = p.2.1 ||| (sd.setWidth 32 <<< 8) ∧
    ∀ (s : State) (t : Slot), s.slot? sd = some t →
      (t.isOpen = false → exec p.1 s = .next (s.afterError 2)) ∧
      (t.isOpen = true → exec p.1 s = .next { s with r0 := BitVec.ofNat 64 (p.2.2 t), err := 0#32 })

/-- `SETPOS` (R451, C1): every position from 0 to the length, the length included, and no other. -/
def Obligations.SetposRule : Prop :=
  ∀ sd : SlotNo, encode (.setpos sd) = 0x00000011#32 ||| (sd.setWidth 32 <<< 8) ∧
    ∀ (s : State) (t : Slot), s.slot? sd = some t →
      (t.isOpen = false → exec (.setpos sd) s = .next (s.afterError 2)) ∧
      (t.isOpen = true → (s.a0.toInt < 0 ∨ s.a0.toInt > (t.len : Int)) →
        exec (.setpos sd) s = .next (s.afterError 4)) ∧
      (t.isOpen = true → 0 ≤ s.a0.toInt → s.a0.toInt ≤ (t.len : Int) →
        exec (.setpos sd) s = .next { s with
          slots := s.slots.set sd.toNat { t with pos := s.a0.toInt.toNat }
          err := 0#32 })

/-! ## Typed accessors -/

/-- The full-width scalar writes (R610 to R614): the command, its width and its word for slot 0. -/
def Obligations.ScalarWriteResult : Prop :=
  ∀ (sd : SlotNo) (p : Instr × Nat × Word),
    p ∈ [(Instr.wr1 sd, 1, 0x00000020#32), (.wr8 sd, 8, 0x00100020#32), (.wr16 sd, 16, 0x00200020#32),
      (.wr32 sd, 32, 0x00300020#32), (.wr64 sd, 64, 0x00400020#32)] →
    encode p.1 = p.2.2 ||| (sd.setWidth 32 <<< 8) ∧
    ∀ (s : State) (t : Slot), s.slot? sd = some t → t.InBounds →
      (t.isOpen = false → exec p.1 s = .next (s.afterError 2)) ∧
      (t.isOpen = true → s.overCapacity sd p.2.1 → exec p.1 s = .next (s.afterError 6)) ∧
      (t.isOpen = true → ¬ s.overCapacity sd p.2.1 →
        ∃ t', exec p.1 s = .next { s with slots := s.slots.set sd.toNat t', err := 0#32 } ∧
          WritesField t t' s.a0 0 p.2.1)

/-- The sub-range scalar writes (R615 to R619). -/
def Obligations.SubrangeWriteResult : Prop :=
  ∀ (sd : SlotNo) (p : Instr × Nat × Word),
    p ∈ [(Instr.wrr1 sd, 1, 0x00000021#32), (.wrr8 sd, 8, 0x00100021#32), (.wrr16 sd, 16, 0x00200021#32),
      (.wrr32 sd, 32, 0x00300021#32), (.wrr64 sd, 64, 0x00400021#32)] →
    encode p.1 = p.2.2 ||| (sd.setWidth 32 <<< 8) ∧
    ∀ (s : State) (t : Slot), s.slot? sd = some t → t.InBounds →
      (t.isOpen = false → exec p.1 s = .next (s.afterError 2)) ∧
      (t.isOpen = true → s.badRange p.2.1 → exec p.1 s = .next (s.afterError 3)) ∧
      (t.isOpen = true → ¬ s.badRange p.2.1 → s.overCapacity sd s.a2.toInt.toNat →
        exec p.1 s = .next (s.afterError 6)) ∧
      (t.isOpen = true → ¬ s.badRange p.2.1 → ¬ s.overCapacity sd s.a2.toInt.toNat →
        ∃ t', exec p.1 s = .next { s with slots := s.slots.set sd.toNat t', err := 0#32 } ∧
          WritesField t t' s.a0 s.a1.toInt.toNat s.a2.toInt.toNat)

/-- The full-width scalar reads (R620 to R624). -/
def Obligations.ScalarReadResult : Prop :=
  ∀ (sd : SlotNo) (p : Instr × Nat × Word),
    p ∈ [(Instr.rd1 sd, 1, 0x00000022#32), (.rd8 sd, 8, 0x00100022#32), (.rd16 sd, 16, 0x00200022#32),
      (.rd32 sd, 32, 0x00300022#32), (.rd64 sd, 64, 0x00400022#32)] →
    encode p.1 = p.2.2 ||| (sd.setWidth 32 <<< 8) ∧
    ∀ (s : State) (t : Slot), s.slot? sd = some t →
      (t.isOpen = false → exec p.1 s = .next (s.afterError 2)) ∧
      (t.isOpen = true →
        ∃ t' v k, exec p.1 s = .next { s with
            slots := s.slots.set sd.toNat t'
            r0 := v
            r1 := BitVec.ofNat 64 k
            err := 0#32 } ∧
          ReadsField t t' v 0 p.2.1 k)

/-- The sub-range scalar reads (R625 to R629). -/
def Obligations.SubrangeReadResult : Prop :=
  ∀ (sd : SlotNo) (p : Instr × Nat × Word),
    p ∈ [(Instr.rdr1 sd, 1, 0x00000023#32), (.rdr8 sd, 8, 0x00100023#32), (.rdr16 sd, 16, 0x00200023#32),
      (.rdr32 sd, 32, 0x00300023#32), (.rdr64 sd, 64, 0x00400023#32)] →
    encode p.1 = p.2.2 ||| (sd.setWidth 32 <<< 8) ∧
    ∀ (s : State) (t : Slot), s.slot? sd = some t →
      (t.isOpen = false → exec p.1 s = .next (s.afterError 2)) ∧
      (t.isOpen = true → s.badRange p.2.1 → exec p.1 s = .next (s.afterError 3)) ∧
      (t.isOpen = true → ¬ s.badRange p.2.1 →
        ∃ t' v k, exec p.1 s = .next { s with
            slots := s.slots.set sd.toNat t'
            r0 := v
            r1 := BitVec.ofNat 64 k
            err := 0#32 } ∧
          ReadsField t t' v s.a1.toInt.toNat s.a2.toInt.toNat k)

/-- The array writes (R630 to R634): every check comes before the first element, then the `cnt` entries from `base + off` are
written in order. An entry that nothing has written since reset is a fault (R900, D30); that the fault comes after every check and
at the first such entry is DEDUCED from the order of the rules' pseudocode (notes/assumptions/6.md). -/
def Obligations.ArrayWriteResult : Prop :=
  ∀ (sd : SlotNo) (p : Instr × Nat × Word),
    p ∈ [(Instr.wra1 sd, 1, 0x00000024#32), (.wra8 sd, 8, 0x00100024#32), (.wra16 sd, 16, 0x00200024#32),
      (.wra32 sd, 32, 0x00300024#32), (.wra64 sd, 64, 0x00400024#32)] →
    encode p.1 = p.2.2 ||| (sd.setWidth 32 <<< 8) ∧
    ∀ (s : State) (t : Slot), s.slot? sd = some t → t.InBounds →
      let start := (s.a0.toInt + s.a2.toInt).toNat
      let cnt := s.a3.toInt.toNat
      (t.isOpen = false → exec p.1 s = .next (s.afterError 2)) ∧
      (t.isOpen = true → s.badBuffer → exec p.1 s = .next (s.afterError 3)) ∧
      (t.isOpen = true → ¬ s.badBuffer → s.bufferOutside → exec p.1 s = .next (s.afterError 5)) ∧
      (t.isOpen = true → ¬ s.badBuffer → ¬ s.bufferOutside → s.overCapacity sd (cnt * p.2.1) →
        exec p.1 s = .next (s.afterError 6)) ∧
      (t.isOpen = true → ¬ s.badBuffer → ¬ s.bufferOutside → ¬ s.overCapacity sd (cnt * p.2.1) →
        (∀ j, start ≤ j → j < start + cnt → Memory.read s.tmem j = none →
          (∀ m, start ≤ m → m < j → Memory.read s.tmem m ≠ none) → exec p.1 s = .fault (.tmemUnwritten j)) ∧
        ∀ es : List Value, es.length = cnt → (∀ k < cnt, Memory.read s.tmem (start + k) = some (es.getD k 0#64)) →
          ∃ t', exec p.1 s = .next { s with slots := s.slots.set sd.toNat t', err := 0#32 } ∧
            WritesElements t t' p.2.1 es)

/-- The array reads (R635 to R639). -/
def Obligations.ArrayReadResult : Prop :=
  ∀ (sd : SlotNo) (p : Instr × Nat × Word),
    p ∈ [(Instr.rda1 sd, 1, 0x00000025#32), (.rda8 sd, 8, 0x00100025#32), (.rda16 sd, 16, 0x00200025#32),
      (.rda32 sd, 32, 0x00300025#32), (.rda64 sd, 64, 0x00400025#32)] →
    encode p.1 = p.2.2 ||| (sd.setWidth 32 <<< 8) ∧
    ∀ (s : State) (t : Slot), s.slot? sd = some t → t.InBounds →
      (t.isOpen = false → exec p.1 s = .next (s.afterError 2)) ∧
      (t.isOpen = true → s.badBuffer → exec p.1 s = .next (s.afterError 3)) ∧
      (t.isOpen = true → ¬ s.badBuffer → s.bufferOutside → exec p.1 s = .next (s.afterError 5)) ∧
      (t.isOpen = true → ¬ s.badBuffer → ¬ s.bufferOutside →
        ∃ t' m' total, exec p.1 s = .next { s with
            slots := s.slots.set sd.toNat t'
            tmem := m'
            r1 := BitVec.ofNat 64 total
            err := 0#32 } ∧
          ReadsElements t t' s.tmem m' p.2.1 s.a3.toInt.toNat (s.a0.toInt + s.a2.toInt).toNat total)

/-- `RDBYTE` (R640): the sentinel only when no bit was read. -/
def Obligations.RdbyteRule : Prop :=
  ∀ sd : SlotNo, encode (.rdbyte sd) = 0x00000026#32 ||| (sd.setWidth 32 <<< 8) ∧
    ∀ (s : State) (t : Slot), s.slot? sd = some t →
      (t.isOpen = false → exec (.rdbyte sd) s = .next (s.afterError 2)) ∧
      (t.isOpen = true →
        ∃ t' v k, exec (.rdbyte sd) s = .next { s with
            slots := s.slots.set sd.toNat t'
            r0 := if k = 0 then 0xFFFFFFFFFFFFFFFF#64 else v
            r1 := BitVec.ofNat 64 k
            err := 0#32 } ∧
          ReadsField t t' v 0 8 k)

/-- Write, seek back, read (R903 item 3): at every width the value written comes back, zero-extended, whole. The cursor must be a
position that `SETPOS` can name. -/
def Obligations.WriteSeekReadReturnsValue : Prop :=
  ∀ (sd : SlotNo) (p : Instr × Instr × Nat),
    p ∈ [(Instr.wr1 sd, Instr.rd1 sd, 1), (.wr8 sd, .rd8 sd, 8), (.wr16 sd, .rd16 sd, 16), (.wr32 sd, .rd32 sd, 32),
      (.wr64 sd, .rd64 sd, 64)] →
    ∀ (s : State) (t : Slot), s.slot? sd = some t → t.InBounds → t.isOpen = true → t.pos < 2 ^ 63 →
      ¬ s.overCapacity sd p.2.2 →
      ∃ s₁ s₂ s₃, exec p.1 s = .next s₁ ∧
        exec (.setpos sd) { s₁ with a0 := BitVec.ofNat 64 t.pos } = .next s₂ ∧
        exec p.2.1 s₂ = .next s₃ ∧
        s₃.err = 0#32 ∧ s₃.r1 = BitVec.ofNat 64 p.2.2 ∧ s₃.r0 = (s.a0.setWidth p.2.2).setWidth 64

/-- The first clause of R205: a 32-bit value reads back as four bytes, low byte first. -/
def Obligations.WordReadsBackLowByteFirst : Prop :=
  ∀ (sd : SlotNo) (s : State) (t : Slot), s.slot? sd = some t → t.InBounds → t.isOpen = true → t.pos < 2 ^ 63 →
    ¬ s.overCapacity sd 32 →
    ∃ s₁ s₂ b₀ b₁ b₂ b₃, exec (.wr32 sd) s = .next s₁ ∧
      exec (.setpos sd) { s₁ with a0 := BitVec.ofNat 64 t.pos } = .next s₂ ∧
      exec (.rd8 sd) s₂ = .next b₀ ∧ exec (.rd8 sd) b₀ = .next b₁ ∧ exec (.rd8 sd) b₁ = .next b₂ ∧
      exec (.rd8 sd) b₂ = .next b₃ ∧
      b₀.r0 = (s.a0.extractLsb' 0 8).setWidth 64 ∧ b₁.r0 = (s.a0.extractLsb' 8 8).setWidth 64 ∧
      b₂.r0 = (s.a0.extractLsb' 16 8).setWidth 64 ∧ b₃.r0 = (s.a0.extractLsb' 24 8).setWidth 64

/-! ## Logical and shift -/

/-- `AND`, `OR`, `XOR` (R701 to R703): the command, its word for slots 0, 0, 0 and its operator. -/
def Obligations.LogicalPairResult : Prop :=
  ∀ (sd sa sb : SlotNo) (p : Instr × Word × (Bool → Bool → Bool)),
    p ∈ [(Instr.and sd sa sb, 0x00000030#32, fun x y : Bool => x && y), (.or sd sa sb, 0x00000031#32, fun x y => x || y),
      (.xor sd sa sb, 0x00000032#32, fun x y => x ^^ y)] →
    encode p.1 = p.2.1 ||| (sd.setWidth 32 <<< 8) ||| (sa.setWidth 32 <<< 12) ||| (sb.setWidth 32 <<< 16) ∧
    ∀ (s : State) (d a b : Slot), s.slot? sd = some d → s.slot? sa = some a → s.slot? sb = some b → a.InBounds →
      (a.isOpen = false ∨ b.isOpen = false → exec p.1 s = .next (s.afterError 2)) ∧
      (a.isOpen = true → b.isOpen = true → a.len ≠ b.len → exec p.1 s = .next (s.afterError 3)) ∧
      (a.isOpen = true → b.isOpen = true → a.len = b.len →
        ∃ t', exec p.1 s = .next { s with slots := s.slots.set sd.toNat t', err := 0#32 } ∧
          BuiltFrom a t' fun q => p.2.2 (a.bit q) (b.bit q))

/-- `NOT` (R704, C5). -/
def Obligations.NotRule : Prop :=
  ∀ sd sa : SlotNo, encode (.not sd sa) = 0x00000033#32 ||| (sd.setWidth 32 <<< 8) ||| (sa.setWidth 32 <<< 12) ∧
    ∀ (s : State) (d a : Slot), s.slot? sd = some d → s.slot? sa = some a → a.InBounds →
      (a.isOpen = false → exec (.not sd sa) s = .next (s.afterError 2)) ∧
      (a.isOpen = true →
        ∃ t', exec (.not sd sa) s = .next { s with slots := s.slots.set sd.toNat t', err := 0#32 } ∧
          BuiltFrom a t' fun q => !(a.bit q))

/-- `SHL` (R750) and `SHR` (R751): the amount is `sint64(A0)`. -/
def Obligations.ShiftResult : Prop :=
  ∀ (sd sa : SlotNo) (p : Instr × Word × (Slot → Nat → Nat → Bool)),
    p ∈ [(Instr.shl sd sa, 0x00000040#32, fun (a : Slot) (n q : Nat) => if q + n < a.len then a.bit (q + n) else false),
      (.shr sd sa, 0x00000041#32, fun a n q => if n ≤ q then a.bit (q - n) else false)] →
    encode p.1 = p.2.1 ||| (sd.setWidth 32 <<< 8) ||| (sa.setWidth 32 <<< 12) ∧
    ∀ (s : State) (d a : Slot), s.slot? sd = some d → s.slot? sa = some a → a.InBounds →
      (a.isOpen = false → exec p.1 s = .next (s.afterError 2)) ∧
      (a.isOpen = true → s.a0.toInt < 0 → exec p.1 s = .next (s.afterError 3)) ∧
      (a.isOpen = true → 0 ≤ s.a0.toInt →
        ∃ t', exec p.1 s = .next { s with slots := s.slots.set sd.toNat t', err := 0#32 } ∧
          BuiltFrom a t' (p.2.2 a s.a0.toInt.toNat))

/-- R753: what a shift vacates is 0, and a shift by the length or more leaves all zeros. -/
def Obligations.ShiftZeroFill : Prop :=
  ∀ (s : State) (sd sa : SlotNo) (d a : Slot), s.slot? sd = some d → s.slot? sa = some a → a.isOpen = true →
    0 ≤ s.a0.toInt →
    ∃ l r tl tr, exec (.shl sd sa) s = .next l ∧ exec (.shr sd sa) s = .next r ∧
      l.slot? sd = some tl ∧ r.slot? sd = some tr ∧ tl.len = a.len ∧ tr.len = a.len ∧
      (∀ p, a.len - s.a0.toInt.toNat ≤ p → p < a.len → tl.bit p = false) ∧
      (∀ p, p < min s.a0.toInt.toNat a.len → tr.bit p = false) ∧
      (a.len ≤ s.a0.toInt.toNat → ∀ p, tl.bit p = false ∧ tr.bit p = false)

/-- R705: on sources with zero padding, the logical commands are the word-by-word operation over the words of `SA`, with the words
that `SB` lacks read as 0; `NOT` is the complement of the words with the bits at and above the length cleared. -/
def Obligations.LogicalCommandsActWordByWord : Prop :=
  (∀ (sd sa sb : SlotNo) (p : Instr × (Word → Word → Word)),
    p ∈ [(Instr.and sd sa sb, fun x y : Word => x &&& y), (.or sd sa sb, fun x y => x ||| y),
      (.xor sd sa sb, fun x y => x ^^^ y)] →
    ∀ (s : State) (d a b : Slot), s.slot? sd = some d → s.slot? sa = some a → s.slot? sb = some b →
      a.isOpen = true → b.isOpen = true → a.len = b.len → a.Padded → b.Padded →
      exec p.1 s = .next { s with
        slots := s.slots.set sd.toNat
          { isOpen := true
            words := (List.range a.nw).map fun w => p.2 (a.words.getD w 0#32) (b.words.getD w 0#32)
            len := a.len
            pos := 0 }
        err := 0#32 }) ∧
  ∀ (sd sa : SlotNo) (s : State) (d a : Slot), s.slot? sd = some d → s.slot? sa = some a → a.isOpen = true → a.Padded →
    exec (.not sd sa) s = .next { s with
      slots := s.slots.set sd.toNat
        { isOpen := true
          words := (List.range a.nw).map fun w =>
            ~~~(a.words.getD w 0#32) &&& BitVec.ofNat 32 (2 ^ min 32 (a.len - 32 * w) - 1)
          len := a.len
          pos := 0 }
      err := 0#32 }

/-! ## Errors -/

/-- R801: a command that ends in a next state either succeeds, and then `ERR` is 0 and `STICKY` as it was, or raises one error,
and then nothing but `ERR` and `STICKY` has changed. -/
def Obligations.RaisingChangesOnlyErrAndSticky : Prop :=
  ∀ (i : Instr) (s s' : State), exec i s = .next s' →
    (s'.err = 0#32 ∧ s'.sticky = s.sticky) ∨ ∃ k, 1 ≤ k ∧ k ≤ 6 ∧ s' = s.afterError k

/-- R803: a command whose slots exist ends in `DISPOSED` exactly when one of the slots it must find open is closed. -/
def Obligations.DisposedExactlyOnClosedSlots : Prop :=
  ∀ (i : Instr) (s : State), i.wellFormed s.slots.length = true →
    ((∃ n ∈ (kindOf i).openChecked, ∃ t, s.slot? n = some t ∧ t.isOpen = false) → exec i s = .next (s.afterError 2)) ∧
    ∀ s', exec i s = .next s' → s'.err = 2#32 →
      ∃ n ∈ (kindOf i).openChecked, ∃ t, s.slot? n = some t ∧ t.isOpen = false

/-- R809, with each error's own condition (R802 to R807) stated by itself in `errorApplies`: the command raises the applicable
error with the smallest code, and a command to which no error applies succeeds, or faults on an unwritten TMEM entry (R900; that
such a fault comes after every check is DEDUCED, notes/assumptions/6.md). A word that decodes to no command raises
`ILLEGAL_COMMAND` before anything else. -/
def Obligations.SmallestApplicableErrorIsRaised : Prop :=
  (∀ (c : Word) (s : State), (∀ i, decode c ≠ .ok i) → runCommand c s = .next (s.afterError 1)) ∧
  ∀ (i : Instr) (s : State), (∀ t ∈ s.slots, 1 ≤ t.nw) →
    (∀ k, errorApplies i s k → (∀ j < k, ¬ errorApplies i s j) → exec i s = .next (s.afterError k)) ∧
    ((∀ k, ¬ errorApplies i s k) →
      (∃ s', exec i s = .next s' ∧ s'.err = 0#32) ∨ ∃ j, exec i s = .fault (.tmemUnwritten j))

/-- R811, second sentence: the next command runs the same whatever `ERR` holds. -/
def Obligations.CommandsIgnoreErr : Prop :=
  ∀ (i : Instr) (s : State) (e : Word), exec i { s with err := e } = exec i s

/-- R112, whole: an error with code `k` sets bit `k`; no step but a reset clears a bit; reset clears all; bit 0 and bits 31 to 7
stay 0; a host write to `STICKY` changes nothing. -/
def Obligations.StickyAccumulates : Prop :=
  (∀ (i : Instr) (s s' : State), exec i s = .next s' → s'.err ≠ 0#32 →
    s'.sticky = s.sticky ||| (1#32 <<< s'.err.toNat)) ∧
  ∀ (s s' : State), step s = .next s' →
    ((∃ rest, s.pending = .reset :: rest) → s'.sticky = 0#32) ∧
    ((¬ ∃ rest, s.pending = .reset :: rest) → s.sticky &&& s'.sticky = s.sticky) ∧
    (s.sticky &&& stickyZeroBits = 0#32 → s'.sticky &&& stickyZeroBits = 0#32) ∧
    ((∃ v rest, s.pending = .write (s.params.bseBase + 0x08) .w32 v :: rest) → s'.sticky = s.sticky)

/-! ## What commands may change -/

/-- R904: no command changes `A0` to `A3`, and a command that does not read an argument register does the same whatever it
holds. -/
def Obligations.ArgumentRegistersPersist : Prop :=
  ∀ (i : Instr) (s : State),
    (∀ s', exec i s = .next s' → s'.a0 = s.a0 ∧ s'.a1 = s.a1 ∧ s'.a2 = s.a2 ∧ s'.a3 = s.a3) ∧
    ∀ (n : Fin 4) (v : Value), (kindOf i).readsArg n = false →
      let put := fun u : State => match n with
        | 0 => { u with a0 := v }
        | 1 => { u with a1 := v }
        | 2 => { u with a2 := v }
        | 3 => { u with a3 := v }
      match exec i s with
      | .next s' => exec i (put s) = .next (put s')
      | .fault f => exec i (put s) = .fault f
      | .refused r => exec i (put s) = .refused r

/-- The write columns of R118's table: what each command leaves unchanged, on success and on error. -/
def Obligations.CommandsWriteOnlyTheirState : Prop :=
  ∀ (i : Instr) (s s' : State), exec i s = .next s' →
    s'.a0 = s.a0 ∧ s'.a1 = s.a1 ∧ s'.a2 = s.a2 ∧ s'.a3 = s.a3 ∧
    s'.params = s.params ∧ s'.pending = s.pending ∧ s'.readData = s.readData ∧ s'.slots.length = s.slots.length ∧
    (¬ writesR0 i → s'.r0 = s.r0) ∧
    ((∀ sd, ¬ readsStream i sd) → s'.r1 = s.r1) ∧
    (¬ writesTmem i → s'.tmem = s.tmem) ∧
    ∀ n : SlotNo, n ≠ destOf i → s'.slot? n = s.slot? n

/-- R100, last sentence: a command that does not name slot `n` neither reads nor writes it. Whatever stream stands in slot `n`,
the command does the same everywhere else and leaves that stream as it is. -/
def Obligations.SlotsAreIsolated : Prop :=
  ∀ (i : Instr) (s : State) (n : SlotNo) (t : Slot), n ∉ i.slotFields →
    match exec i s with
    | .next s' => exec i (s.setSlot n t) = .next (s'.setSlot n t)
    | .fault f => exec i (s.setSlot n t) = .fault f
    | .refused r => exec i (s.setSlot n t) = .refused r

/-- R101, its second sentence: `open` becomes 1 only by `INIT`, `INITC` or by being a logical or shift destination, and 0 only by
`CLOSE`; and those commands, when they succeed, do it. -/
def Obligations.OpenBitChangesOnlyByRule : Prop :=
  ∀ (i : Instr) (s s' : State) (n : SlotNo) (t t' : Slot),
    exec i s = .next s' → s.slot? n = some t → s'.slot? n = some t' →
    (t.isOpen = false → t'.isOpen = true → opensSlot i n) ∧
    (t.isOpen = true → t'.isOpen = false → i = .close n) ∧
    (opensSlot i n → s'.err = 0#32 → t'.isOpen = true) ∧
    (i = .close n → s'.err = 0#32 → t'.isOpen = false)

/-- R102, last sentence: within one stream the word count changes only by doubling. -/
def Obligations.CapacityOnlyDoubles : Prop :=
  ∀ (i : Instr) (s s' : State) (n : SlotNo) (t t' : Slot),
    exec i s = .next s' → s.slot? n = some t → s'.slot? n = some t' → t.InBounds → ¬ opensSlot i n →
    ∃ k, t'.nw = t.nw * 2 ^ k

/-- R107: writing at the end lengthens the stream by the bits written; writing before the end lengthens it only by what passes the
end; reading changes neither length nor bits and stops at the length. -/
def Obligations.StreamLengthLaws : Prop :=
  ∀ (i : Instr) (s s' : State) (sd : SlotNo) (t t' : Slot),
    exec i s = .next s' → s.slot? sd = some t → s'.slot? sd = some t' → t.InBounds →
    ((∃ W, kindOf i = .write W sd ∨ kindOf i = .writeRange W sd ∨ kindOf i = .writeArray W sd) →
      t.pos ≤ t'.pos ∧
      (t.pos = t.len → t'.len = t.len + (t'.pos - t.pos)) ∧
      (t.pos < t.len → t'.len = if t.len < t'.pos then t'.pos else t.len)) ∧
    (readsStream i sd → t'.len = t.len ∧ t'.words = t.words ∧ t.pos ≤ t'.pos ∧ t'.pos ≤ t'.len)

/-- R210, second sentence: a query changes no slot, and doing it again changes nothing. -/
def Obligations.QueriesAreIdempotent : Prop :=
  ∀ (sd : SlotNo) (i : Instr),
    i ∈ [Instr.status sd, .getpos sd, .getlen sd, .getlen8 sd, .getlen16 sd, .getlen32 sd, .getlen64 sd, .getcap sd] →
    ∀ s s' : State, exec i s = .next s' → s'.slots = s.slots ∧ exec i s' = .next s'

/-! ## Reset and the invariant -/

/-- R116, by the reset input and at the model's own start: every slot the open empty stream of one zero word, every register 0, and
no TMEM entry with a value (R900, D30). -/
def Obligations.ResetRule : Prop :=
  ∀ s r : State, (r = State.reset ∨ ∃ rest, s.pending = .reset :: rest ∧ step s = .next r) →
    (∀ t ∈ r.slots, t = { isOpen := true, words := [0#32], len := 0, pos := 0 }) ∧
    r.a0 = 0#64 ∧ r.a1 = 0#64 ∧ r.a2 = 0#64 ∧ r.a3 = 0#64 ∧ r.r0 = 0#64 ∧ r.r1 = 0#64 ∧
    r.err = 0#32 ∧ r.sticky = 0#32 ∧ ∀ i, Memory.read r.tmem i = none

/-- The reset input ends in a next state, and keeps what is not the BSE's own state: the parameters, the slot count, the events
still to come and the host's last answer (notes/assumptions/9.md: the model's choice). -/
def Obligations.ResetInputCompletes : Prop :=
  ∀ (s : State) (rest : List HostEvent), s.pending = .reset :: rest →
    ∃ r, step s = .next r ∧ r.params = s.params ∧ r.slots.length = s.slots.length ∧ r.pending = rest ∧
      r.readData = s.readData

/-- The invariant holds right after reset, for the model's parameters and for every legal choice of them. -/
def Obligations.ResetHasInv : Prop :=
  State.reset.Inv ∧ ∀ (p : Params) (n : Nat), p.Legal → LegalSlotCount n → (State.resetWith p n).Inv

/-- Every step keeps the invariant: legal parameters (R10), every slot as R102 to R106 say, `ERR`, `STICKY` and `R1` at legal
values (R111, R112, R115), TMEM in canonical form and below TMEM_ENTRIES (R200). -/
def Obligations.StepKeepsInv : Prop :=
  ∀ s s' : State, s.Inv → step s = .next s' → s'.Inv

/-- No step changes the parameters or the number of slots (R10, R211; the model holds them in `State`, notes/assumptions/1.md). -/
def Obligations.StepKeepsParameters : Prop :=
  ∀ s s' : State, step s = .next s' → s'.params = s.params ∧ s'.slots.length = s.slots.length

/-! ## The host port -/

/-- The read column of R115's map: what a full-width host read of each register answers, with no other effect. The reserved range
reads 0 (that any width reaches it is the model's choice, notes/assumptions/7.md). That the answer is kept in `readData`, that of
`ERR` and `STICKY` zero-extended to 64 bits, is the model's choice too (notes/assumptions/4.md). -/
def Obligations.HostReadsRegisterMap : Prop :=
  ∀ (s : State) (rest : List HostEvent),
    (∀ (off : Nat) (w : BusWidth) (v : Value),
      (off, w, v) ∈ [(0x00, BusWidth.w32, 0#64), (0x04, .w32, s.err.setWidth 64), (0x08, .w32, s.sticky.setWidth 64),
        (0x0C, .w32, 0#64), (0x10, .w64, s.a0), (0x18, .w64, s.a1), (0x20, .w64, s.a2), (0x28, .w64, s.a3),
        (0x30, .w64, s.r0), (0x38, .w64, s.r1)] →
      s.pending = .read (s.params.bseBase + off) w :: rest →
      step s = .next { s with pending := rest, readData := some v }) ∧
    ∀ (off : Nat) (w : BusWidth), 0x40 ≤ off → off + w.bytes ≤ 0x1000 →
      s.pending = .read (s.params.bseBase + off) w :: rest →
      step s = .next { s with pending := rest, readData := some 0#64 }

/-- The write column of R115's map: the argument registers take the value; `ERR`, `STICKY`, `R0`, `R1` and the reserved offsets
ignore it (the widths of the range 0x40 to 0xFFF are the model's choice, notes/assumptions/7.md). -/
def Obligations.HostWritesRegisterMap : Prop :=
  ∀ (s : State) (rest : List HostEvent) (v : Value),
    (∀ (off : Nat) (w : BusWidth) (r : State),
      (off, w, r) ∈ [(0x04, BusWidth.w32, s), (0x08, .w32, s), (0x0C, .w32, s), (0x10, .w64, { s with a0 := v }),
        (0x18, .w64, { s with a1 := v }), (0x20, .w64, { s with a2 := v }), (0x28, .w64, { s with a3 := v }),
        (0x30, .w64, s), (0x38, .w64, s)] →
      s.pending = .write (s.params.bseBase + off) w v :: rest → step s = .next { r with pending := rest }) ∧
    ∀ (off : Nat) (w : BusWidth), 0x40 ≤ off → off + w.bytes ≤ 0x1000 →
      s.pending = .write (s.params.bseBase + off) w v :: rest → step s = .next { s with pending := rest }

/-- R203: a host write of a TMEM entry replaces it and nothing else; a host read returns it and changes nothing. A read of an entry
that nothing has written since reset is a fault (R900, D30). That the answer is kept in `readData` is the model's choice
(notes/assumptions/4.md). -/
def Obligations.HostReachesTmem : Prop :=
  ∀ (s : State) (rest : List HostEvent) (i : Nat), i < s.params.tmemEntries →
    (∀ v, s.pending = .write (s.params.bseBase + 0x1000 + 8 * i) .w64 v :: rest →
      ∃ m, step s = .next { s with pending := rest, tmem := m } ∧ Memory.read m i = some v ∧
        ∀ j, j ≠ i → Memory.read m j = Memory.read s.tmem j) ∧
    (s.pending = .read (s.params.bseBase + 0x1000 + 8 * i) .w64 :: rest →
      (∀ v, Memory.read s.tmem i = some v → step s = .next { s with pending := rest, readData := some v }) ∧
      (Memory.read s.tmem i = none → step s = .fault (.tmemUnwritten i)))

/-- Every host access that is not at the offset and the width of a row of R115's map is refused, a read and a write alike (R206).
Two parts are the model's: the edge of the reserved range, whose widths are a DESIGN CHOICE (notes/assumptions/7.md), and the
addresses below BSE_BASE or past the window, of which the spec says nothing (DEDUCED; notes/assumptions/8.md). -/
def Obligations.OtherHostAccessRefused : Prop :=
  ∀ (s : State) (rest : List HostEvent) (addr : Nat) (w : BusWidth) (v : Value),
    (¬ ∃ off, addr = s.params.bseBase + off ∧
      ((off, w) ∈ [(0x00, BusWidth.w32), (0x04, .w32), (0x08, .w32), (0x0C, .w32), (0x10, .w64), (0x18, .w64), (0x20, .w64),
          (0x28, .w64), (0x30, .w64), (0x38, .w64)] ∨
        (0x40 ≤ off ∧ off + w.bytes ≤ 0x1000) ∨
        ∃ i, i < s.params.tmemEntries ∧ off = 0x1000 + 8 * i ∧ w = .w64)) →
    (s.pending = .read addr w :: rest → step s = .refused (.hostAccess addr w)) ∧
    (s.pending = .write addr w v :: rest → step s = .refused (.hostAccess addr w))

/-- With no outside event the state holds (R818, R906): that this is a step at all is the model's choice
(notes/assumptions/3.md). -/
def Obligations.IdleStepHolds : Prop :=
  ∀ s : State, s.pending = [] → step s = .next s

/-- The four host statements of R311 and a written command (R113, R300). That each is a host event is the model's choice
(notes/assumptions/17.md); so is that an answer is kept in `readData`, that of `ERR` and `STICKY` zero-extended to 64 bits
(notes/assumptions/4.md). -/
def Obligations.HostStatementsAct : Prop :=
  ∀ (s : State) (v : Value),
    accept (HostStmt.event s.params (.set 0 v)) s = .next { s with a0 := v } ∧
    accept (HostStmt.event s.params (.set 1 v)) s = .next { s with a1 := v } ∧
    accept (HostStmt.event s.params (.set 2 v)) s = .next { s with a2 := v } ∧
    accept (HostStmt.event s.params (.set 3 v)) s = .next { s with a3 := v } ∧
    (∀ r u, (r, u) ∈ [(HostReg.a0, s.a0), (.a1, s.a1), (.a2, s.a2), (.a3, s.a3), (.r0, s.r0), (.r1, s.r1),
        (.err, s.err.setWidth 64), (.sticky, s.sticky.setWidth 64)] →
      accept (HostStmt.event s.params (.get r)) s = .next { s with readData := some u }) ∧
    (∀ i, i < s.params.tmemEntries →
      accept (HostStmt.event s.params (.tset i v)) s = .next { s with tmem := s.tmem.write i v } ∧
      (s.tmem.read i = some v → accept (HostStmt.event s.params (.tget i)) s = .next { s with readData := some v })) ∧
    ∀ i : Instr, accept (HostStmt.event s.params (.cmd i)) s = exec i s

/-- The typed aliases of R320: the operation code of the form and the width code of the type, for every form and type. -/
def Obligations.TypedAliasesEncode : Prop :=
  ∀ (f : TypedForm) (opc : Word) (ty : ElemType) (wid : Word) (sd : SlotNo),
    (f, opc) ∈ [(TypedForm.wr, 0x20#32), (.wrr, 0x21#32), (.rd, 0x22#32), (.rdr, 0x23#32), (.wra, 0x24#32), (.rda, 0x25#32)] →
    (ty, wid) ∈ [(ElemType.bool, 0#32), (.byte, 1#32), (.sbyte, 1#32), (.char, 2#32), (.short, 2#32), (.ushort, 2#32),
      (.int, 3#32), (.uint, 3#32), (.float, 3#32), (.long, 4#32), (.ulong, 4#32), (.double, 4#32)] →
    encode (typedAlias f ty sd) = opc ||| (wid <<< 20) ||| (sd.setWidth 32 <<< 8)
end

