-- ==== Sys2Proof/Laws/Bits.lean ====
section
/-!
SUPPORT. Lemmas about bits: the mask table, a word built from bits, the bits of a stream, and growth counts.
-/

namespace Sys2Proof.Machine

/-! ## The mask table -/

/-- The table's entries are `2^c - 1` (R500). -/
theorem mask_eq_two_pow_sub_one : ∀ c : Fin 33, mask c.val = BitVec.ofNat 32 (2 ^ c.val - 1) := by
  decide

/-- Bit `i` of `MASK[c]` is 1 exactly below `c`. -/
theorem mask_getLsbD {c : Nat} (hc : c ≤ 32) (i : Nat) : (mask c).getLsbD i = decide (i < c) := by
  have h := mask_eq_two_pow_sub_one ⟨c, by omega⟩
  simp only at h
  rw [h, BitVec.getLsbD_ofNat, Nat.testBit_two_pow_sub_one]
  by_cases hi : i < c
  · simp [hi]; omega
  · simp [hi]

/-! ## A word built from bits -/

theorem wordOfBits_getLsbD (g : Nat → Bool) (k i : Nat) (hk : k ≤ 32) :
    (wordOfBits g k).getLsbD i = (decide (i < k) && g i) := by
  induction k with
  | zero => simp [wordOfBits]
  | succ k ih =>
    have ih := ih (by omega)
    rw [wordOfBits, BitVec.getLsbD_or, ih]
    by_cases hik : i = k
    · subst hik
      cases g i <;> simp [BitVec.getLsbD_shiftLeft]; omega
    · have hlt : (decide (i < k + 1)) = decide (i < k) := by
        simp; omega
      rw [hlt]
      cases hgk : g k
      · simp
      · have : ((1#32 <<< k).getLsbD i) = false := by
          rw [BitVec.getLsbD_shiftLeft]
          by_cases h1 : i < k
          · simp [h1]
          · have : i - k ≠ 0 := by omega
            simp [this]
        simp [this]

/-! ## Growth counts -/

theorem IsGrown.unique {nw e n₁ n₂ : Nat} (h₁ : IsGrown nw e n₁) (h₂ : IsGrown nw e n₂) : n₁ = n₂ := by
  obtain ⟨i, rfl, he₁, hm₁⟩ := h₁
  obtain ⟨j, rfl, he₂, hm₂⟩ := h₂
  have : i = j := Nat.le_antisymm (hm₁ j he₂) (hm₂ i he₁)
  rw [this]

theorem IsGrown.self {nw e : Nat} (h : e ≤ 32 * nw) : IsGrown nw e nw :=
  ⟨0, by simp, h, fun j _ => Nat.zero_le j⟩

/-- Growing in two writes is growing for the second end. -/
theorem IsGrown.trans {nw e₁ e₂ n₁ n₂ : Nat} (h₁ : IsGrown nw e₁ n₁) (h₂ : IsGrown n₁ e₂ n₂) (he : e₁ ≤ e₂) :
    IsGrown nw e₂ n₂ := by
  obtain ⟨i, rfl, hc₁, hm₁⟩ := h₁
  obtain ⟨j, rfl, hc₂, hm₂⟩ := h₂
  refine ⟨i + j, by rw [Nat.pow_add, Nat.mul_assoc], hc₂, fun k hk => ?_⟩
  have hik : i ≤ k := hm₁ k (le_trans he hk)
  have : j ≤ k - i := by
    apply hm₂
    rw [Nat.mul_assoc, ← Nat.pow_add, Nat.add_sub_cancel' hik]
    exact hk
  omega

theorem IsGrown.pos {nw e n : Nat} (h : IsGrown nw e n) (hn : 1 ≤ nw) : 1 ≤ n := by
  obtain ⟨i, rfl, -, -⟩ := h
  exact Nat.mul_pos hn (Nat.two_pow_pos i)

theorem IsGrown.le {nw e n : Nat} (h : IsGrown nw e n) : nw ≤ n := by
  obtain ⟨i, rfl, -, -⟩ := h
  exact Nat.le_mul_of_pos_right nw (Nat.two_pow_pos i)

theorem IsGrown.holds {nw e n : Nat} (h : IsGrown nw e n) : e ≤ 32 * n := by
  obtain ⟨i, -, he, -⟩ := h
  exact he

/-- One doubling is the growth for an end that just does not fit and fits after it. -/
theorem IsGrown.double {nw e : Nat} (h₁ : 32 * nw < e) (h₂ : e ≤ 32 * (2 * nw)) : IsGrown nw e (2 * nw) := by
  refine ⟨1, by omega, h₂, fun j hj => ?_⟩
  by_contra hlt
  have : j = 0 := by omega
  subst this
  simp at hj
  omega

/-- `Reserve`'s loop finds the growth, when the bound on its passes suffices. -/
theorem doublings_isGrown (fuel n e : Nat) (h : e ≤ 32 * (n * 2 ^ fuel)) : IsGrown n e (doublings fuel n e) := by
  induction fuel generalizing n with
  | zero => exact IsGrown.self (by simpa using h)
  | succ k ih =>
    rw [doublings]
    split
    · rename_i hlt
      obtain ⟨i, hi, he, hm⟩ := ih (2 * n) (by rw [Nat.pow_succ] at h; convert h using 2; ring)
      refine ⟨i + 1, by rw [hi, Nat.pow_succ]; ring, he, fun j hj => ?_⟩
      cases j with
      | zero => simp at hj; omega
      | succ j =>
        have := hm j (by convert hj using 2; rw [Nat.pow_succ]; ring)
        omega
    · exact IsGrown.self (by omega)

/-- R503: `Reserve` finds the word count that R504 gives the slot after the write. -/
theorem Slot.reserve_isGrown (t : Slot) (T : Nat) (h : 1 ≤ t.nw) : IsGrown t.nw (t.pos + T) (t.reserve T) := by
  apply doublings_isGrown
  have h2 : t.pos + T < 2 ^ (t.pos + T) := Nat.lt_two_pow_self
  have : 2 ^ (t.pos + T) ≤ t.nw * 2 ^ (t.pos + T) := Nat.le_mul_of_pos_left _ h
  omega

end Sys2Proof.Machine
end

