-- ==== Sys2Proof/Laws/Engine.lean ====
section
/-!
SUPPORT. What the word engine does, stated on stream bits: R504 for a write, R507 for a read, the 64-bit split of R511 and R512,
and the multiplexer's paths of R606 and R607.
-/

namespace Sys2Proof.Machine

/-! ## Growth and one pass of the splitter -/

@[simp] theorem Slot.grow_nw (t : Slot) : t.grow.nw = 2 * t.nw := by
  simp [Slot.grow, Slot.nw]; omega

@[simp] theorem Slot.grow_isOpen (t : Slot) : t.grow.isOpen = t.isOpen := rfl

@[simp] theorem Slot.grow_len (t : Slot) : t.grow.len = t.len := rfl

@[simp] theorem Slot.grow_pos (t : Slot) : t.grow.pos = t.pos := rfl

/-- Growth keeps every stream bit, and the new bits are 0 (R502). -/
@[simp] theorem Slot.grow_bit (t : Slot) (p : Nat) : t.grow.bit p = t.bit p := by
  simp only [Slot.bit, Slot.grow, List.getD_eq_getElem?_getD, List.getElem?_append]
  split
  · rfl
  · rename_i h
    rw [List.getElem?_eq_none (Nat.le_of_not_lt h), List.getElem?_replicate]
    split <;> simp

/-- The slot that a pass of the splitter writes its field into: grown when the cursor's word does not exist. -/
def Slot.roomAtCursor (t : Slot) : Slot := if t.pos / 32 = t.nw then t.grow else t

@[simp] theorem Slot.roomAtCursor_bit (t : Slot) (p : Nat) : t.roomAtCursor.bit p = t.bit p := by
  unfold Slot.roomAtCursor; split <;> simp

@[simp] theorem Slot.roomAtCursor_pos (t : Slot) : t.roomAtCursor.pos = t.pos := by
  unfold Slot.roomAtCursor; split <;> simp

@[simp] theorem Slot.roomAtCursor_len (t : Slot) : t.roomAtCursor.len = t.len := by
  unfold Slot.roomAtCursor; split <;> simp

@[simp] theorem Slot.roomAtCursor_isOpen (t : Slot) : t.roomAtCursor.isOpen = t.isOpen := by
  unfold Slot.roomAtCursor; split <;> simp

theorem Slot.cursor_lt_room {t : Slot} (h : t.InBounds) : t.pos / 32 < t.roomAtCursor.nw := by
  obtain ⟨h1, h2, h3⟩ := h
  unfold Slot.roomAtCursor
  split
  · rw [Slot.grow_nw]; omega
  · omega

theorem Slot.placeInWord_pos (t : Slot) (v : Word) (b n : Nat) : (t.placeInWord v b n).pos = t.pos + n := by
  have := t.roomAtCursor_pos
  unfold Slot.roomAtCursor at this
  simp only [Slot.placeInWord, this]

theorem Slot.placeInWord_len (t : Slot) (v : Word) (b n : Nat) :
    (t.placeInWord v b n).len = max t.len (t.pos + n) := by
  have h1 := t.roomAtCursor_pos
  have h2 := t.roomAtCursor_len
  unfold Slot.roomAtCursor at h1 h2
  simp only [Slot.placeInWord, h1, h2]

theorem Slot.placeInWord_isOpen (t : Slot) (v : Word) (b n : Nat) :
    (t.placeInWord v b n).isOpen = t.isOpen := by
  have := t.roomAtCursor_isOpen
  unfold Slot.roomAtCursor at this
  simp only [Slot.placeInWord, this]

theorem Slot.placeInWord_nw (t : Slot) (v : Word) (b n : Nat) :
    (t.placeInWord v b n).nw = t.roomAtCursor.nw := by
  simp [Slot.placeInWord, Slot.nw, Slot.roomAtCursor]

/-- The bits after one pass of the splitter: the field at the cursor, every other bit as it was (R505). -/
theorem Slot.placeInWord_bit {t : Slot} (h : t.InBounds) (v : Word) (b n p : Nat) (hn : t.pos % 32 + n ≤ 32) :
    (t.placeInWord v b n).bit p =
      if t.pos ≤ p ∧ p < t.pos + n then v.getLsbD (b + (p - t.pos)) else t.bit p := by
  have hw : t.pos / 32 < t.roomAtCursor.words.length := Slot.cursor_lt_room h
  rw [← t.roomAtCursor_bit p]
  have hword : (t.placeInWord v b n).words = t.roomAtCursor.words.modify (t.pos / 32)
      (fun x => (x &&& ~~~(mask n <<< (t.pos % 32))) ||| (((v >>> b) &&& mask n) <<< (t.pos % 32))) := rfl
  rw [Slot.bit, Slot.bit, hword]
  simp only [List.getD_eq_getElem?_getD, List.getElem?_modify]
  by_cases hp : t.pos / 32 = p / 32
  · have hp' : p / 32 < t.roomAtCursor.words.length := hp ▸ hw
    have hq : p % 32 < 32 := Nat.mod_lt _ (by omega)
    simp only [hp, if_true, List.getElem?_eq_getElem hp', Option.map_eq_map, Option.map_some, Option.getD_some, BitVec.getLsbD_or, BitVec.getLsbD_and,
      BitVec.getLsbD_not, BitVec.getLsbD_shiftLeft, BitVec.getLsbD_ushiftRight, mask_getLsbD (show n ≤ 32 by omega), hq,
      decide_true, Bool.true_and]
    by_cases hin : t.pos ≤ p ∧ p < t.pos + n
    · have h1 : ¬ p % 32 < t.pos % 32 := by omega
      have h2 : p % 32 - t.pos % 32 < n := by omega
      have h3 : b + (p % 32 - t.pos % 32) = b + (p - t.pos) := by omega
      rw [if_pos hin, h3]
      simp [h1, h2]
    · rw [if_neg hin]
      by_cases h1 : p % 32 < t.pos % 32
      · simp [h1]
      · have h2 : ¬ p % 32 - t.pos % 32 < n := by omega
        simp [h2]
  · rw [if_neg (by omega)]
    simp only [hp, if_false, Option.map_eq_map, Option.map_id']

/-- A pass of the splitter keeps the slot within its bounds. -/
theorem Slot.placeInWord_inBounds {t : Slot} (h : t.InBounds) (v : Word) (b n : Nat) (hn : t.pos % 32 + n ≤ 32) :
    (t.placeInWord v b n).InBounds := by
  have hw := Slot.cursor_lt_room h
  obtain ⟨h1, h2, h3⟩ := h
  have hle : t.nw ≤ t.roomAtCursor.nw := by
    unfold Slot.roomAtCursor; split
    · rw [Slot.grow_nw]; omega
    · exact le_rfl
  refine ⟨?_, ?_, ?_⟩
  · rw [Slot.placeInWord_nw]; omega
  · rw [Slot.placeInWord_pos, Slot.placeInWord_len]; exact le_max_right _ _
  · rw [Slot.placeInWord_nw, Slot.placeInWord_len]
    apply max_le <;> omega

theorem Slot.placeInWord_grown {t : Slot} (h : t.InBounds) (v : Word) (b n : Nat) (hn : t.pos % 32 + n ≤ 32)
    (h0 : 0 < n) : IsGrown t.nw (t.pos + n) (t.placeInWord v b n).nw := by
  obtain ⟨h1, h2, h3⟩ := h
  rw [Slot.placeInWord_nw]
  unfold Slot.roomAtCursor
  split
  · rw [Slot.grow_nw]
    exact IsGrown.double (by omega) (by omega)
  · exact IsGrown.self (by omega)

/-! ## Composing writes -/

/-- A write at the cursor keeps the slot within its bounds. -/
theorem WritesField.inBounds {t t' : Slot} {v : Value} {b c : Nat} (h : t.InBounds) (hw : WritesField t t' v b c) :
    t'.InBounds := by
  obtain ⟨h1, h2, h3⟩ := h
  refine ⟨hw.grown.pos h1, ?_, ?_⟩
  · rw [hw.pos, hw.len]; exact le_max_right _ _
  · have := hw.grown.holds
    have := hw.grown.le
    rw [hw.len]
    apply max_le <;> omega

/-- A write of no bits changes nothing (R510). -/
theorem WritesField.zero {t : Slot} (h : t.InBounds) (v : Value) (b : Nat) : WritesField t t v b 0 where
  isOpen := rfl
  pos := rfl
  len := by have := h.2.1; simp; omega
  grown := IsGrown.self (by have := h.2.1; have := h.2.2; omega)
  field := by intro k hk; omega
  other := by intro p _; rfl

/-- Two writes in a row are one write of the two fields, when the second value continues the first. -/
theorem WritesField.append {t t' t'' : Slot} {v v' u : Value} {b b' d c c' : Nat}
    (h₁ : WritesField t t' v b c) (h₂ : WritesField t' t'' v' b' c')
    (hv : ∀ k < c, v.getLsbD (b + k) = u.getLsbD (d + k))
    (hv' : ∀ k < c', v'.getLsbD (b' + k) = u.getLsbD (d + c + k)) :
    WritesField t t'' u d (c + c') where
  isOpen := h₂.isOpen.trans h₁.isOpen
  pos := by rw [h₂.pos, h₁.pos]; omega
  len := by rw [h₂.len, h₁.len, h₁.pos]; omega
  grown := by
    have hg := h₂.grown
    rw [h₁.pos] at hg
    have := h₁.grown.trans hg (by omega)
    rwa [Nat.add_assoc] at this
  field := by
    intro k hk
    by_cases hkc : k < c
    · rw [h₂.other _ (by left; rw [h₁.pos]; omega), h₁.field k hkc, hv k hkc]
    · have h := h₂.field (k - c) (by omega)
      rw [h₁.pos] at h
      have e : t.pos + c + (k - c) = t.pos + k := by omega
      have e' : d + c + (k - c) = d + k := by omega
      rw [e] at h
      rw [h, hv' (k - c) (by omega), e']
  other := by
    intro p hp
    rw [h₂.other p (by rw [h₁.pos]; omega), h₁.other p (by omega)]

/-- One pass of the splitter on stream bits. -/
theorem Slot.placeInWord_writes {t : Slot} (h : t.InBounds) (v : Word) (b n : Nat) (hn : t.pos % 32 + n ≤ 32)
    (h0 : 0 < n) (hb : b + n ≤ 32) : WritesField t (t.placeInWord v b n) (v.setWidth 64) b n where
  isOpen := t.placeInWord_isOpen v b n
  pos := t.placeInWord_pos v b n
  len := t.placeInWord_len v b n
  grown := Slot.placeInWord_grown h v b n hn h0
  field := by
    intro k hk
    rw [Slot.placeInWord_bit h v b n _ hn, if_pos (by omega), Nat.add_sub_cancel_left, BitVec.getLsbD_setWidth]
    simp; omega
  other := by
    intro p hp
    rw [Slot.placeInWord_bit h v b n _ hn, if_neg (by omega)]

/-! ## EngineWrite -/

theorem Slot.engineWriteFuel_writes (fuel : Nat) {t : Slot} (h : t.InBounds) (v : Word) (b c : Nat) (hf : c ≤ fuel)
    (hb : b + c ≤ 32) : WritesField t (Slot.engineWriteFuel fuel t v b c) (v.setWidth 64) b c := by
  induction fuel generalizing t b c with
  | zero =>
    have : c = 0 := by omega
    subst this
    exact WritesField.zero h _ _
  | succ fuel ih =>
    rw [Slot.engineWriteFuel]
    split
    · rename_i hc
      subst hc
      exact WritesField.zero h _ _
    · have hn : t.pos % 32 + min c (32 - t.pos % 32) ≤ 32 := by omega
      have h0 : 0 < min c (32 - t.pos % 32) := by omega
      have hp := Slot.placeInWord_writes h v b _ hn h0 (by omega)
      dsimp only
      split
      · rename_i hlt
        have hrec := ih (hp.inBounds h) (b + min c (32 - t.pos % 32)) (c - min c (32 - t.pos % 32)) (by omega) (by omega)
        have := hp.append (u := v.setWidth 64) (d := b) hrec (fun k _ => rfl) (fun k _ => rfl)
        rwa [Nat.add_sub_cancel' (by omega)] at this
      · have he : min c (32 - t.pos % 32) = c := by omega
        rw [he] at hp
        rw [he]
        exact hp

/-- R504: what `EngineWrite` does, on stream bits. -/
theorem Slot.engineWrite_writes {t : Slot} (h : t.InBounds) (v : Word) (b c : Nat) (hb : b + c ≤ 32) :
    WritesField t (t.engineWrite v b c) (v.setWidth 64) b c :=
  Slot.engineWriteFuel_writes c h v b c le_rfl hb

/-- A bit of one half of a 64-bit value. -/
theorem half_getLsbD (v : Value) (start i : Nat) (hi : i < 32) :
    ((v.extractLsb' start 32).setWidth 64).getLsbD i = v.getLsbD (start + i) := by
  have : i < 64 := by omega
  simp only [BitVec.getLsbD_setWidth, BitVec.getLsbD_extractLsb', hi, this, decide_true, Bool.true_and]

/-- R511: what `EngineWrite64` does, on stream bits. -/
theorem Slot.engineWrite64_writes {t : Slot} (h : t.InBounds) (v : Value) (b c : Nat) (hb : b + c ≤ 64) :
    WritesField t (t.engineWrite64 v b c) v b c := by
  unfold Slot.engineWrite64
  split
  · rename_i hlt
    have h₁ := Slot.engineWrite_writes h (v.extractLsb' 0 32) b (min c (32 - b)) (by omega)
    have h₂ := Slot.engineWrite_writes (h₁.inBounds h) (v.extractLsb' 32 32) 0 (c - min c (32 - b)) (by omega)
    have := h₁.append (u := v) (d := b) h₂
      (by
        intro k hk
        rw [half_getLsbD v 0 (b + k) (by omega), Nat.zero_add])
      (by
        intro k hk
        have : b + min c (32 - b) = 32 := by omega
        rw [this, half_getLsbD v 32 (0 + k) (by omega), Nat.zero_add])
    rwa [Nat.add_sub_cancel' (by omega)] at this
  · rename_i hge
    have h₁ := Slot.engineWrite_writes h (v.extractLsb' 32 32) (b - 32) c (by omega)
    refine ⟨h₁.isOpen, h₁.pos, h₁.len, h₁.grown, ?_, h₁.other⟩
    intro k hk
    have e : 32 + (b - 32 + k) = b + k := by omega
    rw [h₁.field k hk, half_getLsbD v 32 _ (by omega), e]

/-- R606: what `WriteValue` does, for a supported width and a legal field. -/
theorem Slot.writeValue_writes {t : Slot} (h : t.InBounds) (v : Value) {W : Nat} (hW : W ∈ [1, 8, 16, 32, 64]) (b c : Nat)
    (hb : b + c ≤ W) : WritesField t (t.writeValue v W b c) v b c := by
  unfold Slot.writeValue
  split
  · rename_i h64
    exact Slot.engineWrite64_writes h v b c (by omega)
  · rename_i h64
    have hW32 : W ≤ 32 := by
      simp only [List.mem_cons, List.not_mem_nil, or_false] at hW; omega
    have h₁ := Slot.engineWrite_writes h ((v.setWidth W).setWidth 32) b c (by omega)
    refine ⟨h₁.isOpen, h₁.pos, h₁.len, h₁.grown, ?_, h₁.other⟩
    intro k hk
    have h1 : b + k < W := by omega
    have h2 : b + k < 32 := by omega
    have h3 : b + k < 64 := by omega
    rw [h₁.field k hk]
    simp only [BitVec.getLsbD_setWidth, h1, h2, h3, decide_true, Bool.true_and]

/-! ## EngineRead -/

theorem Slot.takeFromWord_getLsbD (t : Slot) (n i : Nat) (hn : t.pos % 32 + n ≤ 32) :
    (t.takeFromWord n).getLsbD i = (decide (i < n) && t.bit (t.pos + i)) := by
  rw [Slot.takeFromWord, BitVec.getLsbD_and, BitVec.getLsbD_ushiftRight, mask_getLsbD (by omega), Bool.and_comm]
  by_cases hi : i < n
  · have h1 : (t.pos + i) / 32 = t.pos / 32 := by omega
    have h2 : (t.pos + i) % 32 = t.pos % 32 + i := by omega
    rw [Slot.bit, h1, h2]
  · simp [hi]

/-- A read of no bits answers 0 bits and changes nothing (R509, R510). -/
theorem ReadsField.zero {t : Slot} {c : Nat} (b : Nat) (h : min c (t.len - t.pos) = 0) : ReadsField t t 0#64 b c 0 where
  count := h.symm
  field := by intro i hi; omega
  other := by intro i _; simp
  slot := rfl

/-- Two reads in a row are one read of the two fields, when together they ask for `c + c'` bits and the first is whole or
ended at the length. -/
theorem ReadsField.append {t t' t'' : Slot} {v v' u : Value} {b b' d c c' k k' : Nat}
    (h₁ : ReadsField t t' v b c k) (h₂ : ReadsField t' t'' v' b' c' k')
    (hu : ∀ i < k, u.getLsbD (d + i) = v.getLsbD (b + i))
    (hu' : ∀ i < k', u.getLsbD (d + k + i) = v'.getLsbD (b' + i))
    (ho : ∀ i, i < d ∨ d + (k + k') ≤ i → u.getLsbD i = false) :
    ReadsField t t'' u d (c + c') (k + k') where
  count := by
    have e₁ := h₁.count
    have e₂ := h₂.count
    rw [h₁.slot] at e₂
    simp only at e₂
    omega
  field := by
    intro i hi
    by_cases hik : i < k
    · rw [hu i hik, h₁.field i hik]
    · have hb := h₂.field (i - k) (by omega)
      have hx := hu' (i - k) (by omega)
      have e₁ : d + k + (i - k) = d + i := by omega
      rw [e₁] at hx
      rw [hx, hb, h₁.slot]
      have e₂ : t.pos + k + (i - k) = t.pos + i := by omega
      simp only [e₂]
      rfl
  other := ho
  slot := by
    rw [h₂.slot, h₁.slot]
    simp [Nat.add_assoc]

theorem Slot.engineReadFuel_reads (fuel : Nat) (t : Slot) (b c : Nat) (hf : c ≤ fuel) (hb : b + c ≤ 32) :
    ReadsField t (Slot.engineReadFuel fuel t b c).slot ((Slot.engineReadFuel fuel t b c).value.setWidth 64) b c
      (Slot.engineReadFuel fuel t b c).count := by
  induction fuel generalizing t b c with
  | zero =>
    have : c = 0 := by omega
    subst this
    exact ReadsField.zero b (by simp)
  | succ fuel ih =>
    rw [Slot.engineReadFuel]
    dsimp only
    split
    · rename_i hk
      exact ReadsField.zero b hk
    · rename_i hk
      have hn : t.pos % 32 + min (min c (t.len - t.pos)) (32 - t.pos % 32) ≤ 32 := by omega
      set n := min (min c (t.len - t.pos)) (32 - t.pos % 32) with hn_def
      have h₁ : ReadsField t { t with pos := t.pos + n } ((t.takeFromWord n <<< b).setWidth 64) b n n := by
        refine ⟨by omega, ?_, ?_, rfl⟩
        · intro i hi
          have h1 : b + i < 32 := by omega
          have h2 : b + i < 64 := by omega
          have h3 : ¬ b + i < b := by omega
          simp only [BitVec.getLsbD_setWidth, BitVec.getLsbD_shiftLeft, t.takeFromWord_getLsbD n _ hn, Nat.add_sub_cancel_left,
            hi, h1, h2, h3, decide_true, decide_false, Bool.not_false, Bool.true_and]
        · intro i hi
          rw [BitVec.getLsbD_setWidth, BitVec.getLsbD_shiftLeft, t.takeFromWord_getLsbD n _ hn]
          by_cases hib : i < b
          · simp [hib]
          · have : ¬ i - b < n := by omega
            simp [this]
      split
      · rename_i hlt
        have h₂ := ih { t with pos := t.pos + n } (b + n) (min c (t.len - t.pos) - n) (by omega) (by omega)
        set r := Slot.engineReadFuel fuel { t with pos := t.pos + n } (b + n) (min c (t.len - t.pos) - n) with hr
        have hcount := h₂.count
        simp only at hcount
        have hrk : r.count = min c (t.len - t.pos) - n := by omega
        have h := h₁.append (u := ((t.takeFromWord n <<< b) ||| r.value).setWidth 64) (d := b) h₂
          (by
            intro i hi
            have hz := h₂.other (b + i) (by omega)
            simp only [BitVec.setWidth_or, BitVec.getLsbD_or, hz, Bool.or_false])
          (by
            intro i hi
            have hz := h₁.other (b + n + i) (by omega)
            simp only [BitVec.setWidth_or, BitVec.getLsbD_or, hz, Bool.false_or])
          (by
            intro i hi
            simp only [BitVec.setWidth_or, BitVec.getLsbD_or]
            rw [h₁.other i (by omega), h₂.other i (by omega)]
            rfl)
        exact ⟨by dsimp only; omega, h.field, h.other, h.slot⟩
      · exact ⟨by dsimp only; omega, h₁.field, h₁.other, h₁.slot⟩

/-- R507: what `EngineRead` answers, on stream bits. -/
theorem Slot.engineRead_reads (t : Slot) (b c : Nat) (hb : b + c ≤ 32) :
    ReadsField t (t.engineRead b c).slot ((t.engineRead b c).value.setWidth 64) b c (t.engineRead b c).count :=
  Slot.engineReadFuel_reads c t b c le_rfl hb

/-- R512: what `EngineRead64` answers, on stream bits. -/
theorem Slot.engineRead64_reads (t : Slot) (b c : Nat) (hb : b + c ≤ 64) :
    ReadsField t (t.engineRead64 b c).slot (t.engineRead64 b c).value b c (t.engineRead64 b c).count := by
  unfold Slot.engineRead64
  split
  · rename_i hlt
    dsimp only
    have h₁ := t.engineRead_reads b (min c (32 - b)) (by omega)
    have h₂ := (t.engineRead b (min c (32 - b))).slot.engineRead_reads 0 (c - min c (32 - b)) (by omega)
    set lo := t.engineRead b (min c (32 - b)) with hlo
    set hi := lo.slot.engineRead 0 (c - min c (32 - b)) with hhi
    have hk := h₁.count
    have hk' := h₂.count
    rw [h₁.slot] at hk'
    simp only at hk'
    have hlow : ∀ i < 32, (hi.value ++ lo.value).getLsbD i = (lo.value.setWidth 64).getLsbD i := by
      intro i hi32
      have : i < 64 := by omega
      rw [BitVec.getLsbD_append, BitVec.getLsbD_setWidth]
      simp [hi32, this]
    have hhigh : ∀ i, 32 ≤ i → (hi.value ++ lo.value).getLsbD i = (hi.value.setWidth 64).getLsbD (i - 32) := by
      intro i hi32
      have h1 : ¬ i < 32 := by omega
      rw [BitVec.getLsbD_append, BitVec.getLsbD_setWidth]
      by_cases h64 : i - 32 < 64
      · simp [h1, h64]
      · have := BitVec.getLsbD_of_ge hi.value (i - 32) (by omega)
        simp [h1, this]
    have h := h₁.append (u := hi.value ++ lo.value) (d := b) h₂
      (by intro i hi'; exact hlow _ (by omega))
      (by
        intro i hi'
        have : b + lo.count = 32 := by omega
        rw [this, hhigh _ (by omega)]
        congr 1
        omega)
      (by
        intro i hi'
        by_cases h32 : i < 32
        · rw [hlow i h32]
          exact h₁.other i (by omega)
        · rw [hhigh i (by omega)]
          apply h₂.other
          omega)
    rwa [Nat.add_sub_cancel' (by omega)] at h
  · rename_i hge
    dsimp only
    have h₁ := t.engineRead_reads (b - 32) c (by omega)
    set hi := t.engineRead (b - 32) c with hhi
    have hhigh : ∀ i, 32 ≤ i → (hi.value ++ 0#32).getLsbD i = (hi.value.setWidth 64).getLsbD (i - 32) := by
      intro i hi32
      have h1 : ¬ i < 32 := by omega
      rw [BitVec.getLsbD_append, BitVec.getLsbD_setWidth]
      by_cases h64 : i - 32 < 64
      · simp [h1, h64]
      · have := BitVec.getLsbD_of_ge hi.value (i - 32) (by omega)
        simp [h1, this]
    refine ⟨h₁.count, ?_, ?_, h₁.slot⟩
    · intro i hi'
      rw [hhigh _ (by omega), ← h₁.field i hi']
      congr 1
      omega
    · intro i hi'
      by_cases h32 : i < 32
      · rw [BitVec.getLsbD_append]
        simp [h32]
      · rw [hhigh i (by omega)]
        apply h₁.other
        omega

/-- R607: what `ReadValue` answers, for a supported width and a legal field. -/
theorem Slot.readValue_reads (t : Slot) {W : Nat} (hW : W ∈ [1, 8, 16, 32, 64]) (b c : Nat) (hb : b + c ≤ W) :
    ReadsField t (t.readValue W b c).slot (t.readValue W b c).value b c (t.readValue W b c).count := by
  unfold Slot.readValue
  split
  · exact t.engineRead64_reads b c (by omega)
  · have hW32 : W ≤ 32 := by
      simp only [List.mem_cons, List.not_mem_nil, or_false] at hW; omega
    exact t.engineRead_reads b c (by omega)

end Sys2Proof.Machine
end

