-- ==== Sys2Proof/Laws/Memory.lean ====
section
/-!
SUPPORT. TMEM: every write keeps the canonical form, a read after a write gives the value written and leaves every other entry
alone, and what reading a range of entries answers.
-/

namespace Sys2Proof.Machine

/-- Reading the entry that was written gives the value. -/
@[simp] theorem Memory.read_write_same (m : Memory) (i : Nat) (v : Value) : Memory.read (Memory.write m i v) i = some v := by
  induction m with
  | nil => simp [Memory.write, Memory.read]
  | cons e rest ih =>
    obtain ⟨a, u⟩ := e
    rw [Memory.write]
    split
    · simp [Memory.read]
    · split
      · simp [Memory.read]
      · rename_i hne
        simp [Memory.read, Ne.symm hne, ih]

/-- Reading any other entry gives what it gave. -/
theorem Memory.read_write_other (m : Memory) {i j : Nat} (v : Value) (h : j ≠ i) :
    Memory.read (Memory.write m i v) j = Memory.read m j := by
  induction m with
  | nil => simp [Memory.write, Memory.read, Ne.symm h]
  | cons e rest ih =>
    obtain ⟨a, u⟩ := e
    rw [Memory.write]
    split
    · simp [Memory.read, Ne.symm h]
    · split
      · rename_i he
        subst he
        simp [Memory.read, Ne.symm h]
      · simp only [Memory.read, ih]

/-- The entries after a write are the written one and entries that were there. -/
theorem Memory.mem_write {m : Memory} {i : Nat} {v : Value} {e : Nat × Value} (h : e ∈ Memory.write m i v) :
    e = (i, v) ∨ e ∈ m := by
  induction m with
  | nil => simpa [Memory.write] using h
  | cons x rest ih =>
    obtain ⟨a, u⟩ := x
    rw [Memory.write] at h
    split at h
    · simpa using h
    · split at h
      · rcases List.mem_cons.mp h with rfl | h
        · exact .inl rfl
        · exact .inr (List.mem_cons_of_mem _ h)
      · rcases List.mem_cons.mp h with rfl | h
        · exact .inr List.mem_cons_self
        · rcases ih h with rfl | h
          · exact .inl rfl
          · exact .inr (List.mem_cons_of_mem _ h)

/-- A write keeps the canonical form. -/
theorem Memory.write_wf {m : Memory} (h : m.wf) (i : Nat) (v : Value) : Memory.wf (Memory.write m i v) := by
  induction m with
  | nil => simp [Memory.write]
  | cons x rest ih =>
    obtain ⟨a, u⟩ := x
    obtain ⟨hx, hrest⟩ := List.pairwise_cons.mp h
    rw [Memory.write]
    split
    · rename_i hlt
      refine List.pairwise_cons.mpr ⟨?_, h⟩
      intro e he
      rcases List.mem_cons.mp he with rfl | he
      · exact hlt
      · exact Nat.lt_trans hlt (hx e he)
    · split
      · rename_i heq
        subst heq
        exact List.pairwise_cons.mpr ⟨hx, hrest⟩
      · refine List.pairwise_cons.mpr ⟨?_, ih hrest⟩
        intro e he
        rcases Memory.mem_write he with rfl | he
        · dsimp only; omega
        · exact hx e he

/-- A write below a bound keeps every entry below it. -/
theorem Memory.write_lt {m : Memory} {n : Nat} (h : ∀ e ∈ m, e.1 < n) {i : Nat} (hi : i < n) (v : Value) :
    ∀ e ∈ Memory.write m i v, e.1 < n := by
  intro e he
  rcases Memory.mem_write he with rfl | he
  · exact hi
  · exact h e he

/-- A range that is read whole: its values, in index order. -/
theorem Memory.readEntries_ok {m : Memory} {start cnt : Nat} {vs : List Value} (h : m.readEntries start cnt = .ok vs) :
    vs.length = cnt ∧ ∀ k < cnt, m.read (start + k) = some (vs.getD k 0#64) := by
  induction cnt generalizing start vs with
  | zero =>
    simp only [Memory.readEntries, Except.ok.injEq] at h
    subst h
    exact ⟨rfl, by intro k hk; omega⟩
  | succ cnt ih =>
    rw [Memory.readEntries] at h
    split at h
    · cases h
    · rename_i v hv
      split at h
      · cases h
      · rename_i ws hws
        cases h
        obtain ⟨hl, hr⟩ := ih hws
        refine ⟨by simp [hl], ?_⟩
        intro k hk
        cases k with
        | zero => simpa using hv
        | succ k =>
          have := hr k (by omega)
          rw [show start + (k + 1) = start + 1 + k by omega, this]
          simp

/-- A range in which an entry is unwritten: the first such entry. -/
theorem Memory.readEntries_error {m : Memory} {start cnt i : Nat} (h : m.readEntries start cnt = .error i) :
    start ≤ i ∧ i < start + cnt ∧ m.read i = none ∧ ∀ j, start ≤ j → j < i → m.read j ≠ none := by
  induction cnt generalizing start with
  | zero => simp [Memory.readEntries] at h
  | succ cnt ih =>
    rw [Memory.readEntries] at h
    split at h
    · rename_i hn
      cases h
      exact ⟨le_rfl, by omega, hn, by intro j h1 h2; omega⟩
    · rename_i v hv
      split at h
      · rename_i k hk
        cases h
        obtain ⟨h1, h2, h3, h4⟩ := ih hk
        refine ⟨by omega, by omega, h3, ?_⟩
        intro j hj hji
        by_cases he : j = start
        · subst he; simp [hv]
        · exact h4 j (by omega) hji
      · cases h

/-- A range whose entries are all written is read whole. -/
theorem Memory.readEntries_of_written {m : Memory} {start cnt : Nat} (h : ∀ k < cnt, m.read (start + k) ≠ none) :
    ∃ vs, m.readEntries start cnt = .ok vs := by
  cases hr : m.readEntries start cnt with
  | ok vs => exact ⟨vs, rfl⟩
  | error i =>
    obtain ⟨h1, h2, h3, -⟩ := Memory.readEntries_error hr
    have := h (i - start) (by omega)
    rw [Nat.add_sub_cancel' h1] at this
    exact absurd h3 this

end Sys2Proof.Machine
end

