-- ==== Sys2Proof/Laws/Arrays.lean ====
section
/-!
SUPPORT. What the element loops of the array commands do (R630 to R639), and what the result-stream construction does (R700),
stated on stream bits.
-/

namespace Sys2Proof.Machine

/-! ## Array writes -/

/-- R630 to R634: the element loop of an array write, on stream bits. -/
theorem Slot.writeElements_writes {t : Slot} (h : t.InBounds) {W : Nat} (hW : W ∈ [1, 8, 16, 32, 64]) (es : List Value) :
    WritesElements t (t.writeElements W es) W es := by
  induction es generalizing t with
  | nil =>
    have h0 := WritesField.zero h 0#64 0
    refine ⟨rfl, by simp [Slot.writeElements], ?_, ?_, ?_, ?_⟩
    · simpa [Slot.writeElements] using h0.len
    · simpa [Slot.writeElements] using h0.grown
    · intro k hk; simp at hk
    · intro p _; rfl
  | cons e es ih =>
    have h₁ := Slot.writeValue_writes h e hW 0 W (by omega)
    have h₂ := ih (h₁.inBounds h)
    rw [Slot.writeElements]
    have hlen : (e :: es).length * W = W + es.length * W := by simp [Nat.add_mul]; omega
    refine ⟨h₂.isOpen.trans h₁.isOpen, ?_, ?_, ?_, ?_, ?_⟩
    · rw [h₂.pos, h₁.pos, hlen]; omega
    · rw [h₂.len, h₁.len, h₁.pos, hlen]; omega
    · have hg := h₂.grown
      rw [h₁.pos] at hg
      have := h₁.grown.trans hg (by omega)
      rwa [hlen, ← Nat.add_assoc]
    · intro k hk i hi
      cases k with
      | zero =>
        have := h₂.other (t.pos + i) (by left; rw [h₁.pos]; omega)
        rw [Nat.zero_mul, Nat.add_zero, this, h₁.field i hi]
        simp
      | succ k =>
        have := h₂.field k (by simpa using hk) i hi
        rw [h₁.pos] at this
        rw [Nat.add_mul, Nat.one_mul, show t.pos + (k * W + W) + i = t.pos + W + k * W + i by omega, this]
        simp
    · intro p hp
      rw [hlen] at hp
      rw [h₂.other p (by rw [h₁.pos]; omega), h₁.other p (by omega)]

/-- An array write keeps the slot within its bounds. -/
theorem WritesElements.inBounds {t t' : Slot} {W : Nat} {es : List Value} (h : t.InBounds) (hw : WritesElements t t' W es) :
    t'.InBounds := by
  obtain ⟨h1, h2, h3⟩ := h
  refine ⟨hw.grown.pos h1, ?_, ?_⟩
  · rw [hw.pos, hw.len]; exact le_max_right _ _
  · have := hw.grown.holds
    have := hw.grown.le
    rw [hw.len]
    apply max_le <;> omega

/-! ## Array reads -/

/-- The value of a full-width read, bit by bit. -/
theorem ReadsField.bits {t t' : Slot} {v : Value} {W k : Nat} (h : ReadsField t t' v 0 W k) (hp : t.pos ≤ t.len) (i : Nat) :
    v.getLsbD i = (decide (i < W ∧ t.pos + i < t.len) && t.bit (t.pos + i)) := by
  have hk := h.count
  by_cases hi : i < k
  · have := h.field i hi
    rw [Nat.zero_add] at this
    have hd : i < W ∧ t.pos + i < t.len := by omega
    simp [this, hd]
  · rw [h.other i (by omega)]
    have hd : ¬ (i < W ∧ t.pos + i < t.len) := by omega
    simp [hd]

/-- R635 to R639: the element loop of an array read, on stream bits. -/
theorem Slot.readElements_reads {W : Nat} (hW : W ∈ [1, 8, 16, 32, 64]) (cnt : Nat) {t : Slot} (h : t.pos ≤ t.len)
    (m : Memory) (start : Nat) :
    ReadsElements t (Slot.readElements W cnt t m start).slot m (Slot.readElements W cnt t m start).tmem W cnt start
      (Slot.readElements W cnt t m start).total := by
  induction cnt generalizing t m start with
  | zero =>
    refine ⟨by simp [Slot.readElements], rfl, ?_, ?_⟩
    · intro k hk; omega
    · intro j _; rfl
  | succ cnt ih =>
    have hr := t.readValue_reads hW 0 W (by omega)
    rw [Slot.readElements]
    dsimp only
    set r := t.readValue W 0 W with hr_def
    have hk := hr.count
    have hs := hr.slot
    have hlen : r.slot.len = t.len := by rw [hs]
    have hpos : r.slot.pos = t.pos + r.count := by rw [hs]
    have h' : r.slot.pos ≤ r.slot.len := by rw [hlen, hpos]; omega
    have hrest := ih h' (m.write start r.value) (start + 1)
    set rest := Slot.readElements W cnt r.slot (m.write start r.value) (start + 1) with hrest_def
    have ht := hrest.count
    rw [hlen, hpos] at ht
    have hmul : (cnt + 1) * W = W + cnt * W := by rw [Nat.add_mul]; omega
    refine ⟨?_, ?_, ?_, ?_⟩
    · rw [hmul]; omega
    · rw [hrest.slot, hs]
      simp [Nat.add_assoc]
    · intro k hk'
      cases k with
      | zero =>
        refine ⟨r.value, ?_, ?_⟩
        · rw [Nat.add_zero, hrest.other start (by omega), Memory.read_write_same]
        · intro i
          simpa using hr.bits h i
      | succ k =>
        obtain ⟨v, hv, hb⟩ := hrest.element k (by omega)
        refine ⟨v, ?_, ?_⟩
        · rw [show start + (k + 1) = start + 1 + k by omega, hv]
        · intro i
          rw [hb i, hlen, hpos]
          have hbit : ∀ p, r.slot.bit p = t.bit p := by intro p; rw [hs]; rfl
          rw [hbit, Nat.add_mul, Nat.one_mul]
          by_cases hfull : r.count = W
          · rw [hfull, show t.pos + W + k * W + i = t.pos + (k * W + W) + i by omega]
          · have h1 : ¬ (i < W ∧ t.pos + r.count + k * W + i < t.len) := by omega
            have h2 : ¬ (i < W ∧ t.pos + (k * W + W) + i < t.len) := by omega
            simp [h1, h2]
    · intro j hj
      rw [hrest.other j (by omega), Memory.read_write_other _ _ (by omega)]

/-- The element loop of an array read keeps TMEM in canonical form and within a bound that its range respects. -/
theorem Slot.readElements_tmem (W cnt : Nat) (t : Slot) {m : Memory} {start n : Nat} (hwf : m.wf)
    (hlt : ∀ e ∈ m, e.1 < n) (hr : start + cnt ≤ n) :
    (Slot.readElements W cnt t m start).tmem.wf ∧ ∀ e ∈ (Slot.readElements W cnt t m start).tmem, e.1 < n := by
  induction cnt generalizing t m start with
  | zero => exact ⟨hwf, hlt⟩
  | succ cnt ih =>
    rw [Slot.readElements]
    exact ih _ (Memory.write_wf hwf _ _) (Memory.write_lt hlt (by omega) _) (by omega)

/-! ## Result streams -/

/-- R700: the result-stream construction, on stream bits. -/
theorem Slot.build_from {a : Slot} (h : a.InBounds) (f : Nat → Bool) : BuiltFrom a (a.build f) f where
  isOpen := rfl
  nw := by simp [Slot.build, Slot.nw]
  len := rfl
  pos := rfl
  bit := by
    intro p
    obtain ⟨h1, h2, h3⟩ := h
    have hq : p % 32 < 32 := Nat.mod_lt _ (by omega)
    have e : 32 * (p / 32) + p % 32 = p := by omega
    simp only [Slot.bit, Slot.build, List.getD_eq_getElem?_getD, List.getElem?_map]
    by_cases hw : p / 32 < a.nw
    · rw [List.getElem?_range hw]
      simp only [Option.map_some, Option.getD_some, wordOfBits_getLsbD _ 32 _ le_rfl, hq, decide_true, Bool.true_and, e]
    · rw [List.getElem?_eq_none (by simpa using Nat.le_of_not_lt hw)]
      have : ¬ p < a.len := by omega
      simp [this]

end Sys2Proof.Machine
end

