-- ==== Sys2Proof/Laws/Decode.lean ====
section
/-!
SUPPORT. The fields of an encoded word are the fields it was made from (R301, R302): one lemma per form and field. Then: the
fields of a word determine it.
-/

namespace Sys2Proof

/-- A field of a word, bit by bit: the six fields are `extractLsb'` at R301's places. -/
theorem word_eq_of_fields {c d : Word} (h0 : opcOf c = opcOf d) (h1 : sdOf c = sdOf d) (h2 : saOf c = saOf d)
    (h3 : sbOf c = sbOf d) (h4 : widOf c = widOf d) (h5 : rsvOf c = rsvOf d) : c = d := by
  apply BitVec.eq_of_getLsbD_eq
  intro i hi
  have key : ∀ (start len : Nat), c.extractLsb' start len = d.extractLsb' start len → start ≤ i → i < start + len →
      c.getLsbD i = d.getLsbD i := by
    intro start len h hlo hhi
    have := congrArg (fun v => v.getLsbD (i - start)) h
    have hl : i - start < len := by omega
    simp only [BitVec.getLsbD_extractLsb', hl, decide_true, Bool.true_and, Nat.add_sub_cancel' hlo] at this
    exact this
  by_cases g0 : i < 8
  · exact key 0 8 h0 (by omega) (by omega)
  by_cases g1 : i < 12
  · exact key 8 4 h1 (by omega) (by omega)
  by_cases g2 : i < 16
  · exact key 12 4 h2 (by omega) (by omega)
  by_cases g3 : i < 20
  · exact key 16 4 h3 (by omega) (by omega)
  by_cases g4 : i < 23
  · exact key 20 3 h4 (by omega) (by omega)
  · exact key 23 9 h5 (by omega) (by omega)

/-- A word of form `S`, bit by bit. -/
theorem encodeS_getLsbD (opc : BitVec 8) (sd : SlotNo) (i : Nat) :
    (encodeS opc sd).getLsbD i =
      if i < 8 then opc.getLsbD i
      else if i < 12 then sd.getLsbD (i - 8)
      else false := by
  refine (BitVec.getLsbD_append (x := 0#20 ++ sd) (y := opc)).trans ?_
  repeat rw [BitVec.getLsbD_append]
  simp only [BitVec.getLsbD_zero, Nat.sub_sub, Nat.reduceAdd]
  split_ifs <;> first | rfl | omega

/-- A word of form `SW`, bit by bit. -/
theorem encodeSW_getLsbD (opc : BitVec 8) (wid : BitVec 3) (sd : SlotNo) (i : Nat) :
    (encodeSW opc wid sd).getLsbD i =
      if i < 8 then opc.getLsbD i
      else if i < 12 then sd.getLsbD (i - 8)
      else if i < 20 then false
      else if i < 23 then wid.getLsbD (i - 20)
      else false := by
  refine (BitVec.getLsbD_append (x := 0#9 ++ wid ++ 0#8 ++ sd) (y := opc)).trans ?_
  repeat rw [BitVec.getLsbD_append]
  simp only [BitVec.getLsbD_zero, Nat.sub_sub, Nat.reduceAdd]
  split_ifs <;> first | rfl | omega

/-- A word of form `DAB`, bit by bit. -/
theorem encodeDAB_getLsbD (opc : BitVec 8) (sd sa sb : SlotNo) (i : Nat) :
    (encodeDAB opc sd sa sb).getLsbD i =
      if i < 8 then opc.getLsbD i
      else if i < 12 then sd.getLsbD (i - 8)
      else if i < 16 then sa.getLsbD (i - 12)
      else if i < 20 then sb.getLsbD (i - 16)
      else false := by
  refine (BitVec.getLsbD_append (x := 0#12 ++ sb ++ sa ++ sd) (y := opc)).trans ?_
  repeat rw [BitVec.getLsbD_append]
  simp only [BitVec.getLsbD_zero, Nat.sub_sub, Nat.reduceAdd]
  split_ifs <;> first | rfl | omega

/-- A word of form `DA`, bit by bit. -/
theorem encodeDA_getLsbD (opc : BitVec 8) (sd sa : SlotNo) (i : Nat) :
    (encodeDA opc sd sa).getLsbD i =
      if i < 8 then opc.getLsbD i
      else if i < 12 then sd.getLsbD (i - 8)
      else if i < 16 then sa.getLsbD (i - 12)
      else false := by
  refine (BitVec.getLsbD_append (x := 0#16 ++ sa ++ sd) (y := opc)).trans ?_
  repeat rw [BitVec.getLsbD_append]
  simp only [BitVec.getLsbD_zero, Nat.sub_sub, Nat.reduceAdd]
  split_ifs <;> first | rfl | omega

@[simp] theorem opcOf_encodeS (opc : BitVec 8) (sd : SlotNo) : opcOf (encodeS opc sd) = opc := by
  apply BitVec.eq_of_getLsbD_eq
  intro i hi
  rw [opcOf, BitVec.getLsbD_extractLsb', encodeS_getLsbD]
  interval_cases i <;> simp

@[simp] theorem sdOf_encodeS (opc : BitVec 8) (sd : SlotNo) : sdOf (encodeS opc sd) = sd := by
  apply BitVec.eq_of_getLsbD_eq
  intro i hi
  rw [sdOf, BitVec.getLsbD_extractLsb', encodeS_getLsbD]
  interval_cases i <;> simp

@[simp] theorem saOf_encodeS (opc : BitVec 8) (sd : SlotNo) : saOf (encodeS opc sd) = 0#4 := by
  apply BitVec.eq_of_getLsbD_eq
  intro i hi
  rw [saOf, BitVec.getLsbD_extractLsb', encodeS_getLsbD]
  interval_cases i <;> simp

@[simp] theorem sbOf_encodeS (opc : BitVec 8) (sd : SlotNo) : sbOf (encodeS opc sd) = 0#4 := by
  apply BitVec.eq_of_getLsbD_eq
  intro i hi
  rw [sbOf, BitVec.getLsbD_extractLsb', encodeS_getLsbD]
  interval_cases i <;> simp

@[simp] theorem widOf_encodeS (opc : BitVec 8) (sd : SlotNo) : widOf (encodeS opc sd) = 0#3 := by
  apply BitVec.eq_of_getLsbD_eq
  intro i hi
  rw [widOf, BitVec.getLsbD_extractLsb', encodeS_getLsbD]
  interval_cases i <;> simp

@[simp] theorem rsvOf_encodeS (opc : BitVec 8) (sd : SlotNo) : rsvOf (encodeS opc sd) = 0#9 := by
  apply BitVec.eq_of_getLsbD_eq
  intro i hi
  rw [rsvOf, BitVec.getLsbD_extractLsb', encodeS_getLsbD]
  interval_cases i <;> simp

@[simp] theorem opcOf_encodeSW (opc : BitVec 8) (wid : BitVec 3) (sd : SlotNo) : opcOf (encodeSW opc wid sd) = opc := by
  apply BitVec.eq_of_getLsbD_eq
  intro i hi
  rw [opcOf, BitVec.getLsbD_extractLsb', encodeSW_getLsbD]
  interval_cases i <;> simp

@[simp] theorem sdOf_encodeSW (opc : BitVec 8) (wid : BitVec 3) (sd : SlotNo) : sdOf (encodeSW opc wid sd) = sd := by
  apply BitVec.eq_of_getLsbD_eq
  intro i hi
  rw [sdOf, BitVec.getLsbD_extractLsb', encodeSW_getLsbD]
  interval_cases i <;> simp

@[simp] theorem saOf_encodeSW (opc : BitVec 8) (wid : BitVec 3) (sd : SlotNo) : saOf (encodeSW opc wid sd) = 0#4 := by
  apply BitVec.eq_of_getLsbD_eq
  intro i hi
  rw [saOf, BitVec.getLsbD_extractLsb', encodeSW_getLsbD]
  interval_cases i <;> simp

@[simp] theorem sbOf_encodeSW (opc : BitVec 8) (wid : BitVec 3) (sd : SlotNo) : sbOf (encodeSW opc wid sd) = 0#4 := by
  apply BitVec.eq_of_getLsbD_eq
  intro i hi
  rw [sbOf, BitVec.getLsbD_extractLsb', encodeSW_getLsbD]
  interval_cases i <;> simp

@[simp] theorem widOf_encodeSW (opc : BitVec 8) (wid : BitVec 3) (sd : SlotNo) : widOf (encodeSW opc wid sd) = wid := by
  apply BitVec.eq_of_getLsbD_eq
  intro i hi
  rw [widOf, BitVec.getLsbD_extractLsb', encodeSW_getLsbD]
  interval_cases i <;> simp

@[simp] theorem rsvOf_encodeSW (opc : BitVec 8) (wid : BitVec 3) (sd : SlotNo) : rsvOf (encodeSW opc wid sd) = 0#9 := by
  apply BitVec.eq_of_getLsbD_eq
  intro i hi
  rw [rsvOf, BitVec.getLsbD_extractLsb', encodeSW_getLsbD]
  interval_cases i <;> simp

@[simp] theorem opcOf_encodeDAB (opc : BitVec 8) (sd sa sb : SlotNo) : opcOf (encodeDAB opc sd sa sb) = opc := by
  apply BitVec.eq_of_getLsbD_eq
  intro i hi
  rw [opcOf, BitVec.getLsbD_extractLsb', encodeDAB_getLsbD]
  interval_cases i <;> simp

@[simp] theorem sdOf_encodeDAB (opc : BitVec 8) (sd sa sb : SlotNo) : sdOf (encodeDAB opc sd sa sb) = sd := by
  apply BitVec.eq_of_getLsbD_eq
  intro i hi
  rw [sdOf, BitVec.getLsbD_extractLsb', encodeDAB_getLsbD]
  interval_cases i <;> simp

@[simp] theorem saOf_encodeDAB (opc : BitVec 8) (sd sa sb : SlotNo) : saOf (encodeDAB opc sd sa sb) = sa := by
  apply BitVec.eq_of_getLsbD_eq
  intro i hi
  rw [saOf, BitVec.getLsbD_extractLsb', encodeDAB_getLsbD]
  interval_cases i <;> simp

@[simp] theorem sbOf_encodeDAB (opc : BitVec 8) (sd sa sb : SlotNo) : sbOf (encodeDAB opc sd sa sb) = sb := by
  apply BitVec.eq_of_getLsbD_eq
  intro i hi
  rw [sbOf, BitVec.getLsbD_extractLsb', encodeDAB_getLsbD]
  interval_cases i <;> simp

@[simp] theorem widOf_encodeDAB (opc : BitVec 8) (sd sa sb : SlotNo) : widOf (encodeDAB opc sd sa sb) = 0#3 := by
  apply BitVec.eq_of_getLsbD_eq
  intro i hi
  rw [widOf, BitVec.getLsbD_extractLsb', encodeDAB_getLsbD]
  interval_cases i <;> simp

@[simp] theorem rsvOf_encodeDAB (opc : BitVec 8) (sd sa sb : SlotNo) : rsvOf (encodeDAB opc sd sa sb) = 0#9 := by
  apply BitVec.eq_of_getLsbD_eq
  intro i hi
  rw [rsvOf, BitVec.getLsbD_extractLsb', encodeDAB_getLsbD]
  interval_cases i <;> simp

@[simp] theorem opcOf_encodeDA (opc : BitVec 8) (sd sa : SlotNo) : opcOf (encodeDA opc sd sa) = opc := by
  apply BitVec.eq_of_getLsbD_eq
  intro i hi
  rw [opcOf, BitVec.getLsbD_extractLsb', encodeDA_getLsbD]
  interval_cases i <;> simp

@[simp] theorem sdOf_encodeDA (opc : BitVec 8) (sd sa : SlotNo) : sdOf (encodeDA opc sd sa) = sd := by
  apply BitVec.eq_of_getLsbD_eq
  intro i hi
  rw [sdOf, BitVec.getLsbD_extractLsb', encodeDA_getLsbD]
  interval_cases i <;> simp

@[simp] theorem saOf_encodeDA (opc : BitVec 8) (sd sa : SlotNo) : saOf (encodeDA opc sd sa) = sa := by
  apply BitVec.eq_of_getLsbD_eq
  intro i hi
  rw [saOf, BitVec.getLsbD_extractLsb', encodeDA_getLsbD]
  interval_cases i <;> simp

@[simp] theorem sbOf_encodeDA (opc : BitVec 8) (sd sa : SlotNo) : sbOf (encodeDA opc sd sa) = 0#4 := by
  apply BitVec.eq_of_getLsbD_eq
  intro i hi
  rw [sbOf, BitVec.getLsbD_extractLsb', encodeDA_getLsbD]
  interval_cases i <;> simp

@[simp] theorem widOf_encodeDA (opc : BitVec 8) (sd sa : SlotNo) : widOf (encodeDA opc sd sa) = 0#3 := by
  apply BitVec.eq_of_getLsbD_eq
  intro i hi
  rw [widOf, BitVec.getLsbD_extractLsb', encodeDA_getLsbD]
  interval_cases i <;> simp

@[simp] theorem rsvOf_encodeDA (opc : BitVec 8) (sd sa : SlotNo) : rsvOf (encodeDA opc sd sa) = 0#9 := by
  apply BitVec.eq_of_getLsbD_eq
  intro i hi
  rw [rsvOf, BitVec.getLsbD_extractLsb', encodeDA_getLsbD]
  interval_cases i <;> simp

end Sys2Proof
end

