-- ==== Sys2Proof/Laws/State.lean ====
section
/-!
SUPPORT. One lemma per field per update of the state, true by rfl, so that no later proof unfolds a record update; then the
lemmas about reaching a slot through an update.
-/

namespace Sys2Proof.Machine

/-! ## `State.ok` -/

@[simp] theorem State.ok_slots (s : State) : s.ok.slots = s.slots := rfl

@[simp] theorem State.ok_a0 (s : State) : s.ok.a0 = s.a0 := rfl

@[simp] theorem State.ok_a1 (s : State) : s.ok.a1 = s.a1 := rfl

@[simp] theorem State.ok_a2 (s : State) : s.ok.a2 = s.a2 := rfl

@[simp] theorem State.ok_a3 (s : State) : s.ok.a3 = s.a3 := rfl

@[simp] theorem State.ok_r0 (s : State) : s.ok.r0 = s.r0 := rfl

@[simp] theorem State.ok_r1 (s : State) : s.ok.r1 = s.r1 := rfl

@[simp] theorem State.ok_err (s : State) : s.ok.err = okStatus := rfl

@[simp] theorem State.ok_sticky (s : State) : s.ok.sticky = s.sticky := rfl

@[simp] theorem State.ok_tmem (s : State) : s.ok.tmem = s.tmem := rfl

@[simp] theorem State.ok_params (s : State) : s.ok.params = s.params := rfl

@[simp] theorem State.ok_pending (s : State) : s.ok.pending = s.pending := rfl

@[simp] theorem State.ok_readData (s : State) : s.ok.readData = s.readData := rfl

/-! ## `State.raise` -/

@[simp] theorem State.raise_slots (s : State) (e : Err) : (s.raise e).slots = s.slots := rfl

@[simp] theorem State.raise_a0 (s : State) (e : Err) : (s.raise e).a0 = s.a0 := rfl

@[simp] theorem State.raise_a1 (s : State) (e : Err) : (s.raise e).a1 = s.a1 := rfl

@[simp] theorem State.raise_a2 (s : State) (e : Err) : (s.raise e).a2 = s.a2 := rfl

@[simp] theorem State.raise_a3 (s : State) (e : Err) : (s.raise e).a3 = s.a3 := rfl

@[simp] theorem State.raise_r0 (s : State) (e : Err) : (s.raise e).r0 = s.r0 := rfl

@[simp] theorem State.raise_r1 (s : State) (e : Err) : (s.raise e).r1 = s.r1 := rfl

@[simp] theorem State.raise_err (s : State) (e : Err) : (s.raise e).err = e.status := rfl

@[simp] theorem State.raise_sticky (s : State) (e : Err) : (s.raise e).sticky = stickyAfter s.sticky e := rfl

@[simp] theorem State.raise_tmem (s : State) (e : Err) : (s.raise e).tmem = s.tmem := rfl

@[simp] theorem State.raise_params (s : State) (e : Err) : (s.raise e).params = s.params := rfl

@[simp] theorem State.raise_pending (s : State) (e : Err) : (s.raise e).pending = s.pending := rfl

@[simp] theorem State.raise_readData (s : State) (e : Err) : (s.raise e).readData = s.readData := rfl

/-! ## `State.setSlot` -/

@[simp] theorem State.setSlot_slots (s : State) (n : SlotNo) (t : Slot) : (s.setSlot n t).slots = s.slots.set n.toNat t := rfl

@[simp] theorem State.setSlot_a0 (s : State) (n : SlotNo) (t : Slot) : (s.setSlot n t).a0 = s.a0 := rfl

@[simp] theorem State.setSlot_a1 (s : State) (n : SlotNo) (t : Slot) : (s.setSlot n t).a1 = s.a1 := rfl

@[simp] theorem State.setSlot_a2 (s : State) (n : SlotNo) (t : Slot) : (s.setSlot n t).a2 = s.a2 := rfl

@[simp] theorem State.setSlot_a3 (s : State) (n : SlotNo) (t : Slot) : (s.setSlot n t).a3 = s.a3 := rfl

@[simp] theorem State.setSlot_r0 (s : State) (n : SlotNo) (t : Slot) : (s.setSlot n t).r0 = s.r0 := rfl

@[simp] theorem State.setSlot_r1 (s : State) (n : SlotNo) (t : Slot) : (s.setSlot n t).r1 = s.r1 := rfl

@[simp] theorem State.setSlot_err (s : State) (n : SlotNo) (t : Slot) : (s.setSlot n t).err = s.err := rfl

@[simp] theorem State.setSlot_sticky (s : State) (n : SlotNo) (t : Slot) : (s.setSlot n t).sticky = s.sticky := rfl

@[simp] theorem State.setSlot_tmem (s : State) (n : SlotNo) (t : Slot) : (s.setSlot n t).tmem = s.tmem := rfl

@[simp] theorem State.setSlot_params (s : State) (n : SlotNo) (t : Slot) : (s.setSlot n t).params = s.params := rfl

@[simp] theorem State.setSlot_pending (s : State) (n : SlotNo) (t : Slot) : (s.setSlot n t).pending = s.pending := rfl

@[simp] theorem State.setSlot_readData (s : State) (n : SlotNo) (t : Slot) : (s.setSlot n t).readData = s.readData := rfl

/-! ## `State.answer` -/

@[simp] theorem State.answer_slots (s : State) (v : Value) : (s.answer v).slots = s.slots := rfl

@[simp] theorem State.answer_a0 (s : State) (v : Value) : (s.answer v).a0 = s.a0 := rfl

@[simp] theorem State.answer_a1 (s : State) (v : Value) : (s.answer v).a1 = s.a1 := rfl

@[simp] theorem State.answer_a2 (s : State) (v : Value) : (s.answer v).a2 = s.a2 := rfl

@[simp] theorem State.answer_a3 (s : State) (v : Value) : (s.answer v).a3 = s.a3 := rfl

@[simp] theorem State.answer_r0 (s : State) (v : Value) : (s.answer v).r0 = s.r0 := rfl

@[simp] theorem State.answer_r1 (s : State) (v : Value) : (s.answer v).r1 = s.r1 := rfl

@[simp] theorem State.answer_err (s : State) (v : Value) : (s.answer v).err = s.err := rfl

@[simp] theorem State.answer_sticky (s : State) (v : Value) : (s.answer v).sticky = s.sticky := rfl

@[simp] theorem State.answer_tmem (s : State) (v : Value) : (s.answer v).tmem = s.tmem := rfl

@[simp] theorem State.answer_params (s : State) (v : Value) : (s.answer v).params = s.params := rfl

@[simp] theorem State.answer_pending (s : State) (v : Value) : (s.answer v).pending = s.pending := rfl

@[simp] theorem State.answer_readData (s : State) (v : Value) : (s.answer v).readData = some v := rfl

/-! ## `State.afterRead` -/

@[simp] theorem State.afterRead_slots (s : State) (n : SlotNo) (r : ReadResult 64) : (s.afterRead n r).slots = s.slots.set n.toNat r.slot := rfl

@[simp] theorem State.afterRead_a0 (s : State) (n : SlotNo) (r : ReadResult 64) : (s.afterRead n r).a0 = s.a0 := rfl

@[simp] theorem State.afterRead_a1 (s : State) (n : SlotNo) (r : ReadResult 64) : (s.afterRead n r).a1 = s.a1 := rfl

@[simp] theorem State.afterRead_a2 (s : State) (n : SlotNo) (r : ReadResult 64) : (s.afterRead n r).a2 = s.a2 := rfl

@[simp] theorem State.afterRead_a3 (s : State) (n : SlotNo) (r : ReadResult 64) : (s.afterRead n r).a3 = s.a3 := rfl

@[simp] theorem State.afterRead_r0 (s : State) (n : SlotNo) (r : ReadResult 64) : (s.afterRead n r).r0 = r.value := rfl

@[simp] theorem State.afterRead_r1 (s : State) (n : SlotNo) (r : ReadResult 64) : (s.afterRead n r).r1 = countValue r.count := rfl

@[simp] theorem State.afterRead_err (s : State) (n : SlotNo) (r : ReadResult 64) : (s.afterRead n r).err = okStatus := rfl

@[simp] theorem State.afterRead_sticky (s : State) (n : SlotNo) (r : ReadResult 64) : (s.afterRead n r).sticky = s.sticky := rfl

@[simp] theorem State.afterRead_tmem (s : State) (n : SlotNo) (r : ReadResult 64) : (s.afterRead n r).tmem = s.tmem := rfl

@[simp] theorem State.afterRead_params (s : State) (n : SlotNo) (r : ReadResult 64) : (s.afterRead n r).params = s.params := rfl

@[simp] theorem State.afterRead_pending (s : State) (n : SlotNo) (r : ReadResult 64) : (s.afterRead n r).pending = s.pending := rfl

@[simp] theorem State.afterRead_readData (s : State) (n : SlotNo) (r : ReadResult 64) : (s.afterRead n r).readData = s.readData := rfl

/-! ## `State.resetInput` -/

@[simp] theorem State.resetInput_slots (s : State) : s.resetInput.slots = List.replicate s.slots.length Slot.empty := rfl

@[simp] theorem State.resetInput_a0 (s : State) : s.resetInput.a0 = 0#64 := rfl

@[simp] theorem State.resetInput_a1 (s : State) : s.resetInput.a1 = 0#64 := rfl

@[simp] theorem State.resetInput_a2 (s : State) : s.resetInput.a2 = 0#64 := rfl

@[simp] theorem State.resetInput_a3 (s : State) : s.resetInput.a3 = 0#64 := rfl

@[simp] theorem State.resetInput_r0 (s : State) : s.resetInput.r0 = 0#64 := rfl

@[simp] theorem State.resetInput_r1 (s : State) : s.resetInput.r1 = 0#64 := rfl

@[simp] theorem State.resetInput_err (s : State) : s.resetInput.err = 0#32 := rfl

@[simp] theorem State.resetInput_sticky (s : State) : s.resetInput.sticky = 0#32 := rfl

@[simp] theorem State.resetInput_tmem (s : State) : s.resetInput.tmem = [] := rfl

@[simp] theorem State.resetInput_params (s : State) : s.resetInput.params = s.params := rfl

@[simp] theorem State.resetInput_pending (s : State) : s.resetInput.pending = s.pending := rfl

@[simp] theorem State.resetInput_readData (s : State) : s.resetInput.readData = s.readData := rfl

/-! ## `State.placeCommand` -/

@[simp] theorem State.placeCommand_slots (s : State) (nbits w : Nat) : (s.placeCommand nbits w).slots = s.slots := rfl

@[simp] theorem State.placeCommand_a0 (s : State) (nbits w : Nat) : (s.placeCommand nbits w).a0 = s.a0 := rfl

@[simp] theorem State.placeCommand_a1 (s : State) (nbits w : Nat) : (s.placeCommand nbits w).a1 = s.a1 := rfl

@[simp] theorem State.placeCommand_a2 (s : State) (nbits w : Nat) : (s.placeCommand nbits w).a2 = s.a2 := rfl

@[simp] theorem State.placeCommand_a3 (s : State) (nbits w : Nat) : (s.placeCommand nbits w).a3 = s.a3 := rfl

@[simp] theorem State.placeCommand_r0 (s : State) (nbits w : Nat) : (s.placeCommand nbits w).r0 = s.r0 := rfl

@[simp] theorem State.placeCommand_r1 (s : State) (nbits w : Nat) : (s.placeCommand nbits w).r1 = s.r1 := rfl

@[simp] theorem State.placeCommand_err (s : State) (nbits w : Nat) : (s.placeCommand nbits w).err = s.err := rfl

@[simp] theorem State.placeCommand_sticky (s : State) (nbits w : Nat) : (s.placeCommand nbits w).sticky = s.sticky := rfl

@[simp] theorem State.placeCommand_tmem (s : State) (nbits w : Nat) : (s.placeCommand nbits w).tmem = s.tmem := rfl

@[simp] theorem State.placeCommand_params (s : State) (nbits w : Nat) : (s.placeCommand nbits w).params = s.params := rfl

@[simp] theorem State.placeCommand_pending (s : State) (nbits w : Nat) : (s.placeCommand nbits w).pending = commandEvent s.params (BitVec.ofNat 32 (w % 2 ^ nbits)) :: s.pending := rfl

@[simp] theorem State.placeCommand_readData (s : State) (nbits w : Nat) : (s.placeCommand nbits w).readData = s.readData := rfl

/-! ## Reaching a slot -/

@[simp] theorem State.ok_slot? (s : State) (n : SlotNo) : s.ok.slot? n = s.slot? n := rfl

@[simp] theorem State.raise_slot? (s : State) (e : Err) (n : SlotNo) : (s.raise e).slot? n = s.slot? n := rfl

/-- The slot that was set, when it exists. -/
theorem State.setSlot_slot?_same {s : State} {n : SlotNo} {t : Slot} (h : s.slot? n = some t) (t' : Slot) :
    (s.setSlot n t').slot? n = some t' := by
  unfold State.slot? at h ⊢
  have hlt : n.toNat < s.slots.length := (List.getElem?_eq_some_iff.mp h).1
  simp [hlt]

/-- Every other slot is as it was (R100, R404). -/
theorem State.setSlot_slot?_other (s : State) {n m : SlotNo} (h : m ≠ n) (t' : Slot) :
    (s.setSlot n t').slot? m = s.slot? m := by
  unfold State.slot?
  have : n.toNat ≠ m.toNat := fun he => h (BitVec.eq_of_toNat_eq he.symm)
  simp [this]

/-- The number of slots never changes by setting one. -/
theorem State.setSlot_length (s : State) (n : SlotNo) (t' : Slot) : (s.setSlot n t').slots.length = s.slots.length := by
  simp

/-- A slot that is reached is one of the slot file. -/
theorem State.slot?_mem {s : State} {n : SlotNo} {t : Slot} (h : s.slot? n = some t) : t ∈ s.slots :=
  List.mem_of_getElem? h

/-- What holds of every slot holds after setting one of which it holds. -/
theorem State.forall_setSlot {P : Slot → Prop} {s : State} (h : ∀ t ∈ s.slots, P t) (n : SlotNo) {t' : Slot} (h' : P t') :
    ∀ t ∈ (s.setSlot n t').slots, P t := by
  intro t ht
  rcases List.mem_or_eq_of_mem_set ht with h1 | rfl
  · exact h t h1
  · exact h'

end Sys2Proof.Machine
end

