-- ==== Sys2Proof/Laws/Ops.lean ====
section
/-!
SUPPORT. For each shared operation, what it answers and everything it can do when it answers a next state. The provers cite
these instead of unfolding the operation.
-/

namespace Sys2Proof.Machine

/-! ## The slot checks -/

theorem State.onSlot_of_some {s : State} {n : SlotNo} {t : Slot} (h : s.slot? n = some t) (k : Slot → Result) :
    s.onSlot n k = k t := by
  simp [State.onSlot, h]

theorem State.onSlot_of_none {s : State} {n : SlotNo} (h : s.slot? n = none) (k : Slot → Result) :
    s.onSlot n k = .next (s.raise .illegalCommand) := by
  simp [State.onSlot, h, State.fail]

theorem State.onOpenSlot_of_open {s : State} {n : SlotNo} {t : Slot} (h : s.slot? n = some t) (ho : t.isOpen = true)
    (k : Slot → Result) : s.onOpenSlot n k = k t := by
  rw [State.onOpenSlot, State.onSlot_of_some h]
  simp [ho]

theorem State.onOpenSlot_of_closed {s : State} {n : SlotNo} {t : Slot} (h : s.slot? n = some t) (ho : t.isOpen = false)
    (k : Slot → Result) : s.onOpenSlot n k = .next (s.raise .disposed) := by
  rw [State.onOpenSlot, State.onSlot_of_some h]
  simp [ho, State.fail]

theorem State.onOpenSlot_of_none {s : State} {n : SlotNo} (h : s.slot? n = none) (k : Slot → Result) :
    s.onOpenSlot n k = .next (s.raise .illegalCommand) := by
  rw [State.onOpenSlot, State.onSlot_of_none h]

/-- How the checks of a single-slot command turn it away: the slot does not exist, or it is closed (R802, R803). -/
def TurnedAway (s : State) (n : SlotNo) (s' : State) : Prop :=
  (s.slot? n = none ∧ s' = s.raise .illegalCommand) ∨
    ∃ t, s.slot? n = some t ∧ t.isOpen = false ∧ s' = s.raise .disposed

theorem TurnedAway.raises {s s' : State} {n : SlotNo} (h : TurnedAway s n s') : ∃ e, s' = s.raise e := by
  rcases h with ⟨-, h⟩ | ⟨t, -, -, h⟩ <;> exact ⟨_, h⟩

theorem State.onSlot_next {s s' : State} {n : SlotNo} {k : Slot → Result} (h : s.onSlot n k = .next s') :
    (s.slot? n = none ∧ s' = s.raise .illegalCommand) ∨ ∃ t, s.slot? n = some t ∧ k t = .next s' := by
  cases hs : s.slot? n with
  | none =>
    rw [State.onSlot_of_none hs] at h
    cases h
    exact .inl ⟨rfl, rfl⟩
  | some t =>
    rw [State.onSlot_of_some hs] at h
    exact .inr ⟨t, rfl, h⟩

theorem State.onOpenSlot_next {s s' : State} {n : SlotNo} {k : Slot → Result} (h : s.onOpenSlot n k = .next s') :
    TurnedAway s n s' ∨ ∃ t, s.slot? n = some t ∧ t.isOpen = true ∧ k t = .next s' := by
  rcases State.onSlot_next h with h | ⟨t, ht, hk⟩
  · exact .inl (.inl h)
  · cases ho : t.isOpen
    · simp only [ho, Bool.false_eq_true, if_false, State.fail] at hk
      cases hk
      exact .inl (.inr ⟨t, ht, ho, rfl⟩)
    · simp only [ho, if_true] at hk
      exact .inr ⟨t, ht, ho, hk⟩

/-- A single-slot command whose slot is there and open answers a next state if what follows does. -/
theorem State.fail_eq (s : State) (e : Err) : s.fail e = .next (s.raise e) := rfl

/-! ## Queries -/

theorem query_next {f : Slot → Nat} {sd : SlotNo} {s s' : State} (h : query f sd s = .next s') :
    TurnedAway s sd s' ∨ ∃ t, s.slot? sd = some t ∧ t.isOpen = true ∧
      s' = { s with r0 := countValue (f t), err := okStatus } := by
  rcases State.onOpenSlot_next h with h | ⟨t, ht, ho, hk⟩
  · exact .inl h
  · cases hk
    exact .inr ⟨t, ht, ho, rfl⟩

/-! ## Writes -/

theorem commitWrite_next {sd : SlotNo} {t t' : Slot} {T : Nat} {s s' : State} (h : commitWrite sd t T t' s = .next s') :
    (s.params.maxWords < t.reserve T ∧ s' = s.raise .capacityExceeded) ∨
      (t.reserve T ≤ s.params.maxWords ∧ s' = (s.setSlot sd t').ok) := by
  unfold commitWrite at h
  split at h
  · cases h
    exact .inl ⟨by omega, rfl⟩
  · cases h
    exact .inr ⟨by omega, rfl⟩

theorem scalarWrite_next {W : Nat} {sd : SlotNo} {s s' : State} (h : scalarWrite W sd s = .next s') :
    TurnedAway s sd s' ∨ ∃ t, s.slot? sd = some t ∧ t.isOpen = true ∧
      ((s.params.maxWords < t.reserve W ∧ s' = s.raise .capacityExceeded) ∨
        (t.reserve W ≤ s.params.maxWords ∧ s' = (s.setSlot sd (t.writeValue s.a0 W 0 W)).ok)) := by
  rcases State.onOpenSlot_next h with h | ⟨t, ht, ho, hk⟩
  · exact .inl h
  · exact .inr ⟨t, ht, ho, commitWrite_next hk⟩

/-- `ValidRange` holds exactly of the pairs R604 lists. -/
theorem validRange_iff (W : Nat) (b c : Int) : validRange W b c = true ↔ 0 ≤ b ∧ 0 ≤ c ∧ b + c ≤ W := by
  simp [validRange]
  omega

/-- A legal pair as natural numbers. -/
theorem validRange_toNat {W : Nat} {b c : Int} (h : validRange W b c = true) : b.toNat + c.toNat ≤ W := by
  rw [validRange_iff] at h
  omega

theorem subrangeWrite_next {W : Nat} {sd : SlotNo} {s s' : State} (h : subrangeWrite W sd s = .next s') :
    TurnedAway s sd s' ∨ ∃ t, s.slot? sd = some t ∧ t.isOpen = true ∧
      ((validRange W (sint64 s.a1) (sint64 s.a2) = false ∧ s' = s.raise .invalidArg) ∨
        (validRange W (sint64 s.a1) (sint64 s.a2) = true ∧
          ((s.params.maxWords < t.reserve (sint64 s.a2).toNat ∧ s' = s.raise .capacityExceeded) ∨
            (t.reserve (sint64 s.a2).toNat ≤ s.params.maxWords ∧
              s' = (s.setSlot sd (t.writeValue s.a0 W (sint64 s.a1).toNat (sint64 s.a2).toNat)).ok)))) := by
  rcases State.onOpenSlot_next h with h | ⟨t, ht, ho, hk⟩
  · exact .inl h
  · refine .inr ⟨t, ht, ho, ?_⟩
    dsimp only at hk
    split at hk
    · rename_i hv
      exact .inr ⟨hv, commitWrite_next hk⟩
    · rename_i hv
      cases hk
      exact .inl ⟨by simpa using hv, rfl⟩

/-! ## Reads -/

theorem scalarRead_next {W : Nat} {sd : SlotNo} {s s' : State} (h : scalarRead W sd s = .next s') :
    TurnedAway s sd s' ∨ ∃ t, s.slot? sd = some t ∧ t.isOpen = true ∧ s' = s.afterRead sd (t.readValue W 0 W) := by
  rcases State.onOpenSlot_next h with h | ⟨t, ht, ho, hk⟩
  · exact .inl h
  · cases hk
    exact .inr ⟨t, ht, ho, rfl⟩

theorem subrangeRead_next {W : Nat} {sd : SlotNo} {s s' : State} (h : subrangeRead W sd s = .next s') :
    TurnedAway s sd s' ∨ ∃ t, s.slot? sd = some t ∧ t.isOpen = true ∧
      ((validRange W (sint64 s.a1) (sint64 s.a2) = false ∧ s' = s.raise .invalidArg) ∨
        (validRange W (sint64 s.a1) (sint64 s.a2) = true ∧
          s' = s.afterRead sd (t.readValue W (sint64 s.a1).toNat (sint64 s.a2).toNat))) := by
  rcases State.onOpenSlot_next h with h | ⟨t, ht, ho, hk⟩
  · exact .inl h
  · refine .inr ⟨t, ht, ho, ?_⟩
    dsimp only at hk
    split at hk
    · rename_i hv
      cases hk
      exact .inr ⟨hv, rfl⟩
    · rename_i hv
      cases hk
      exact .inl ⟨by simpa using hv, rfl⟩

/-- `RDBYTE` (R640): a scalar read of 8 bits, with the sentinel in `R0` when no bit was read. -/
theorem execRdbyte_next {sd : SlotNo} {s s' : State} (h : execRdbyte sd s = .next s') :
    TurnedAway s sd s' ∨ ∃ t, s.slot? sd = some t ∧ t.isOpen = true ∧
      s' = { s.afterRead sd (t.readValue 8 0 8) with
        r0 := if (t.readValue 8 0 8).count = 0 then 0xFFFFFFFFFFFFFFFF#64 else (t.readValue 8 0 8).value } := by
  rcases State.onOpenSlot_next h with h | ⟨t, ht, ho, hk⟩
  · exact .inl h
  · refine .inr ⟨t, ht, ho, ?_⟩
    dsimp only at hk
    split at hk <;> (rename_i hc; cases hk; simp [hc, State.afterRead, State.ok])

/-! ## Arrays -/

/-- The three outcomes of the buffer check (R605). -/
theorem ArrayArgs.check_cases (a : ArrayArgs) (n : Nat) :
    (a.check n = some .invalidArg ∧ (a.off < 0 ∨ a.cnt < 0 ∨ a.off + a.cnt > a.len)) ∨
      (a.check n = some .tmemRange ∧ (0 ≤ a.off ∧ 0 ≤ a.cnt ∧ a.off + a.cnt ≤ a.len) ∧
        (a.base < 0 ∨ a.base + a.len > (n : Int))) ∨
      (a.check n = none ∧ (0 ≤ a.off ∧ 0 ≤ a.cnt ∧ a.off + a.cnt ≤ a.len) ∧ 0 ≤ a.base ∧ a.base + a.len ≤ (n : Int)) := by
  unfold ArrayArgs.check
  split
  · rename_i h
    exact .inl ⟨rfl, h⟩
  · rename_i h
    split
    · rename_i h'
      exact .inr (.inl ⟨rfl, by omega, h'⟩)
    · rename_i h'
      exact .inr (.inr ⟨rfl, by omega, by omega⟩)

/-- The elements of a legal buffer lie inside TMEM. -/
theorem ArrayArgs.inside {a : ArrayArgs} {n : Nat} (h : a.check n = none) : a.start + a.count ≤ n := by
  rcases a.check_cases n with ⟨h', -⟩ | ⟨h', -⟩ | ⟨-, h1, h2⟩
  · rw [h] at h'; cases h'
  · rw [h] at h'; cases h'
  · unfold ArrayArgs.start ArrayArgs.count
    omega

theorem arrayWrite_next {W : Nat} {sd : SlotNo} {s s' : State} (h : arrayWrite W sd s = .next s') :
    TurnedAway s sd s' ∨ ∃ t, s.slot? sd = some t ∧ t.isOpen = true ∧
      ((∃ e, s.arrayArgs.check s.params.tmemEntries = some e ∧ s' = s.raise e) ∨
        (s.arrayArgs.check s.params.tmemEntries = none ∧
          ((s.params.maxWords < t.reserve (s.arrayArgs.count * W) ∧ s' = s.raise .capacityExceeded) ∨
            (t.reserve (s.arrayArgs.count * W) ≤ s.params.maxWords ∧
              ∃ es, s.tmem.readEntries s.arrayArgs.start s.arrayArgs.count = .ok es ∧
                s' = (s.setSlot sd (t.writeElements W es)).ok)))) := by
  rcases State.onOpenSlot_next h with h | ⟨t, ht, ho, hk⟩
  · exact .inl h
  · refine .inr ⟨t, ht, ho, ?_⟩
    dsimp only at hk
    split at hk
    · rename_i e he
      cases hk
      exact .inl ⟨e, he, rfl⟩
    · rename_i he
      refine .inr ⟨he, ?_⟩
      split at hk
      · cases hk
        exact .inl ⟨by omega, rfl⟩
      · refine .inr ⟨by omega, ?_⟩
        split at hk
        · cases hk
        · rename_i es hes
          cases hk
          exact ⟨es, hes, rfl⟩

theorem arrayRead_next {W : Nat} {sd : SlotNo} {s s' : State} (h : arrayRead W sd s = .next s') :
    TurnedAway s sd s' ∨ ∃ t, s.slot? sd = some t ∧ t.isOpen = true ∧
      ((∃ e, s.arrayArgs.check s.params.tmemEntries = some e ∧ s' = s.raise e) ∨
        (s.arrayArgs.check s.params.tmemEntries = none ∧
          s' = { s.setSlot sd (Slot.readElements W s.arrayArgs.count t s.tmem s.arrayArgs.start).slot with
            tmem := (Slot.readElements W s.arrayArgs.count t s.tmem s.arrayArgs.start).tmem
            r1 := countValue (Slot.readElements W s.arrayArgs.count t s.tmem s.arrayArgs.start).total
            err := okStatus })) := by
  rcases State.onOpenSlot_next h with h | ⟨t, ht, ho, hk⟩
  · exact .inl h
  · refine .inr ⟨t, ht, ho, ?_⟩
    dsimp only at hk
    split at hk
    · rename_i e he
      cases hk
      exact .inl ⟨e, he, rfl⟩
    · rename_i he
      cases hk
      exact .inr ⟨he, rfl⟩

/-! ## Logical and shift commands -/

theorem combine_next {f : Bool → Bool → Bool} {sd sa sb : SlotNo} {s s' : State} (h : combine f sd sa sb s = .next s') :
    ((s.slot? sd = none ∨ s.slot? sa = none ∨ s.slot? sb = none) ∧ s' = s.raise .illegalCommand) ∨
      ∃ d a b, s.slot? sd = some d ∧ s.slot? sa = some a ∧ s.slot? sb = some b ∧
        (((a.isOpen = false ∨ b.isOpen = false) ∧ s' = s.raise .disposed) ∨
          (a.isOpen = true ∧ b.isOpen = true ∧ a.len ≠ b.len ∧ s' = s.raise .invalidArg) ∨
          (a.isOpen = true ∧ b.isOpen = true ∧ a.len = b.len ∧
            s' = (s.setSlot sd (a.build fun p => f (a.bit p) (b.bit p))).ok)) := by
  rcases State.onSlot_next h with ⟨hn, h⟩ | ⟨d, hd, h⟩
  · exact .inl ⟨.inl hn, h⟩
  rcases State.onSlot_next h with ⟨hn, h⟩ | ⟨a, ha, h⟩
  · exact .inl ⟨.inr (.inl hn), h⟩
  rcases State.onSlot_next h with ⟨hn, h⟩ | ⟨b, hb, h⟩
  · exact .inl ⟨.inr (.inr hn), h⟩
  refine .inr ⟨d, a, b, hd, ha, hb, ?_⟩
  cases hao : a.isOpen
  · simp only [hao, Bool.not_false, if_true, State.fail] at h
    cases h
    exact .inl ⟨.inl rfl, rfl⟩
  · cases hbo : b.isOpen
    · simp only [hao, hbo, Bool.not_true, Bool.not_false, Bool.false_eq_true, if_false, if_true, State.fail] at h
      cases h
      exact .inl ⟨.inr rfl, rfl⟩
    · simp only [hao, hbo, Bool.not_true, Bool.false_eq_true, if_false] at h
      split at h
      · rename_i hl
        cases h
        exact .inr (.inl ⟨rfl, rfl, hl, rfl⟩)
      · rename_i hl
        cases h
        exact .inr (.inr ⟨rfl, rfl, by omega, rfl⟩)

theorem execNot_next {sd sa : SlotNo} {s s' : State} (h : execNot sd sa s = .next s') :
    (s.slot? sd = none ∧ s' = s.raise .illegalCommand) ∨ ∃ d, s.slot? sd = some d ∧
      (TurnedAway s sa s' ∨ ∃ a, s.slot? sa = some a ∧ a.isOpen = true ∧
        s' = (s.setSlot sd (a.build fun p => !(a.bit p))).ok) := by
  rcases State.onSlot_next h with h | ⟨d, hd, h⟩
  · exact .inl h
  · refine .inr ⟨d, hd, ?_⟩
    rcases State.onOpenSlot_next h with h | ⟨a, ha, hao, hk⟩
    · exact .inl h
    · cases hk
      exact .inr ⟨a, ha, hao, rfl⟩

theorem shift_next {f : Slot → Nat → Nat → Bool} {sd sa : SlotNo} {s s' : State} (h : shift f sd sa s = .next s') :
    (s.slot? sd = none ∧ s' = s.raise .illegalCommand) ∨ ∃ d, s.slot? sd = some d ∧
      (TurnedAway s sa s' ∨ ∃ a, s.slot? sa = some a ∧ a.isOpen = true ∧
        ((sint64 s.a0 < 0 ∧ s' = s.raise .invalidArg) ∨
          (0 ≤ sint64 s.a0 ∧ s' = (s.setSlot sd (a.build (f a (sint64 s.a0).toNat))).ok))) := by
  rcases State.onSlot_next h with h | ⟨d, hd, h⟩
  · exact .inl h
  · refine .inr ⟨d, hd, ?_⟩
    rcases State.onOpenSlot_next h with h | ⟨a, ha, hao, hk⟩
    · exact .inl h
    · refine .inr ⟨a, ha, hao, ?_⟩
      dsimp only at hk
      split at hk
      · rename_i hn
        cases hk
        exact .inl ⟨hn, rfl⟩
      · rename_i hn
        cases hk
        exact .inr ⟨by omega, rfl⟩

/-! ## Lifecycle and cursor -/

theorem execInit_next {sd : SlotNo} {s s' : State} (h : execInit sd s = .next s') :
    (s.slot? sd = none ∧ s' = s.raise .illegalCommand) ∨
      ∃ t, s.slot? sd = some t ∧ s' = (s.setSlot sd Slot.empty).ok := by
  rcases State.onSlot_next h with h | ⟨t, ht, h⟩
  · exact .inl h
  · cases h
    exact .inr ⟨t, ht, rfl⟩

theorem execInitc_next {sd : SlotNo} {s s' : State} (h : execInitc sd s = .next s') :
    (s.slot? sd = none ∧ s' = s.raise .illegalCommand) ∨ ∃ t, s.slot? sd = some t ∧
      ((sint64 s.a0 < 0 ∧ s' = s.raise .invalidArg) ∨
        (0 ≤ sint64 s.a0 ∧ s.params.maxWords < wordsForBits (sint64 s.a0).toNat ∧ s' = s.raise .capacityExceeded) ∨
        (0 ≤ sint64 s.a0 ∧ wordsForBits (sint64 s.a0).toNat ≤ s.params.maxWords ∧
          s' = (s.setSlot sd { isOpen := true, words := List.replicate (wordsForBits (sint64 s.a0).toNat) 0#32,
                               len := 0, pos := 0 }).ok)) := by
  rcases State.onSlot_next h with h | ⟨t, ht, h⟩
  · exact .inl h
  · refine .inr ⟨t, ht, ?_⟩
    dsimp only at h
    split at h
    · rename_i hn
      cases h
      exact .inl ⟨hn, rfl⟩
    · split at h
      · cases h
        exact .inr (.inl ⟨by omega, by omega, rfl⟩)
      · cases h
        exact .inr (.inr ⟨by omega, by omega, rfl⟩)

theorem execClose_next {sd : SlotNo} {s s' : State} (h : execClose sd s = .next s') :
    TurnedAway s sd s' ∨ ∃ t, s.slot? sd = some t ∧ t.isOpen = true ∧
      s' = (s.setSlot sd { t with isOpen := false }).ok := by
  rcases State.onOpenSlot_next h with h | ⟨t, ht, ho, hk⟩
  · exact .inl h
  · cases hk
    exact .inr ⟨t, ht, ho, rfl⟩

theorem execStatus_next {sd : SlotNo} {s s' : State} (h : execStatus sd s = .next s') :
    (s.slot? sd = none ∧ s' = s.raise .illegalCommand) ∨ ∃ t, s.slot? sd = some t ∧
      s' = { s with r0 := if t.isOpen then 3#64 else 0#64, err := okStatus } := by
  rcases State.onSlot_next h with h | ⟨t, ht, h⟩
  · exact .inl h
  · cases h
    exact .inr ⟨t, ht, rfl⟩

theorem execSetpos_next {sd : SlotNo} {s s' : State} (h : execSetpos sd s = .next s') :
    TurnedAway s sd s' ∨ ∃ t, s.slot? sd = some t ∧ t.isOpen = true ∧
      (((sint64 s.a0 < 0 ∨ sint64 s.a0 > (t.len : Int)) ∧ s' = s.raise .outOfRange) ∨
        (0 ≤ sint64 s.a0 ∧ sint64 s.a0 ≤ (t.len : Int) ∧
          s' = (s.setSlot sd { t with pos := (sint64 s.a0).toNat }).ok)) := by
  rcases State.onOpenSlot_next h with h | ⟨t, ht, ho, hk⟩
  · exact .inl h
  · refine .inr ⟨t, ht, ho, ?_⟩
    dsimp only at hk
    split at hk
    · rename_i hn
      cases hk
      exact .inl ⟨hn, rfl⟩
    · cases hk
      exact .inr ⟨by omega, by omega, rfl⟩

/-! ## The host port -/

/-- A step with an event pending is that event on the state without it. -/
theorem step_of_pending {s : State} {e : HostEvent} {rest : List HostEvent} (h : s.pending = e :: rest) :
    step s = accept e { s with pending := rest } := by
  simp [step, stepOnce, h]

/-- A command event is the command register's write. -/
theorem accept_command (s : State) (c : Word) : accept (commandEvent s.params c) s = runCommand c s := by
  have h : hostTarget s.params s.params.bseBase .w32 = some .cmd := by
    simp [hostTarget, windowAt, registerAt]
  simp only [accept, commandEvent, h, hostWriteAt]
  congr 1
  apply BitVec.eq_of_getLsbD_eq
  intro i hi
  simp [hi]

/-- Everything an accepted host read can do: it answers a value and changes nothing else. -/
theorem hostReadAt_next {g : Target} {s s' : State} (h : hostReadAt g s = .next s') : ∃ v, s' = s.answer v := by
  cases g <;> simp only [hostReadAt] at h
  case tmem i =>
    split at h
    · cases h
    · cases h
      exact ⟨_, rfl⟩
  all_goals (cases h; exact ⟨_, rfl⟩)

/-- Everything an accepted host write can do: run a command, be ignored, or replace one argument register or TMEM entry. -/
theorem hostWriteAt_next {g : Target} {v : Value} {s s' : State} (h : hostWriteAt g v s = .next s') :
    (g = .cmd ∧ runCommand (v.setWidth 32) s = .next s') ∨ s' = s ∨ s' = { s with a0 := v } ∨ s' = { s with a1 := v } ∨
      s' = { s with a2 := v } ∨ s' = { s with a3 := v } ∨ ∃ i, g = .tmem i ∧ s' = { s with tmem := s.tmem.write i v } := by
  cases g <;> simp only [hostWriteAt] at h
  case cmd => exact .inl ⟨rfl, h⟩
  all_goals (cases h; simp)

/-- A TMEM target lies below TMEM_ENTRIES. -/
theorem hostTarget_tmem {p : Params} {addr i : Nat} {w : BusWidth} (h : hostTarget p addr w = some (.tmem i)) :
    i < p.tmemEntries := by
  unfold hostTarget at h
  split at h
  · cases h
  · unfold windowAt at h
    split at h
    · unfold registerAt at h
      split at h <;> cases h
    · split at h
      · split at h <;> cases h
      · split at h
        · rename_i hc
          cases h
          exact hc.2.2
        · cases h

end Sys2Proof.Machine
end

