-- ==== Sys2Proof/Laws/PerInstr.lean ====
section
/-!
SUPPORT. The family RowMatch: the encoding of every command lies in the command's row of spec/opcode_table.json (R300), for
every operand. One lemma per constructor.
-/

namespace Sys2Proof.Laws

/-- The command's word matches its opcode-table row. -/
def RowMatch.Statement (i : Instr) : Prop := i.row.matchesWord (encode i) = true

theorem encodeS_masked (opc : BitVec 8) (sd : SlotNo) :
    encodeS opc sd &&& 0xFFFFF0FF#32 = opc.setWidth 32 := by
  apply BitVec.eq_of_getLsbD_eq
  intro i hi
  rw [BitVec.getLsbD_and, encodeS_getLsbD]
  interval_cases i <;> simp

theorem encodeSW_masked (opc : BitVec 8) (wid : BitVec 3) (sd : SlotNo) :
    encodeSW opc wid sd &&& 0xFFFFF0FF#32 = encodeSW opc wid 0#4 := by
  apply BitVec.eq_of_getLsbD_eq
  intro i hi
  rw [BitVec.getLsbD_and, encodeSW_getLsbD, encodeSW_getLsbD]
  interval_cases i <;> simp

theorem encodeDAB_masked (opc : BitVec 8) (sd sa sb : SlotNo) :
    encodeDAB opc sd sa sb &&& 0xFFF000FF#32 = opc.setWidth 32 := by
  apply BitVec.eq_of_getLsbD_eq
  intro i hi
  rw [BitVec.getLsbD_and, encodeDAB_getLsbD]
  interval_cases i <;> simp

theorem encodeDA_masked (opc : BitVec 8) (sd sa : SlotNo) :
    encodeDA opc sd sa &&& 0xFFFF00FF#32 = opc.setWidth 32 := by
  apply BitVec.eq_of_getLsbD_eq
  intro i hi
  rw [BitVec.getLsbD_and, encodeDA_getLsbD]
  interval_cases i <;> simp

theorem RowMatch.init (sd : SlotNo) : RowMatch.Statement (.init sd) :=
  beq_iff_eq.mpr (encodeS_masked _ _)

theorem RowMatch.initc (sd : SlotNo) : RowMatch.Statement (.initc sd) :=
  beq_iff_eq.mpr (encodeS_masked _ _)

theorem RowMatch.close (sd : SlotNo) : RowMatch.Statement (.close sd) :=
  beq_iff_eq.mpr (encodeS_masked _ _)

theorem RowMatch.status (sd : SlotNo) : RowMatch.Statement (.status sd) :=
  beq_iff_eq.mpr (encodeS_masked _ _)

theorem RowMatch.getpos (sd : SlotNo) : RowMatch.Statement (.getpos sd) :=
  beq_iff_eq.mpr (encodeS_masked _ _)

theorem RowMatch.setpos (sd : SlotNo) : RowMatch.Statement (.setpos sd) :=
  beq_iff_eq.mpr (encodeS_masked _ _)

theorem RowMatch.getlen (sd : SlotNo) : RowMatch.Statement (.getlen sd) :=
  beq_iff_eq.mpr (encodeS_masked _ _)

theorem RowMatch.getlen8 (sd : SlotNo) : RowMatch.Statement (.getlen8 sd) :=
  beq_iff_eq.mpr (encodeS_masked _ _)

theorem RowMatch.getlen16 (sd : SlotNo) : RowMatch.Statement (.getlen16 sd) :=
  beq_iff_eq.mpr (encodeS_masked _ _)

theorem RowMatch.getlen32 (sd : SlotNo) : RowMatch.Statement (.getlen32 sd) :=
  beq_iff_eq.mpr (encodeS_masked _ _)

theorem RowMatch.getlen64 (sd : SlotNo) : RowMatch.Statement (.getlen64 sd) :=
  beq_iff_eq.mpr (encodeS_masked _ _)

theorem RowMatch.getcap (sd : SlotNo) : RowMatch.Statement (.getcap sd) :=
  beq_iff_eq.mpr (encodeS_masked _ _)

theorem RowMatch.wr1 (sd : SlotNo) : RowMatch.Statement (.wr1 sd) :=
  beq_iff_eq.mpr (encodeSW_masked _ _ _)

theorem RowMatch.wr8 (sd : SlotNo) : RowMatch.Statement (.wr8 sd) :=
  beq_iff_eq.mpr (encodeSW_masked _ _ _)

theorem RowMatch.wr16 (sd : SlotNo) : RowMatch.Statement (.wr16 sd) :=
  beq_iff_eq.mpr (encodeSW_masked _ _ _)

theorem RowMatch.wr32 (sd : SlotNo) : RowMatch.Statement (.wr32 sd) :=
  beq_iff_eq.mpr (encodeSW_masked _ _ _)

theorem RowMatch.wr64 (sd : SlotNo) : RowMatch.Statement (.wr64 sd) :=
  beq_iff_eq.mpr (encodeSW_masked _ _ _)

theorem RowMatch.wrr1 (sd : SlotNo) : RowMatch.Statement (.wrr1 sd) :=
  beq_iff_eq.mpr (encodeSW_masked _ _ _)

theorem RowMatch.wrr8 (sd : SlotNo) : RowMatch.Statement (.wrr8 sd) :=
  beq_iff_eq.mpr (encodeSW_masked _ _ _)

theorem RowMatch.wrr16 (sd : SlotNo) : RowMatch.Statement (.wrr16 sd) :=
  beq_iff_eq.mpr (encodeSW_masked _ _ _)

theorem RowMatch.wrr32 (sd : SlotNo) : RowMatch.Statement (.wrr32 sd) :=
  beq_iff_eq.mpr (encodeSW_masked _ _ _)

theorem RowMatch.wrr64 (sd : SlotNo) : RowMatch.Statement (.wrr64 sd) :=
  beq_iff_eq.mpr (encodeSW_masked _ _ _)

theorem RowMatch.rd1 (sd : SlotNo) : RowMatch.Statement (.rd1 sd) :=
  beq_iff_eq.mpr (encodeSW_masked _ _ _)

theorem RowMatch.rd8 (sd : SlotNo) : RowMatch.Statement (.rd8 sd) :=
  beq_iff_eq.mpr (encodeSW_masked _ _ _)

theorem RowMatch.rd16 (sd : SlotNo) : RowMatch.Statement (.rd16 sd) :=
  beq_iff_eq.mpr (encodeSW_masked _ _ _)

theorem RowMatch.rd32 (sd : SlotNo) : RowMatch.Statement (.rd32 sd) :=
  beq_iff_eq.mpr (encodeSW_masked _ _ _)

theorem RowMatch.rd64 (sd : SlotNo) : RowMatch.Statement (.rd64 sd) :=
  beq_iff_eq.mpr (encodeSW_masked _ _ _)

theorem RowMatch.rdr1 (sd : SlotNo) : RowMatch.Statement (.rdr1 sd) :=
  beq_iff_eq.mpr (encodeSW_masked _ _ _)

theorem RowMatch.rdr8 (sd : SlotNo) : RowMatch.Statement (.rdr8 sd) :=
  beq_iff_eq.mpr (encodeSW_masked _ _ _)

theorem RowMatch.rdr16 (sd : SlotNo) : RowMatch.Statement (.rdr16 sd) :=
  beq_iff_eq.mpr (encodeSW_masked _ _ _)

theorem RowMatch.rdr32 (sd : SlotNo) : RowMatch.Statement (.rdr32 sd) :=
  beq_iff_eq.mpr (encodeSW_masked _ _ _)

theorem RowMatch.rdr64 (sd : SlotNo) : RowMatch.Statement (.rdr64 sd) :=
  beq_iff_eq.mpr (encodeSW_masked _ _ _)

theorem RowMatch.wra1 (sd : SlotNo) : RowMatch.Statement (.wra1 sd) :=
  beq_iff_eq.mpr (encodeSW_masked _ _ _)

theorem RowMatch.wra8 (sd : SlotNo) : RowMatch.Statement (.wra8 sd) :=
  beq_iff_eq.mpr (encodeSW_masked _ _ _)

theorem RowMatch.wra16 (sd : SlotNo) : RowMatch.Statement (.wra16 sd) :=
  beq_iff_eq.mpr (encodeSW_masked _ _ _)

theorem RowMatch.wra32 (sd : SlotNo) : RowMatch.Statement (.wra32 sd) :=
  beq_iff_eq.mpr (encodeSW_masked _ _ _)

theorem RowMatch.wra64 (sd : SlotNo) : RowMatch.Statement (.wra64 sd) :=
  beq_iff_eq.mpr (encodeSW_masked _ _ _)

theorem RowMatch.rda1 (sd : SlotNo) : RowMatch.Statement (.rda1 sd) :=
  beq_iff_eq.mpr (encodeSW_masked _ _ _)

theorem RowMatch.rda8 (sd : SlotNo) : RowMatch.Statement (.rda8 sd) :=
  beq_iff_eq.mpr (encodeSW_masked _ _ _)

theorem RowMatch.rda16 (sd : SlotNo) : RowMatch.Statement (.rda16 sd) :=
  beq_iff_eq.mpr (encodeSW_masked _ _ _)

theorem RowMatch.rda32 (sd : SlotNo) : RowMatch.Statement (.rda32 sd) :=
  beq_iff_eq.mpr (encodeSW_masked _ _ _)

theorem RowMatch.rda64 (sd : SlotNo) : RowMatch.Statement (.rda64 sd) :=
  beq_iff_eq.mpr (encodeSW_masked _ _ _)

theorem RowMatch.rdbyte (sd : SlotNo) : RowMatch.Statement (.rdbyte sd) :=
  beq_iff_eq.mpr (encodeS_masked _ _)

theorem RowMatch.and (sd sa sb : SlotNo) : RowMatch.Statement (.and sd sa sb) :=
  beq_iff_eq.mpr (encodeDAB_masked _ _ _ _)

theorem RowMatch.or (sd sa sb : SlotNo) : RowMatch.Statement (.or sd sa sb) :=
  beq_iff_eq.mpr (encodeDAB_masked _ _ _ _)

theorem RowMatch.xor (sd sa sb : SlotNo) : RowMatch.Statement (.xor sd sa sb) :=
  beq_iff_eq.mpr (encodeDAB_masked _ _ _ _)

theorem RowMatch.not (sd sa : SlotNo) : RowMatch.Statement (.not sd sa) :=
  beq_iff_eq.mpr (encodeDA_masked _ _ _)

theorem RowMatch.shl (sd sa : SlotNo) : RowMatch.Statement (.shl sd sa) :=
  beq_iff_eq.mpr (encodeDA_masked _ _ _)

theorem RowMatch.shr (sd sa : SlotNo) : RowMatch.Statement (.shr sd sa) :=
  beq_iff_eq.mpr (encodeDA_masked _ _ _)

end Sys2Proof.Laws
end

