-- ==== Sys2Proof/Laws/Safety.lean ====
section
/-!
SUPPORT. The error conditions of Safety.lean, which follow R802 to R807, against the checks that the meanings make.
-/

namespace Sys2Proof.Machine

/-- The capacity condition is what `Reserve` computes (R503). -/
theorem State.overCapacity_iff {s : State} {n : SlotNo} {t : Slot} (h : s.slot? n = some t) (h1 : 1 ≤ t.nw) (T : Nat) :
    s.overCapacity n T ↔ s.params.maxWords < t.reserve T := by
  have hg := t.reserve_isGrown T h1
  constructor
  · rintro ⟨t', m, ht, hm, hlt⟩
    rw [h] at ht
    cases ht
    rwa [IsGrown.unique hg hm]
  · intro hl
    exact ⟨t, _, h, hg, hl⟩

/-- The sub-range condition is the failure of `ValidRange` (R604). -/
theorem State.badRange_iff {s : State} {W : Nat} :
    s.badRange W ↔ validRange W (sint64 s.a1) (sint64 s.a2) = false := by
  rw [Bool.eq_false_iff, Ne, validRange_iff]
  unfold State.badRange sint64
  omega

/-- The first test of `ValidArray` (R605). -/
theorem ArrayArgs.check_of_badBuffer {s : State} (h : s.badBuffer) :
    s.arrayArgs.check s.params.tmemEntries = some .invalidArg := if_pos h

/-- The second test of `ValidArray`, after the first (R605, R806). -/
theorem ArrayArgs.check_of_bufferOutside {s : State} (h : ¬ s.badBuffer) (h' : s.bufferOutside) :
    s.arrayArgs.check s.params.tmemEntries = some .tmemRange := (if_neg h).trans (if_pos h')

/-- A legal buffer (R605). -/
theorem ArrayArgs.check_of_inside {s : State} (h : ¬ s.badBuffer) (h' : ¬ s.bufferOutside) :
    s.arrayArgs.check s.params.tmemEntries = none := (if_neg h).trans (if_neg h')

end Sys2Proof.Machine
end

