-- ==== Sys2Proof/Tests/Slice0.lean ====
section
/-!
SUPPORT. The model's own tests: well-formedness, the decoding of every command from a word written out from R301 to R307, one or
two small tests per command, each on one step with the expected result taken from the spec's example or corner case of that
command's rule, and for every obligation with hypotheses a state and operands that meet them.
-/

namespace Sys2Proof.Tests

open Sys2Proof.Machine

/-! ## Well-formedness (R304): with four slots, a used slot field of 4 or more is refused -/

theorem test_wf_single_slot : (Instr.init 4).wellFormed 4 = false ∧ (Instr.rdbyte 15).wellFormed 4 = false := by decide

theorem test_wf_destination : (Instr.and 4 0 0).wellFormed 4 = false ∧ (Instr.shl 4 0).wellFormed 4 = false := by decide

theorem test_wf_first_source : (Instr.or 0 4 0).wellFormed 4 = false ∧ (Instr.not 0 4).wellFormed 4 = false := by decide

theorem test_wf_second_source : (Instr.xor 0 0 4).wellFormed 4 = false := by decide

theorem test_wf_accepts : (Instr.and 3 3 3).wellFormed 4 = true ∧ (Instr.wra64 15).wellFormed 16 = true := by decide

/-! ## Decoding: the words of R301 to R307, written out from the tables -/

theorem test_decode_lifecycle : decode 0x00000201#32 = .ok (.init 2) ∧ decode 0x00000302#32 = .ok (.initc 3) ∧
    decode 0x00000F03#32 = .ok (.close 15) ∧ decode 0x00000104#32 = .ok (.status 1) := by decide

theorem test_decode_cursor : decode 0x00000010#32 = .ok (.getpos 0) ∧ decode 0x00000111#32 = .ok (.setpos 1) ∧
    decode 0x00000212#32 = .ok (.getlen 2) ∧ decode 0x00000313#32 = .ok (.getlen8 3) ∧
    decode 0x00000414#32 = .ok (.getlen16 4) ∧ decode 0x00000515#32 = .ok (.getlen32 5) ∧
    decode 0x00000616#32 = .ok (.getlen64 6) ∧ decode 0x00000717#32 = .ok (.getcap 7) := by decide

theorem test_decode_scalar_write : decode 0x00000020#32 = .ok (.wr1 0) ∧ decode 0x00100120#32 = .ok (.wr8 1) ∧
    decode 0x00200220#32 = .ok (.wr16 2) ∧ decode 0x00300120#32 = .ok (.wr32 1) ∧
    decode 0x00400320#32 = .ok (.wr64 3) := by decide

theorem test_decode_subrange_write : decode 0x00000021#32 = .ok (.wrr1 0) ∧ decode 0x00100121#32 = .ok (.wrr8 1) ∧
    decode 0x00200221#32 = .ok (.wrr16 2) ∧ decode 0x00300121#32 = .ok (.wrr32 1) ∧
    decode 0x00400321#32 = .ok (.wrr64 3) := by decide

theorem test_decode_scalar_read : decode 0x00000022#32 = .ok (.rd1 0) ∧ decode 0x00100122#32 = .ok (.rd8 1) ∧
    decode 0x00200222#32 = .ok (.rd16 2) ∧ decode 0x00300122#32 = .ok (.rd32 1) ∧
    decode 0x00400322#32 = .ok (.rd64 3) := by decide

theorem test_decode_subrange_read : decode 0x00000023#32 = .ok (.rdr1 0) ∧ decode 0x00100123#32 = .ok (.rdr8 1) ∧
    decode 0x00200223#32 = .ok (.rdr16 2) ∧ decode 0x00300123#32 = .ok (.rdr32 1) ∧
    decode 0x00400323#32 = .ok (.rdr64 3) := by decide

theorem test_decode_array_write : decode 0x00000024#32 = .ok (.wra1 0) ∧ decode 0x00100124#32 = .ok (.wra8 1) ∧
    decode 0x00200224#32 = .ok (.wra16 2) ∧ decode 0x00300124#32 = .ok (.wra32 1) ∧
    decode 0x00400324#32 = .ok (.wra64 3) := by decide

theorem test_decode_array_read : decode 0x00000025#32 = .ok (.rda1 0) ∧ decode 0x00100125#32 = .ok (.rda8 1) ∧
    decode 0x00200225#32 = .ok (.rda16 2) ∧ decode 0x00300125#32 = .ok (.rda32 1) ∧
    decode 0x00400325#32 = .ok (.rda64 3) ∧ decode 0x00000226#32 = .ok (.rdbyte 2) := by decide

theorem test_decode_logical : decode 0x00010330#32 = .ok (.and 3 0 1) ∧ decode 0x00023131#32 = .ok (.or 1 3 2) ∧
    decode 0x00010232#32 = .ok (.xor 2 0 1) ∧ decode 0x00001233#32 = .ok (.not 2 1) := by decide

theorem test_decode_shift : decode 0x00000340#32 = .ok (.shl 3 0) ∧ decode 0x00001241#32 = .ok (.shr 2 1) := by decide

/-- R308: each kind of word that names no command. -/
theorem test_decode_rejects : decode 0x00000000#32 = .error .unknownOpcode ∧ decode 0x00800001#32 = .error .reservedBits ∧
    decode 0x00500020#32 = .error .reservedWidth ∧ decode 0x00700025#32 = .error .reservedWidth ∧
    decode 0x00100001#32 = .error .unusedField ∧ decode 0x00001026#32 = .error .unusedField ∧
    decode 0x00010020#32 = .error .unusedField ∧ decode 0x00010033#32 = .error .unusedField ∧
    decode 0x00100030#32 = .error .unusedField ∧ decode 0x00000027#32 = .error .unknownOpcode := by decide

/-! ## One command on a small state -/

/-- An open stream. -/
def stream (words : List Word) (len pos : Nat) : Slot := { isOpen := true, words := words, len := len, pos := pos }

/-- The reset machine with the given slots and argument registers. -/
def machine (slots : List Slot) (a0 : Value := 0) (a1 : Value := 0) (a2 : Value := 0) (a3 : Value := 0) : State :=
  { State.reset with slots := slots, a0 := a0, a1 := a1, a2 := a2, a3 := a3 }

/-- The next state, none where there is none. -/
def nextOf : Result → Option State
  | .next s => some s
  | .fault _ => none
  | .refused _ => none

/-- The fault, none where there is none. -/
def faultOf : Result → Option Fault
  | .fault f => some f
  | .next _ => none
  | .refused _ => none

/-- Slot `n` after a command. -/
def slotAfter (r : Result) (n : SlotNo) : Option Slot := (nextOf r).bind fun s => s.slot? n

/-- `R0` and `R1` after a command. -/
def resultAfter (r : Result) : Option (Value × Value) := (nextOf r).map fun s => (s.r0, s.r1)

/-- `ERR` and `STICKY` after a command. -/
def errAfter (r : Result) : Option (Word × Word) := (nextOf r).map fun s => (s.err, s.sticky)

/-- R400, example. -/
theorem test_init_discards : slotAfter (exec (.init 0) (machine [stream [1, 2] 40 8])) 0 = some (stream [0] 0 0) := by decide

/-- R401, example: 100 bits are four words. -/
theorem test_initc_rounds_up : slotAfter (exec (.initc 1) (machine [Slot.empty, Slot.empty] 100)) 1 =
    some (stream [0, 0, 0, 0] 0 0) := by decide

/-- R401: a negative capacity. -/
theorem test_initc_negative : errAfter (exec (.initc 0) (machine [Slot.empty] (-1))) = some (3, 8) := by decide

/-- R402, example. -/
theorem test_close_keeps_words : slotAfter (exec (.close 0) (machine [stream [7] 3 1])) 0 =
    some { stream [7] 3 1 with isOpen := false } := by decide

/-- R402: a second `CLOSE` fails. -/
theorem test_close_twice : errAfter (exec (.close 0) (machine [{ stream [7] 3 1 with isOpen := false }])) = some (2, 4) := by
  decide

/-- R403, example. -/
theorem test_status_closed : resultAfter (exec (.status 0) (machine [{ stream [7] 3 1 with isOpen := false }])) =
    some (0, 0) := by decide

theorem test_status_open : resultAfter (exec (.status 0) (machine [Slot.empty])) = some (3, 0) := by decide

/-- R450, example. -/
theorem test_getpos : resultAfter (exec (.getpos 0) (machine [stream [0x1AB] 9 9])) = some (9, 0) := by decide

/-- R451, example: the length itself is legal. -/
theorem test_setpos_at_length : slotAfter (exec (.setpos 0) (machine [stream [5] 16 0] 16)) 0 = some (stream [5] 16 16) := by
  decide

/-- R451, example: one past the length is not. -/
theorem test_setpos_past_length : errAfter (exec (.setpos 0) (machine [stream [5] 16 0] 17)) = some (4, 16) := by decide

/-- R452 to R457, examples. -/
theorem test_getlen : resultAfter (exec (.getlen 0) (machine [stream [1] 2 2])) = some (2, 0) := by decide

theorem test_getlen8 : resultAfter (exec (.getlen8 0) (machine [stream [1] 12 2])) = some (2, 0) := by decide

theorem test_getlen16 : resultAfter (exec (.getlen16 0) (machine [stream [1, 1] 40 2])) = some (3, 0) := by decide

theorem test_getlen32 : resultAfter (exec (.getlen32 0) (machine [stream [1, 1] 40 2])) = some (2, 0) := by decide

theorem test_getlen64 : resultAfter (exec (.getlen64 0) (machine [stream [1, 1] 40 2])) = some (1, 0) := by decide

theorem test_getcap : resultAfter (exec (.getcap 0) (machine [stream [1, 1] 40 2])) = some (64, 0) := by decide

/-- R610, corner case: only bit 0 of `A0` is used. -/
theorem test_wr1_uses_bit_0 : slotAfter (exec (.wr1 0) (machine [stream [1] 1 1] 0xFE)) 0 = some (stream [1] 2 2) := by decide

/-- R610: the last bit of the last word, then growth. -/
theorem test_wr1_grows : slotAfter (exec (.wr1 0) (machine [stream [5] 32 32] 1)) 0 = some (stream [5, 1] 33 33) := by decide

/-- R611, example. -/
theorem test_wr8 : slotAfter (exec (.wr8 0) (machine [Slot.empty] 0xFFAB)) 0 = some (stream [0xAB] 8 8) := by decide

/-- R612, example: split across a word boundary with growth. -/
theorem test_wr16_splits : slotAfter (exec (.wr16 0) (machine [stream [0x3FFFFFFF] 30 30] 0xBEEF)) 0 =
    some (stream [0xFFFFFFFF, 0x00002FBB] 46 46) := by decide

/-- R613, example. -/
theorem test_wr32 : slotAfter (exec (.wr32 0) (machine [Slot.empty] 0x12345678)) 0 = some (stream [0x12345678] 32 32) := by
  decide

/-- R614, corner case: three words, two doublings. -/
theorem test_wr64_unaligned : slotAfter (exec (.wr64 0) (machine [stream [0] 30 30] 0x0123456789ABCDEF)) 0 =
    some (stream [0xC0000000, 0xE26AF37B, 0x0048D159, 0] 94 94) := by decide

/-- R614, example. -/
theorem test_wr64 : slotAfter (exec (.wr64 0) (machine [Slot.empty] 0x0123456789ABCDEF)) 0 =
    some (stream [0x89ABCDEF, 0x01234567] 64 64) := by decide

/-- R807: growth past MAX_WORDS. -/
theorem test_wr_capacity : errAfter (exec (.wr8 0)
    { machine [stream [1] 32 32] 1 with params := { Params.reference with maxWords := 1 } }) = some (6, 64) := by decide

/-- R615, example. -/
theorem test_wrr1_past_width : errAfter (exec (.wrr1 0) (machine [stream [1] 1 1] 1 1 1)) = some (3, 8) := by decide

/-- R616, example (source scenario 4), the second write. -/
theorem test_wrr8_high_nibble : slotAfter (exec (.wrr8 0) (machine [stream [0x0F] 8 4] 0x30 4 4)) 0 =
    some (stream [0x3F] 8 8) := by decide

/-- R617, example. -/
theorem test_wrr16 : slotAfter (exec (.wrr16 0) (machine [Slot.empty] 0xABCD 4 8)) 0 = some (stream [0xBC] 8 8) := by decide

/-- R618, example. -/
theorem test_wrr32 : slotAfter (exec (.wrr32 0) (machine [Slot.empty] 0xDEADBEEF 16 16)) 0 = some (stream [0xDEAD] 16 16) := by
  decide

/-- R618, example: 10 bits from bit 30. -/
theorem test_wrr32_invalid : errAfter (exec (.wrr32 0) (machine [Slot.empty] 0 30 10)) = some (3, 8) := by decide

/-- R619, example: a field across value bit 32. -/
theorem test_wrr64_crosses : slotAfter (exec (.wrr64 0) (machine [Slot.empty] 0xFFFFFFFF00000000 28 8)) 0 =
    some (stream [0xF0] 8 8) := by decide

/-- R619, corner case: `b = 64`, `c = 0` is a legal no-op. -/
theorem test_wrr64_nothing : slotAfter (exec (.wrr64 0) (machine [stream [9] 32 32] 1 64 0)) 0 = some (stream [9] 32 32) := by
  decide

/-- R620, example: a read past the last bit. -/
theorem test_rd1_end : resultAfter (exec (.rd1 0) (machine [stream [1] 2 2])) = some (0, 0) := by decide

/-- R621, corner case: a short read. -/
theorem test_rd8_short : resultAfter (exec (.rd8 0) (machine [stream [5] 3 0])) = some (5, 3) := by decide

/-- R622, example: a value across two words. -/
theorem test_rd16_spans : resultAfter (exec (.rd16 0) (machine [stream [0xEF000000, 0xBE] 40 24])) = some (0xBEEF, 16) := by
  decide

/-- R623, example. -/
theorem test_rd32 : resultAfter (exec (.rd32 0) (machine [stream [0x12345678] 32 0])) = some (0x12345678, 32) := by decide

/-- R624, corner case. -/
theorem test_rd64_short : resultAfter (exec (.rd64 0) (machine [stream [0x89ABCDEF, 0x01234567] 64 8])) =
    some (0x000123456789ABCD, 56) := by decide

/-- R625, example: count 0. -/
theorem test_rdr1_nothing : resultAfter (exec (.rdr1 0) (machine [stream [1] 1 0])) = some (0, 0) := by decide

/-- R626, example: the bits land at `b`. -/
theorem test_rdr8_placed : resultAfter (exec (.rdr8 0) (machine [stream [0xAB] 8 0] 0 4 4)) = some (0xB0, 4) := by decide

/-- R627, example. -/
theorem test_rdr16 : resultAfter (exec (.rdr16 0) (machine [stream [0xABCD] 16 0] 0 8 8)) = some (0xCD00, 8) := by decide

/-- R627, example: 15 bits from bit 2. -/
theorem test_rdr16_invalid : errAfter (exec (.rdr16 0) (machine [stream [0xABCD] 16 8] 0 2 15)) = some (3, 8) := by decide

/-- R628, example. -/
theorem test_rdr32 : resultAfter (exec (.rdr32 0) (machine [stream [0x12345678] 32 4] 0 16 16)) = some (0x45670000, 16) := by
  decide

/-- R629, example: a field across value bit 32. -/
theorem test_rdr64_crosses : resultAfter (exec (.rdr64 0) (machine [stream [0x89ABCDEF, 0x01234567] 64 0] 0 28 8)) =
    some (0x0000000EF0000000, 8) := by decide

/-- R629, example: the short read of all 64 bits from position 40. -/
theorem test_rdr64_short : resultAfter (exec (.rdr64 0) (machine [stream [0x89ABCDEF, 0x01234567] 64 40] 0 0 64)) =
    some (0x12345, 24) := by decide

/-- R630, example. -/
theorem test_wra1 : slotAfter (exec (.wra1 0)
    { machine [Slot.empty] 0 4 1 3 with tmem := [(0, 1), (1, 0), (2, 0xFF), (3, 1)] }) 0 = some (stream [6] 3 3) := by decide

/-- R631, example (source scenario 5). -/
theorem test_wra8 : slotAfter (exec (.wra8 0)
    { machine [Slot.empty] 0 5 0 5 with tmem := [(0, 0x11), (1, 0x22), (2, 0x33), (3, 0x44), (4, 0x55)] }) 0 =
    some (stream [0x44332211, 0x55] 40 40) := by decide

/-- R900, D30: an entry that nothing has written. -/
theorem test_wra8_unwritten : faultOf (exec (.wra8 0) { machine [Slot.empty] 0 3 0 3 with tmem := [(0, 1), (2, 1)] }) =
    some (.tmemUnwritten 1) := by decide

/-- R632, example. -/
theorem test_wra16 : slotAfter (exec (.wra16 0)
    { machine [Slot.empty] 0 2 0 2 with tmem := [(0, 0x1234), (1, 0xFFFFABCD)] }) 0 = some (stream [0xABCD1234] 32 32) := by
  decide

/-- R633, example. -/
theorem test_wra32 : slotAfter (exec (.wra32 0)
    { machine [Slot.empty] 0 2 0 2 with tmem := [(0, 0xDEADBEEF), (1, 0xCAFEF00D)] }) 0 =
    some (stream [0xDEADBEEF, 0xCAFEF00D] 64 64) := by decide

/-- R634, example. -/
theorem test_wra64 : slotAfter (exec (.wra64 0) { machine [Slot.empty] 0 1 0 1 with tmem := [(0, 0x0123456789ABCDEF)] }) 0 =
    some (stream [0x89ABCDEF, 0x01234567] 64 64) := by decide

/-- R631, corner case: an empty buffer just past TMEM is legal, one entry is not. -/
theorem test_wra64_at_end : errAfter (exec (.wra64 0) (machine [Slot.empty] 16 0 0 0)) = some (0, 0) ∧
    errAfter (exec (.wra64 0) (machine [Slot.empty] 16 1 0 0)) = some (5, 32) := by decide

/-- R635, example. -/
theorem test_rda1 : (nextOf (exec (.rda1 0) (machine [stream [6] 3 0] 8 4 0 4))).map (fun s => (s.tmem, s.r1)) =
    some ([(8, 0), (9, 1), (10, 1), (11, 0)], 3) := by decide

/-- R636, example. -/
theorem test_rda8 : (nextOf (exec (.rda8 0) (machine [stream [0x44332211, 0x55] 40 0] 8 5 0 5))).map
    (fun s => (s.tmem, s.r1)) = some ([(8, 0x11), (9, 0x22), (10, 0x33), (11, 0x44), (12, 0x55)], 40) := by decide

/-- R636, C4: ten elements of a buffer of five. -/
theorem test_rda8_invalid : errAfter (exec (.rda8 0) (machine [Slot.empty] 8 5 0 10)) = some (3, 8) := by decide

/-- R637, example. -/
theorem test_rda16 : (nextOf (exec (.rda16 0) (machine [stream [0xABCD1234] 32 0] 0 3 0 3))).map
    (fun s => (s.tmem, s.r1)) = some ([(0, 0x1234), (1, 0xABCD), (2, 0)], 32) := by decide

/-- R638, example. -/
theorem test_rda32 : (nextOf (exec (.rda32 0) (machine [stream [0xDEADBEEF, 0xCAFEF00D] 64 0] 4 3 0 3))).map
    (fun s => (s.tmem, s.r1)) = some ([(4, 0xDEADBEEF), (5, 0xCAFEF00D), (6, 0)], 64) := by decide

/-- R639, example. -/
theorem test_rda64 : (nextOf (exec (.rda64 0) (machine [stream [0x89ABCDEF, 0x01234567] 64 4] 1 1 0 1))).map
    (fun s => (s.tmem, s.r1)) = some ([(1, 0x00123456789ABCDE)], 60) := by decide

/-- R640, example: a short byte is a value. -/
theorem test_rdbyte_short : resultAfter (exec (.rdbyte 0) (machine [stream [0x5AB] 11 8])) = some (5, 3) := by decide

/-- R640, example: the sentinel. -/
theorem test_rdbyte_end : resultAfter (exec (.rdbyte 0) (machine [stream [0x5AB] 11 11])) =
    some (0xFFFFFFFFFFFFFFFF, 0) := by decide

/-- R701, example. -/
theorem test_and : slotAfter (exec (.and 2 0 1) (machine [stream [0xFF00] 16 16, stream [0x0FF0] 16 16, Slot.empty])) 2 =
    some (stream [0xF00] 16 0) := by decide

/-- R702, example. -/
theorem test_or : slotAfter (exec (.or 2 0 1) (machine [stream [0xFF00] 16 16, stream [0x0FF0] 16 16, Slot.empty])) 2 =
    some (stream [0xFFF0] 16 0) := by decide

/-- R703, example. -/
theorem test_xor : slotAfter (exec (.xor 2 0 1) (machine [stream [0xFF00] 16 16, stream [0x0FF0] 16 16, Slot.empty])) 2 =
    some (stream [0xF0F0] 16 0) := by decide

/-- R703, corner case: unequal lengths change no slot. -/
theorem test_xor_lengths : (nextOf (exec (.xor 0 0 1) (machine [stream [0xFF] 8 8, stream [1] 1 1]))).map
    (fun s => (s.slots, s.err)) = some ([stream [0xFF] 8 8, stream [1] 1 1], 3) := by decide

/-- R704, corner case: bits at and above the length stay 0. -/
theorem test_not_partial : slotAfter (exec (.not 0 0) (machine [stream [0x5AB] 11 3])) 0 = some (stream [0x254] 11 0) := by
  decide

/-- R704, corner case: a whole padding word. -/
theorem test_not_padding_word : slotAfter (exec (.not 0 0) (machine [stream [0xAB, 0] 8 8])) 0 =
    some (stream [0x54, 0] 8 0) := by decide

/-- R750, example. -/
theorem test_shl : slotAfter (exec (.shl 1 0) (machine [stream [0xB4] 8 8, Slot.empty] 3)) 1 = some (stream [0x16] 8 0) := by
  decide

/-- R751, example. -/
theorem test_shr : slotAfter (exec (.shr 1 0) (machine [stream [0xB4] 8 8, Slot.empty] 1)) 1 = some (stream [0x68] 8 0) := by
  decide

/-- R751, corner case: across a word boundary. -/
theorem test_shr_words : slotAfter (exec (.shr 0 0) (machine [stream [0x23456789, 1] 40 0] 36)) 0 =
    some (stream [0, 0x90] 40 0) := by decide

/-- R809, example: a closed second source and unequal lengths raise `DISPOSED`. -/
theorem test_precedence : errAfter (exec (.and 0 0 1)
    (machine [stream [0xFF] 8 8, { stream [1] 1 1 with isOpen := false }])) = some (2, 4) := by decide

/-! ## The host port -/

/-- R304, R802: `INIT s4` with four slots, through `CMD`. -/
theorem test_step_illegal_slot : errAfter (step (State.reset.withFetchWord 32 0x00000401)) = some (1, 2) := by decide

/-- R110: the next step runs the word placed. -/
theorem test_step_runs_word : resultAfter (step (State.reset.withFetchWord 32 0x00000104)) = some (3, 0) := by decide

/-- R115, R206: `A1` at its offset, and half of it. -/
theorem test_host_write_a1 :
    (nextOf (step { State.reset with pending := [.write 0x18 .w64 7] })).map (fun s => s.a1) = some 7 ∧
    nextOf (step { State.reset with pending := [.write 0x18 .w32 7] }) = none := by decide

/-- R203: the last TMEM entry, and the one past it. -/
theorem test_host_tmem :
    (nextOf (step { State.reset with pending := [.write 0x1078 .w64 7] })).map (fun s => s.tmem) = some [(15, 7)] ∧
    nextOf (step { State.reset with pending := [.write 0x1080 .w64 7] }) = none := by decide

/-- R322: `WRBYTE s0` is `WR8 s0`. R310: the notation of a command. -/
theorem test_notation : wrbyte 0 = .wr8 0 ∧ assemblyText (.and 2 0 1) = "AND s2, s0, s1" := by decide

/-! ## States and operands that meet the hypotheses of the obligations, at the boundaries of each clause -/

/-- A closed stream. -/
def closedStream : Slot := { isOpen := false, words := [7], len := 3, pos := 1 }

/-- `machine` with MAX_WORDS 1. -/
def oneWord (slots : List Slot) (a0 : Value := 0) (a1 : Value := 0) (a2 : Value := 0) (a3 : Value := 0) : State :=
  { machine slots a0 a1 a2 a3 with params := { Params.reference with maxWords := 1 } }

/-- A full word: the next bit needs a second one. -/
def fullWord : Slot := stream [5] 32 32

theorem witness_RowSelectsCommand : decode 0x00300120#32 = .ok (.wr32 1) ∧
    0x00300120#32 &&& (Instr.wr32 0).row.mask = (Instr.wr32 0).row.matchBits := by decide

theorem witness_StepRunsDecodedCommand :
    (State.reset.withFetchWord 32 0x00300320).pending = [.write 0 .w32 0x00300320#64] ∧
    State.reset.params.bseBase = 0 ∧ decode ((0x00300320#64).setWidth 32) = .ok (.wr32 3) := by decide

theorem witness_IllegalWordRaises_no_row (i : Instr) : 0x00000000#32 &&& i.row.mask ≠ i.row.matchBits := by
  cases i <;> simp [Instr.row]

theorem witness_IllegalWordRaises_slot : decode 0x00000401#32 = .ok (.init 4) ∧ 4 ∈ (Instr.init 4).slotFields ∧
    State.reset.slots.length ≤ (4 : SlotNo).toNat := by decide

theorem witness_InitRule : State.reset.slot? 3 = some Slot.empty := by decide

theorem witness_InitcRule :
    (machine [closedStream] (-1)).slot? 0 = some closedStream ∧ (machine [closedStream] (-1)).a0.toInt < 0 ∧
    (machine [closedStream] 32769).params.maxWords < max 1 (((machine [closedStream] 32769).a0.toInt.toNat + 31) / 32) ∧
    0 ≤ (machine [closedStream] 32768).a0.toInt ∧
    max 1 (((machine [closedStream] 32768).a0.toInt.toNat + 31) / 32) ≤ (machine [closedStream] 32768).params.maxWords ∧
    0 ≤ (machine [closedStream]).a0.toInt ∧
    max 1 (((machine [closedStream]).a0.toInt.toNat + 31) / 32) ≤ (machine [closedStream]).params.maxWords := by decide

/-- For `CloseRule`, `StatusRule`, `QueryRules`, `ScalarReadResult` and `RdbyteRule`: an open slot, at the end of its stream, and a
closed one. -/
theorem witness_open_and_closed : (machine [fullWord, closedStream]).slot? 0 = some fullWord ∧ fullWord.isOpen = true ∧
    (machine [fullWord, closedStream]).slot? 1 = some closedStream ∧ closedStream.isOpen = false := by decide

theorem witness_SetposRule :
    (machine [fullWord, closedStream] 33).slot? 0 = some fullWord ∧ (machine [fullWord] 33).a0.toInt > (fullWord.len : Int) ∧
    (machine [fullWord] (-1)).a0.toInt < 0 ∧ 0 ≤ (machine [fullWord] 0).a0.toInt ∧
    0 ≤ (machine [fullWord] 32).a0.toInt ∧ (machine [fullWord] 32).a0.toInt ≤ (fullWord.len : Int) := by decide

theorem witness_ScalarWriteResult_over : (oneWord [fullWord]).slot? 0 = some fullWord ∧ fullWord.InBounds ∧
    (oneWord [fullWord]).overCapacity 0 1 :=
  ⟨by decide, by decide, (State.overCapacity_iff (by decide : (oneWord [fullWord]).slot? 0 = some fullWord) (by decide) 1).2 (by decide)⟩

theorem witness_ScalarWriteResult_fits : (oneWord [stream [5] 31 31]).slot? 0 = some (stream [5] 31 31) ∧
    (stream [5] 31 31).InBounds ∧ (stream [5] 31 31).isOpen = true ∧ ¬ (oneWord [stream [5] 31 31]).overCapacity 0 1 :=
  ⟨by decide, by decide, by decide, fun h => absurd ((State.overCapacity_iff (by decide : (oneWord [stream [5] 31 31]).slot? 0 = some (stream [5] 31 31)) (by decide) 1).1 h) (by decide)⟩

/-- For `SubrangeWriteResult` and `SubrangeReadResult`: ranges just past the width, and negative. -/
theorem witness_SubrangeResult_bad : (machine [fullWord] 0 60 5).slot? 0 = some fullWord ∧ fullWord.InBounds ∧
    fullWord.isOpen = true ∧ (machine [fullWord] 0 60 5).badRange 64 ∧ (machine [fullWord] 0 (-1) 1).badRange 64 ∧
    (machine [fullWord] 0 0 (-1)).badRange 64 := by
  simp only [State.badRange]
  decide

/-- The empty field at the end of the width, and the whole width, are legal. -/
theorem witness_SubrangeResult_legal : ¬ (machine [fullWord] 0 64 0).badRange 64 ∧ ¬ (machine [fullWord] 0 0 64).badRange 64 := by
  simp only [State.badRange]
  decide

theorem witness_SubrangeWriteResult_over : (oneWord [fullWord] 0 63 1).slot? 0 = some fullWord ∧
    ¬ (oneWord [fullWord] 0 63 1).badRange 64 ∧
    (oneWord [fullWord] 0 63 1).overCapacity 0 (oneWord [fullWord] 0 63 1).a2.toInt.toNat :=
  ⟨by decide, by simp only [State.badRange]; decide,
    (State.overCapacity_iff (by decide : (oneWord [fullWord] 0 63 1).slot? 0 = some fullWord) (by decide) _).2 (by decide)⟩

theorem witness_SubrangeWriteResult_fits : (oneWord [fullWord] 0 64 0).slot? 0 = some fullWord ∧
    ¬ (oneWord [fullWord] 0 64 0).badRange 64 ∧
    ¬ (oneWord [fullWord] 0 64 0).overCapacity 0 (oneWord [fullWord] 0 64 0).a2.toInt.toNat :=
  ⟨by decide, by simp only [State.badRange]; decide, fun h => absurd
    ((State.overCapacity_iff (by decide : (oneWord [fullWord] 0 64 0).slot? 0 = some fullWord) (by decide) _).1 h) (by decide)⟩

/-- For `ArrayWriteResult` and `ArrayReadResult`: `off + cnt` one past the length, and each operand negative. -/
theorem witness_ArrayResult_bad : (machine [fullWord] 0 5 3 3).slot? 0 = some fullWord ∧ fullWord.InBounds ∧
    fullWord.isOpen = true ∧ (machine [fullWord] 0 5 3 3).badBuffer ∧ (machine [fullWord] 0 5 (-1) 1).badBuffer ∧
    (machine [fullWord] 0 5 0 (-1)).badBuffer := by
  simp only [State.badBuffer]
  decide

/-- A legal buffer one entry past TMEM, and one at a negative base. -/
theorem witness_ArrayResult_outside : ¬ (machine [fullWord] 16 1 0 0).badBuffer ∧ (machine [fullWord] 16 1 0 0).bufferOutside ∧
    ¬ (machine [fullWord] (-1) 0 0 0).badBuffer ∧ (machine [fullWord] (-1) 0 0 0).bufferOutside := by
  simp only [State.badBuffer, State.bufferOutside]
  decide

/-- The empty buffer just past TMEM, and the buffer that is all of it. -/
theorem witness_ArrayResult_inside : ¬ (machine [fullWord] 16 0 0 0).badBuffer ∧ ¬ (machine [fullWord] 16 0 0 0).bufferOutside ∧
    ¬ (machine [fullWord] 0 16 0 16).badBuffer ∧ ¬ (machine [fullWord] 0 16 0 16).bufferOutside := by
  simp only [State.badBuffer, State.bufferOutside]
  decide

theorem witness_ArrayWriteResult_over : (oneWord [fullWord] 0 1 0 1).slot? 0 = some fullWord ∧
    ¬ (oneWord [fullWord] 0 1 0 1).badBuffer ∧ ¬ (oneWord [fullWord] 0 1 0 1).bufferOutside ∧
    (oneWord [fullWord] 0 1 0 1).overCapacity 0 ((oneWord [fullWord] 0 1 0 1).a3.toInt.toNat * 1) :=
  ⟨by decide, by simp only [State.badBuffer]; decide, by simp only [State.bufferOutside]; decide,
    (State.overCapacity_iff (by decide : (oneWord [fullWord] 0 1 0 1).slot? 0 = some fullWord) (by decide) _).2 (by decide)⟩

/-- Two entries of which the first is written: the fault clause at entry 1; all written: the element clause. -/
theorem witness_ArrayWriteResult_entries : (machine [fullWord] 0 2 0 2).slot? 0 = some fullWord ∧
    ¬ (machine [fullWord] 0 2 0 2).overCapacity 0 ((machine [fullWord] 0 2 0 2).a3.toInt.toNat * 64) ∧
    Memory.read [(0, 9)] 1 = none ∧ (∀ m, 0 ≤ m → m < 1 → Memory.read [(0, 9)] m ≠ none) ∧
    [9#64, 8#64].length = (machine [fullWord] 0 2 0 2).a3.toInt.toNat ∧
    ∀ k < 2, Memory.read [(0, 9), (1, 8)] (0 + k) = some ([9#64, 8#64].getD k 0#64) := by
  refine ⟨by decide, fun h => absurd ((State.overCapacity_iff
    (by decide : (machine [fullWord] 0 2 0 2).slot? 0 = some fullWord) (by decide) _).1 h) (by decide), by decide, ?_, by decide, by decide⟩
  intro m _ hm
  interval_cases m
  decide

/-- For `WriteSeekReadReturnsValue` and `WordReadsBackLowByteFirst`. -/
theorem witness_WriteSeekReadReturnsValue : (machine [fullWord] 77).slot? 0 = some fullWord ∧ fullWord.InBounds ∧
    fullWord.isOpen = true ∧ fullWord.pos < 2 ^ 63 ∧ ¬ (machine [fullWord] 77).overCapacity 0 64 ∧
    ¬ (machine [fullWord] 77).overCapacity 0 32 :=
  ⟨by decide, by decide, by decide, by decide, fun h => absurd ((State.overCapacity_iff
    (by decide : (machine [fullWord] 77).slot? 0 = some fullWord) (by decide) _).1 h) (by decide), fun h => absurd
    ((State.overCapacity_iff (by decide : (machine [fullWord] 77).slot? 0 = some fullWord) (by decide) _).1 h) (by decide)⟩

/-- For `LogicalPairResult` and `NotRule`: sources of equal and of unequal length, and a closed one. -/
theorem witness_LogicalPairResult :
    (machine [Slot.empty, fullWord, stream [1, 0] 32 0, closedStream]).slot? 1 = some fullWord ∧ fullWord.InBounds ∧
    (machine [Slot.empty, fullWord, stream [1, 0] 32 0, closedStream]).slot? 2 = some (stream [1, 0] 32 0) ∧
    (machine [Slot.empty, fullWord, stream [1, 0] 32 0, closedStream]).slot? 3 = some closedStream ∧ closedStream.InBounds ∧
    fullWord.len = (stream [1, 0] 32 0).len ∧ fullWord.len ≠ Slot.empty.len := by decide

/-- For `ShiftResult` and `ShiftZeroFill`: the amounts -1, 0 and 2^63 - 1. -/
theorem witness_ShiftResult : (machine [Slot.empty, fullWord] (-1)).slot? 1 = some fullWord ∧ fullWord.InBounds ∧
    fullWord.isOpen = true ∧ (machine [Slot.empty, fullWord] (-1)).a0.toInt < 0 ∧
    0 ≤ (machine [Slot.empty, fullWord] 0).a0.toInt ∧
    0 ≤ (machine [Slot.empty, fullWord] 0x7FFFFFFFFFFFFFFF).a0.toInt := by decide

theorem witness_LogicalCommandsActWordByWord : (stream [0xFF00] 16 16).Padded ∧ (stream [0x0FF0, 0] 16 0).Padded ∧
    (machine [stream [0xFF00] 16 16, stream [0x0FF0, 0] 16 0]).slot? 1 = some (stream [0x0FF0, 0] 16 0) := by
  refine ⟨?_, ?_, by decide⟩
  · intro p h1 h2
    have h1 : 16 ≤ p := h1
    have h2 : p < 32 := h2
    interval_cases p <;> decide
  · intro p h1 h2
    have h1 : 16 ≤ p := h1
    have h2 : p < 64 := h2
    interval_cases p <;> decide

/-- For `RaisingChangesOnlyErrAndSticky`, `CommandsWriteOnlyTheirState` and `ArgumentRegistersPersist`: a success and an error. -/
theorem witness_exec_next : (∃ s', exec (.init 0) State.reset = .next s' ∧ s'.err = 0#32) ∧
    ∃ s', exec (.close 0) (machine [closedStream]) = .next s' ∧ s'.err ≠ 0#32 :=
  ⟨⟨_, rfl, rfl⟩, ⟨_, rfl, by decide⟩⟩

theorem witness_DisposedExactlyOnClosedSlots : (Instr.xor 0 1 2).wellFormed (machine [closedStream, fullWord, closedStream]).slots.length = true ∧
    2 ∈ (kindOf (.xor 0 1 2)).openChecked ∧
    (machine [closedStream, fullWord, closedStream]).slot? 2 = some closedStream ∧ closedStream.isOpen = false ∧
    (nextOf (exec (.xor 0 1 2) (machine [closedStream, fullWord, closedStream]))).map (fun s => s.err) = some 2#32 := by decide

theorem witness_SmallestApplicableErrorIsRaised_undecoded (i : Instr) : decode 0x00000000#32 ≠ .ok i := by
  rw [show decode 0x00000000#32 = .error .unknownOpcode by decide]
  exact fun h => by cases h

theorem witness_SmallestApplicableErrorIsRaised_1 : errorApplies (.init 4) State.reset 1 ∧
    (∀ j < 1, ¬ errorApplies (.init 4) State.reset j) ∧ ∀ t ∈ State.reset.slots, 1 ≤ t.nw :=
  ⟨by simp only [errorApplies]; decide, fun j hj => by interval_cases j; exact id, by decide⟩

/-- A command whose one checked slot holds `fullWord` is not turned away as disposed. -/
theorem not_disposed_of_fullWord {i : Instr} {s : State} (hi : (kindOf i).openChecked = [0]) (hs : s.slot? 0 = some fullWord) :
    ¬ errorApplies i s 2 := by
  rintro ⟨n, hn, t, ht, ho⟩
  rw [hi, List.mem_singleton] at hn
  rw [hn, hs] at ht
  cases ht
  cases ho

/-- `WRR8` on a closed slot with `b = -1` (R809's first example): `INVALID_ARG` applies too. -/
theorem witness_SmallestApplicableErrorIsRaised_2 : errorApplies (.wrr8 0) (machine [closedStream] 0 (-1) 0) 2 ∧
    errorApplies (.wrr8 0) (machine [closedStream] 0 (-1) 0) 3 ∧
    ∀ j < 2, ¬ errorApplies (.wrr8 0) (machine [closedStream] 0 (-1) 0) j := by
  refine ⟨⟨0, by decide, closedStream, by decide, by decide⟩, by simp only [errorApplies, kindOf, State.badRange]; decide, ?_⟩
  intro j hj
  interval_cases j
  exacts [id, by simp only [errorApplies]; decide]

/-- `WRA8` with `off + cnt > len` and `base < 0` (R809's second example): `TMEM_RANGE` applies too. -/
theorem witness_SmallestApplicableErrorIsRaised_3 : errorApplies (.wra8 0) (machine [fullWord] (-1) 0 0 1) 3 ∧
    errorApplies (.wra8 0) (machine [fullWord] (-1) 0 0 1) 5 ∧
    ∀ j < 3, ¬ errorApplies (.wra8 0) (machine [fullWord] (-1) 0 0 1) j := by
  refine ⟨by simp only [errorApplies, kindOf, State.badBuffer]; decide,
    by simp only [errorApplies, kindOf, State.bufferOutside]; decide, ?_⟩
  intro j hj
  interval_cases j
  exacts [id, by simp only [errorApplies]; decide, not_disposed_of_fullWord rfl rfl]

theorem witness_SmallestApplicableErrorIsRaised_4 : errorApplies (.setpos 0) (machine [fullWord] 33) 4 ∧
    ∀ j < 4, ¬ errorApplies (.setpos 0) (machine [fullWord] 33) j := by
  refine ⟨⟨fullWord, by decide, by decide⟩, ?_⟩
  intro j hj
  interval_cases j
  exacts [id, by simp only [errorApplies]; decide, not_disposed_of_fullWord rfl rfl, id]

theorem witness_SmallestApplicableErrorIsRaised_5 : errorApplies (.rda8 0) (machine [fullWord] 16 1 0 0) 5 ∧
    ∀ j < 5, ¬ errorApplies (.rda8 0) (machine [fullWord] 16 1 0 0) j := by
  refine ⟨by simp only [errorApplies, kindOf, State.bufferOutside]; decide, ?_⟩
  intro j hj
  interval_cases j
  exacts [id, by simp only [errorApplies]; decide, not_disposed_of_fullWord rfl rfl,
    by simp only [errorApplies, kindOf, State.badBuffer]; decide, id]

theorem witness_SmallestApplicableErrorIsRaised_6 : errorApplies (.wr1 0) (oneWord [fullWord]) 6 ∧
    ∀ j < 6, ¬ errorApplies (.wr1 0) (oneWord [fullWord]) j := by
  refine ⟨witness_ScalarWriteResult_over.2.2, ?_⟩
  intro j hj
  interval_cases j
  exacts [id, by simp only [errorApplies]; decide, not_disposed_of_fullWord rfl rfl, id, id, id]

theorem witness_SmallestApplicableErrorIsRaised_none (k : Nat) : ¬ errorApplies (.init 0) State.reset k := by
  rcases k with _ | _ | _ | _ | _ | _ | _ | k
  · exact id
  · simp only [errorApplies]; decide
  · rintro ⟨n, hn, -⟩; exact absurd hn List.not_mem_nil
  all_goals exact id

/-- For `StickyAccumulates`: an error, a reset, and a host write to `STICKY`. -/
theorem witness_StickyAccumulates : errAfter (exec (.close 0) (machine [closedStream])) = some (2, 4) ∧
    errAfter (step { State.reset with sticky := 4, pending := [.reset] }) = some (0, 0) ∧
    errAfter (step { State.reset with sticky := 4, pending := [.write 0x08 .w32 0] }) = some (0, 4) ∧
    4#32 &&& stickyZeroBits = 0#32 := by decide

theorem witness_ArgumentRegistersPersist : (kindOf (.init 0)).readsArg 0 = false ∧ (kindOf (.rdr8 0)).readsArg 0 = false ∧
    (kindOf (.wr8 0)).readsArg 1 = false ∧ (kindOf (.wrr8 0)).readsArg 3 = false := by decide

theorem witness_CommandsWriteOnlyTheirState : ¬ writesR0 (.rda8 0) ∧ (∀ sd, ¬ readsStream (.wr8 0) sd) ∧
    ¬ writesTmem (.wra8 0) ∧ (1 : SlotNo) ≠ destOf (.and 0 1 1) := by
  refine ⟨?_, ?_, ?_, by decide⟩
  · simp [writesR0]
  · simp [readsStream]
  · simp [writesTmem]

theorem witness_SlotsAreIsolated : 3 ∉ (Instr.and 0 1 2).slotFields ∧ 1 ∉ (Instr.wr8 0).slotFields := by decide

/-- For `OpenBitChangesOnlyByRule`: `NOT` into a closed slot, and `CLOSE`. -/
theorem witness_OpenBitChangesOnlyByRule : opensSlot (.not 1 0) 1 ∧
    (slotAfter (exec (.not 1 0) (machine [fullWord, closedStream])) 1).map (fun t => t.isOpen) = some true ∧
    (slotAfter (exec (.close 0) (machine [fullWord, closedStream])) 0).map (fun t => t.isOpen) = some false :=
  ⟨.inr (.inr (.inr ⟨0, .inl rfl⟩)), by decide, by decide⟩

/-- For `CapacityOnlyDoubles` and `StreamLengthLaws`: a write at the end, a write before it, and a read. -/
theorem witness_StreamLengthLaws : fullWord.InBounds ∧ ¬ opensSlot (.wr8 0) 0 ∧ kindOf (.wr8 0) = .write 8 0 ∧
    readsStream (.rd8 0) 0 ∧ fullWord.pos = fullWord.len ∧ (stream [5] 32 28).pos < (stream [5] 32 28).len ∧
    slotAfter (exec (.wr8 0) (machine [stream [5] 32 28] 0xFF)) 0 = some (stream [0xF0000005, 0xF] 36 36) := by
  refine ⟨by decide, ?_, rfl, ?_, rfl, by decide, by decide⟩
  · simp [opensSlot]
  · simp [readsStream]

theorem witness_QueriesAreIdempotent : (nextOf (exec (.getlen 0) (machine [fullWord]))).map (fun s => s.r0) = some 32#64 := by
  decide

/-- For `ResetRule` and `ResetInputCompletes`. -/
theorem witness_ResetRule : (nextOf (step { machine [closedStream] 9 with pending := [.reset] })).map (fun s => (s.slots, s.a0)) =
    some ([Slot.empty], 0#64) := by decide

theorem witness_ResetHasInv : Params.Legal ⟨1, 0, 0⟩ ∧ Params.Legal ⟨2 ^ 32, 2 ^ 16, 0⟩ ∧ LegalSlotCount 1 ∧ LegalSlotCount 16 := by
  decide

/-- For `StepKeepsInv` and `StepKeepsParameters`: a machine in use that meets the invariant, and its next step. -/
theorem witness_StepKeepsInv :
    ({ machine [stream [0x3FFFFFFF] 30 30] 0xBEEF with pending := [.write 0 .w32 0x00200020#64] } : State).Inv ∧
    slotAfter (step { machine [stream [0x3FFFFFFF] 30 30] 0xBEEF with pending := [.write 0 .w32 0x00200020#64] }) 0 =
      some (stream [0xFFFFFFFF, 0x00002FBB] 46 46) := by
  refine ⟨⟨by decide, by decide, ?_, by decide, by decide, by decide, by decide, by decide⟩, by decide⟩
  intro t ht
  have ht : t = stream [0x3FFFFFFF] 30 30 := List.mem_singleton.mp ht
  subst ht
  refine ⟨by decide, by decide, ?_⟩
  intro p h1 h2
  have h1 : 30 ≤ p := h1
  have h2 : p < 32 := h2
  interval_cases p <;> decide

/-- For `HostReadsRegisterMap` and `HostWritesRegisterMap`: the last byte of the reserved range, and its first and last 64 bits. -/
theorem witness_HostReadsRegisterMap : 0x40 ≤ 0xFFF ∧ 0xFFF + BusWidth.w8.bytes ≤ 0x1000 ∧ 0x40 + BusWidth.w64.bytes ≤ 0x1000 ∧
    0xFF8 + BusWidth.w64.bytes ≤ 0x1000 := by decide

theorem witness_HostReachesTmem : 15 < State.reset.params.tmemEntries ∧ Memory.read [(15, 7)] 15 = some 7#64 ∧
    Memory.read [(15, 7)] 0 = none := by decide

/-- For `OtherHostAccessRefused`: half of a register, and the entry past the last. -/
theorem witness_OtherHostAccessRefused : hostTarget State.reset.params 0x18 .w32 = none ∧
    hostTarget State.reset.params 0x1080 .w64 = none ∧ hostTarget State.reset.params 0xFFF .w16 = none := by decide

theorem witness_IdleStepHolds : State.reset.pending = [] := by decide

end Sys2Proof.Tests
end

section
/-!
PROOFS, part 1: what keeps a slot well formed (R102 to R106). The padding invariant follows from the stream-bit statements of
Safety.lean: an operation changes bits only below the length it leaves, and a bit past the storage reads as 0.
-/

namespace Sys2Proof.Machine

/-- A bit past the storage reads as 0. -/
theorem Slot.bit_of_nw_le {t : Slot} {p : Nat} (h : 32 * t.nw ≤ p) : t.bit p = false := by
  have hw : t.words.length ≤ p / 32 := by unfold Slot.nw at h; omega
  simp [Slot.bit, List.getElem?_eq_none hw]

/-- Under R106 every bit at or above the length is 0, past the storage too. -/
theorem Slot.Padded.bit_eq_false {t : Slot} (h : t.Padded) {p : Nat} (hp : t.len ≤ p) : t.bit p = false := by
  by_cases hw : p < 32 * t.nw
  · exact h p hp hw
  · exact Slot.bit_of_nw_le (by omega)

theorem Slot.Wf.inBounds {t : Slot} {maxWords : Nat} (h : t.Wf maxWords) : t.InBounds := h.1

theorem Slot.Wf.pos_le_len {t : Slot} {maxWords : Nat} (h : t.Wf maxWords) : t.pos ≤ t.len := by
  obtain ⟨-, hpos, -⟩ := h.inBounds
  exact hpos

/-! ## New streams -/

/-- A new stream of `n` zero words (R400, R401). -/
theorem Slot.zeros_wf {n maxWords : Nat} (h1 : 1 ≤ n) (hn : n ≤ maxWords) :
    Slot.Wf maxWords { isOpen := true, words := List.replicate n 0#32, len := 0, pos := 0 } := by
  refine ⟨⟨by simpa [Slot.nw] using h1, le_rfl, Nat.zero_le _⟩, by simpa [Slot.nw] using hn, fun p _ _ => ?_⟩
  simp only [Slot.bit, List.getD_eq_getElem?_getD, List.getElem?_replicate]
  split <;> simp

theorem Slot.empty_wf {maxWords : Nat} (h : 1 ≤ maxWords) : Slot.empty.Wf maxWords := Slot.zeros_wf le_rfl h

theorem one_le_wordsForBits (c : Nat) : 1 ≤ wordsForBits c := le_max_left _ _

/-- A result stream takes its storage and length from its source and has zeros above the length (R700). -/
theorem Slot.Wf.build {a : Slot} {maxWords : Nat} (h : a.Wf maxWords) (f : Nat → Bool) : (a.build f).Wf maxWords := by
  obtain ⟨hb, hcap, -⟩ := h
  have hf := Slot.build_from hb f
  obtain ⟨h1, -, h3⟩ := hb
  refine ⟨⟨?_, ?_, ?_⟩, ?_, ?_⟩
  · rwa [hf.nw]
  · rw [hf.pos]; exact Nat.zero_le _
  · rwa [hf.len, hf.nw]
  · rwa [hf.nw]
  · intro p hp _
    rw [hf.len] at hp
    simp [hf.bit, hp]

/-! ## The same storage -/

theorem Slot.Wf.close {t : Slot} {maxWords : Nat} (h : t.Wf maxWords) : Slot.Wf maxWords { t with isOpen := false } := h

/-- A cursor may lie anywhere up to the length (R105). -/
theorem Slot.Wf.moveCursor {t : Slot} {maxWords p : Nat} (h : t.Wf maxWords) (hp : p ≤ t.len) :
    Slot.Wf maxWords { t with pos := p } := by
  obtain ⟨⟨h1, -, h3⟩, hcap, hpad⟩ := h
  exact ⟨⟨h1, hp, h3⟩, hcap, hpad⟩

/-- What a read leaves: the cursor has not passed the length. -/
theorem Slot.Wf.read {t t' : Slot} {maxWords : Nat} {v : Value} {b c k : Nat} (h : t.Wf maxWords)
    (hr : ReadsField t t' v b c k) : t'.Wf maxWords := by
  have hpos := h.pos_le_len
  have hk := hr.count
  rw [hr.slot]
  exact h.moveCursor (by omega)

theorem Slot.Wf.readElements {t t' : Slot} {maxWords : Nat} {m m' : Memory} {W cnt start total : Nat} (h : t.Wf maxWords)
    (hr : ReadsElements t t' m m' W cnt start total) : t'.Wf maxWords := by
  have hpos := h.pos_le_len
  have hk := hr.count
  rw [hr.slot]
  exact h.moveCursor (by omega)

/-! ## Writes -/

/-- The storage that a write of `T` bits leaves is the one `Reserve` checked against MAX_WORDS (R503, R504, R807). -/
theorem IsGrown.le_of_reserve {t : Slot} {T n maxWords : Nat} (hg : IsGrown t.nw (t.pos + T) n) (h1 : 1 ≤ t.nw)
    (hcap : t.reserve T ≤ maxWords) : n ≤ maxWords := by
  rwa [hg.unique (t.reserve_isGrown T h1)]

/-- A write of `T` bits at the cursor changes no bit at or above the length it leaves. -/
theorem Slot.Padded.write {t t' : Slot} {T : Nat} (h : t.Padded) (hlen : t'.len = max t.len (t.pos + T))
    (hother : ∀ p, p < t.pos ∨ t.pos + T ≤ p → t'.bit p = t.bit p) : t'.Padded := by
  intro p hp _
  rw [hother p (by omega)]
  exact h.bit_eq_false (by omega)

theorem Slot.Wf.write {t t' : Slot} {maxWords : Nat} {v : Value} {b c : Nat} (h : t.Wf maxWords)
    (hw : WritesField t t' v b c) (hcap : t.reserve c ≤ maxWords) : t'.Wf maxWords := by
  obtain ⟨hb, -, hpad⟩ := h
  exact ⟨hw.inBounds hb, hw.grown.le_of_reserve hb.1 hcap, hpad.write hw.len hw.other⟩

theorem Slot.Wf.writeElements {t t' : Slot} {maxWords W : Nat} {es : List Value} (h : t.Wf maxWords)
    (hw : WritesElements t t' W es) (hcap : t.reserve (es.length * W) ≤ maxWords) : t'.Wf maxWords := by
  obtain ⟨hb, -, hpad⟩ := h
  exact ⟨hw.inBounds hb, hw.grown.le_of_reserve hb.1 hcap, hpad.write hw.len hw.other⟩

end Sys2Proof.Machine
end

section
/-!
PROOFS, part 2: everything a command can do, said once for all 49 commands (`exec_effect`), and everything a step can do
(`step_effect`). Facts about every step are proved by the cases of these two.
-/

namespace Sys2Proof.Machine

/-- The slots that a command which succeeds can leave at `sd`. -/
inductive NewSlot (s : State) (sd : SlotNo) : Slot → Prop where
  /-- `INIT` (R400). -/
  | empty : NewSlot s sd Slot.empty
  /-- `INITC` (R401). -/
  | presized (c : Nat) (hcap : wordsForBits c ≤ s.params.maxWords) :
      NewSlot s sd { isOpen := true, words := List.replicate (wordsForBits c) 0#32, len := 0, pos := 0 }
  /-- `CLOSE` (R402). -/
  | closed {t : Slot} (ht : s.slot? sd = some t) : NewSlot s sd { t with isOpen := false }
  /-- `SETPOS` (R451). -/
  | moved {t : Slot} (ht : s.slot? sd = some t) {p : Nat} (hp : p ≤ t.len) : NewSlot s sd { t with pos := p }
  /-- A scalar write, full width or sub-range (R610 to R619). -/
  | written {t : Slot} (ht : s.slot? sd = some t) {W b c : Nat} (hW : W ∈ [1, 8, 16, 32, 64]) (hbc : b + c ≤ W)
      (hcap : t.reserve c ≤ s.params.maxWords) : NewSlot s sd (t.writeValue s.a0 W b c)
  /-- An array write (R630 to R634). -/
  | writtenElements {t : Slot} (ht : s.slot? sd = some t) {W : Nat} {es : List Value} (hW : W ∈ [1, 8, 16, 32, 64])
      (hcap : t.reserve (es.length * W) ≤ s.params.maxWords) : NewSlot s sd (t.writeElements W es)
  /-- A logical or shift command (R700). -/
  | built {sa : SlotNo} {a : Slot} (ha : s.slot? sa = some a) (f : Nat → Bool) : NewSlot s sd (a.build f)

/-- The states that a command can leave. -/
inductive CommandEffect (s : State) : State → Prop where
  /-- An error (R801). -/
  | raised (e : Err) : CommandEffect s (s.raise e)
  /-- A query: `R0` and `ERR`. -/
  | answered (v : Value) : CommandEffect s { s with r0 := v, err := okStatus }
  /-- One slot replaced. -/
  | stored {sd : SlotNo} {t' : Slot} (ht : NewSlot s sd t') : CommandEffect s (s.setSlot sd t').ok
  /-- A scalar read, with any value in `R0`: `RDBYTE` may leave its sentinel there (R640). -/
  | read {sd : SlotNo} {t : Slot} (ht : s.slot? sd = some t) {W b c : Nat} (hW : W ∈ [1, 8, 16, 32, 64]) (hbc : b + c ≤ W)
      (v : Value) : CommandEffect s { s.afterRead sd (t.readValue W b c) with r0 := v }
  /-- An array read (R635 to R639). -/
  | readArray {sd : SlotNo} {t : Slot} (ht : s.slot? sd = some t) {W : Nat} (hW : W ∈ [1, 8, 16, 32, 64])
      (hcheck : s.arrayArgs.check s.params.tmemEntries = none) :
      CommandEffect s { s.setSlot sd (Slot.readElements W s.arrayArgs.count t s.tmem s.arrayArgs.start).slot with
        tmem := (Slot.readElements W s.arrayArgs.count t s.tmem s.arrayArgs.start).tmem
        r1 := countValue (Slot.readElements W s.arrayArgs.count t s.tmem s.arrayArgs.start).total
        err := okStatus }

/-! ## The shared operations -/

theorem TurnedAway.effect {s s' : State} {n : SlotNo} (h : TurnedAway s n s') : CommandEffect s s' := by
  obtain ⟨e, rfl⟩ := h.raises
  exact .raised e

theorem query_effect {f : Slot → Nat} {sd : SlotNo} {s s' : State} (h : query f sd s = .next s') : CommandEffect s s' := by
  rcases query_next h with ht | ⟨t, -, -, rfl⟩
  · exact ht.effect
  · exact .answered _

theorem scalarWrite_effect {W : Nat} (hW : W ∈ [1, 8, 16, 32, 64]) {sd : SlotNo} {s s' : State}
    (h : scalarWrite W sd s = .next s') : CommandEffect s s' := by
  rcases scalarWrite_next h with ht | ⟨t, ht, -, ⟨-, rfl⟩ | ⟨hcap, rfl⟩⟩
  · exact ht.effect
  · exact .raised _
  · exact .stored (.written ht hW (by omega) hcap)

theorem subrangeWrite_effect {W : Nat} (hW : W ∈ [1, 8, 16, 32, 64]) {sd : SlotNo} {s s' : State}
    (h : subrangeWrite W sd s = .next s') : CommandEffect s s' := by
  rcases subrangeWrite_next h with ht | ⟨t, ht, -, ⟨-, rfl⟩ | ⟨hv, ⟨-, rfl⟩ | ⟨hcap, rfl⟩⟩⟩
  · exact ht.effect
  · exact .raised _
  · exact .raised _
  · exact .stored (.written ht hW (validRange_toNat hv) hcap)

theorem scalarRead_effect {W : Nat} (hW : W ∈ [1, 8, 16, 32, 64]) {sd : SlotNo} {s s' : State}
    (h : scalarRead W sd s = .next s') : CommandEffect s s' := by
  rcases scalarRead_next h with ht | ⟨t, ht, -, rfl⟩
  · exact ht.effect
  · exact .read ht hW (by omega) _

theorem subrangeRead_effect {W : Nat} (hW : W ∈ [1, 8, 16, 32, 64]) {sd : SlotNo} {s s' : State}
    (h : subrangeRead W sd s = .next s') : CommandEffect s s' := by
  rcases subrangeRead_next h with ht | ⟨t, ht, -, ⟨-, rfl⟩ | ⟨hv, rfl⟩⟩
  · exact ht.effect
  · exact .raised _
  · exact .read ht hW (validRange_toNat hv) _

theorem arrayWrite_effect {W : Nat} (hW : W ∈ [1, 8, 16, 32, 64]) {sd : SlotNo} {s s' : State}
    (h : arrayWrite W sd s = .next s') : CommandEffect s s' := by
  rcases arrayWrite_next h with ht | ⟨t, ht, -, ⟨e, -, rfl⟩ | ⟨-, ⟨-, rfl⟩ | ⟨hcap, es, hes, rfl⟩⟩⟩
  · exact ht.effect
  · exact .raised e
  · exact .raised _
  · have hlen : es.length = s.arrayArgs.count := (Memory.readEntries_ok hes).1
    exact .stored (.writtenElements ht hW (by rwa [hlen]))

theorem arrayRead_effect {W : Nat} (hW : W ∈ [1, 8, 16, 32, 64]) {sd : SlotNo} {s s' : State}
    (h : arrayRead W sd s = .next s') : CommandEffect s s' := by
  rcases arrayRead_next h with ht | ⟨t, ht, -, ⟨e, -, rfl⟩ | ⟨hcheck, rfl⟩⟩
  · exact ht.effect
  · exact .raised e
  · exact .readArray ht hW hcheck

theorem combine_effect {f : Bool → Bool → Bool} {sd sa sb : SlotNo} {s s' : State}
    (h : combine f sd sa sb s = .next s') : CommandEffect s s' := by
  rcases combine_next h with ⟨-, rfl⟩ | ⟨d, a, b, -, ha, -, ⟨-, rfl⟩ | ⟨-, -, -, rfl⟩ | ⟨-, -, -, rfl⟩⟩
  · exact .raised _
  · exact .raised _
  · exact .raised _
  · exact .stored (.built ha _)

theorem shift_effect {f : Slot → Nat → Nat → Bool} {sd sa : SlotNo} {s s' : State}
    (h : shift f sd sa s = .next s') : CommandEffect s s' := by
  rcases shift_next h with ⟨-, rfl⟩ | ⟨d, -, ht | ⟨a, ha, -, ⟨-, rfl⟩ | ⟨-, rfl⟩⟩⟩
  · exact .raised _
  · exact ht.effect
  · exact .raised _
  · exact .stored (.built ha _)

/-! ## The commands with a meaning of their own -/

theorem execInit_effect {sd : SlotNo} {s s' : State} (h : execInit sd s = .next s') : CommandEffect s s' := by
  rcases execInit_next h with ⟨-, rfl⟩ | ⟨t, -, rfl⟩
  · exact .raised _
  · exact .stored .empty

theorem execInitc_effect {sd : SlotNo} {s s' : State} (h : execInitc sd s = .next s') : CommandEffect s s' := by
  rcases execInitc_next h with ⟨-, rfl⟩ | ⟨t, -, ⟨-, rfl⟩ | ⟨-, -, rfl⟩ | ⟨-, hcap, rfl⟩⟩
  · exact .raised _
  · exact .raised _
  · exact .raised _
  · exact .stored (.presized _ hcap)

theorem execClose_effect {sd : SlotNo} {s s' : State} (h : execClose sd s = .next s') : CommandEffect s s' := by
  rcases execClose_next h with ht | ⟨t, ht, -, rfl⟩
  · exact ht.effect
  · exact .stored (.closed ht)

theorem execStatus_effect {sd : SlotNo} {s s' : State} (h : execStatus sd s = .next s') : CommandEffect s s' := by
  rcases execStatus_next h with ⟨-, rfl⟩ | ⟨t, -, rfl⟩
  · exact .raised _
  · exact .answered _

theorem execSetpos_effect {sd : SlotNo} {s s' : State} (h : execSetpos sd s = .next s') : CommandEffect s s' := by
  rcases execSetpos_next h with ht | ⟨t, ht, -, ⟨-, rfl⟩ | ⟨h0, hp, rfl⟩⟩
  · exact ht.effect
  · exact .raised _
  · exact .stored (.moved ht (by omega))

theorem execRdbyte_effect {sd : SlotNo} {s s' : State} (h : execRdbyte sd s = .next s') : CommandEffect s s' := by
  rcases execRdbyte_next h with ht | ⟨t, ht, -, rfl⟩
  · exact ht.effect
  · exact .read ht (by simp) (by omega) _

theorem execNot_effect {sd sa : SlotNo} {s s' : State} (h : execNot sd sa s = .next s') : CommandEffect s s' := by
  rcases execNot_next h with ⟨-, rfl⟩ | ⟨d, -, ht | ⟨a, ha, -, rfl⟩⟩
  · exact .raised _
  · exact ht.effect
  · exact .stored (.built ha _)

theorem execShl_effect {sd sa : SlotNo} {s s' : State} (h : execShl sd sa s = .next s') : CommandEffect s s' :=
  shift_effect h

theorem execShr_effect {sd sa : SlotNo} {s s' : State} (h : execShr sd sa s = .next s') : CommandEffect s s' :=
  shift_effect h

/-! ## Every command and every step -/

/-- Everything a command can do. -/
theorem exec_effect {i : Instr} {s s' : State} (h : exec i s = .next s') : CommandEffect s s' := by
  cases i
  case init => exact execInit_effect h
  case initc => exact execInitc_effect h
  case close => exact execClose_effect h
  case status => exact execStatus_effect h
  case setpos => exact execSetpos_effect h
  case rdbyte => exact execRdbyte_effect h
  case not => exact execNot_effect h
  case getpos | getlen | getlen8 | getlen16 | getlen32 | getlen64 | getcap => exact query_effect h
  case wr1 | wr8 | wr16 | wr32 | wr64 => exact scalarWrite_effect (by simp) h
  case wrr1 | wrr8 | wrr16 | wrr32 | wrr64 => exact subrangeWrite_effect (by simp) h
  case rd1 | rd8 | rd16 | rd32 | rd64 => exact scalarRead_effect (by simp) h
  case rdr1 | rdr8 | rdr16 | rdr32 | rdr64 => exact subrangeRead_effect (by simp) h
  case wra1 | wra8 | wra16 | wra32 | wra64 => exact arrayWrite_effect (by simp) h
  case rda1 | rda8 | rda16 | rda32 | rda64 => exact arrayRead_effect (by simp) h
  case and | or | xor => exact combine_effect h
  case shl => exact execShl_effect h
  case shr => exact execShr_effect h

theorem runCommand_effect {c : Word} {s s' : State} (h : runCommand c s = .next s') : CommandEffect s s' := by
  unfold runCommand at h
  split at h
  · exact exec_effect h
  · cases h
    exact .raised _

/-- The states that an outside event can leave. -/
inductive EventEffect (s : State) : State → Prop where
  /-- A write to a register that ignores writes (R109, R111, R112). -/
  | ignored : EventEffect s s
  /-- The reset input (R900). -/
  | reset : EventEffect s s.resetInput
  /-- A host read. -/
  | answered (v : Value) : EventEffect s (s.answer v)
  /-- A host write to `CMD` (R113, R300). -/
  | command {s' : State} (h : CommandEffect s s') : EventEffect s s'
  /-- A host write to an argument register (R108). -/
  | wroteA0 (v : Value) : EventEffect s { s with a0 := v }
  | wroteA1 (v : Value) : EventEffect s { s with a1 := v }
  | wroteA2 (v : Value) : EventEffect s { s with a2 := v }
  | wroteA3 (v : Value) : EventEffect s { s with a3 := v }
  /-- A host write to a TMEM entry (R203). -/
  | wroteTmem {i : Nat} (hi : i < s.params.tmemEntries) (v : Value) : EventEffect s { s with tmem := s.tmem.write i v }

theorem accept_effect {e : HostEvent} {s s' : State} (h : accept e s = .next s') : EventEffect s s' := by
  cases e with
  | reset =>
    cases h
    exact .reset
  | read addr w =>
    simp only [accept] at h
    split at h
    · cases h
    · obtain ⟨v, rfl⟩ := hostReadAt_next h
      exact .answered v
  | write addr w v =>
    simp only [accept] at h
    split at h
    · cases h
    · rename_i g hg
      rcases hostWriteAt_next h with ⟨-, hc⟩ | rfl | rfl | rfl | rfl | rfl | ⟨i, rfl, rfl⟩
      · exact .command (runCommand_effect hc)
      · exact .ignored
      · exact .wroteA0 v
      · exact .wroteA1 v
      · exact .wroteA2 v
      · exact .wroteA3 v
      · exact .wroteTmem (hostTarget_tmem hg) v

/-- Everything a step can do: with no event pending the state holds, else one event is taken off and done. -/
theorem step_effect {s s' : State} (h : step s = .next s') :
    s' = s ∨ ∃ rest, EventEffect { s with pending := rest } s' := by
  cases hp : s.pending with
  | nil =>
    simp only [step, stepOnce, hp] at h
    cases h
    exact .inl rfl
  | cons e rest =>
    rw [step_of_pending hp] at h
    exact .inr ⟨rest, accept_effect h⟩

end Sys2Proof.Machine
end

section
/-!
PROOFS, part 3: the parameters never change, and the invariant holds after reset and is kept by every step (O42, O40, O41).
-/

namespace Sys2Proof.Machine

/-! ## The parameters and the number of slots -/

/-- The same parameters and number of slots (R10). -/
def State.SameParameters (s s' : State) : Prop := s'.params = s.params ∧ s'.slots.length = s.slots.length

theorem CommandEffect.sameParameters {s s' : State} (h : CommandEffect s s') : s.SameParameters s' := by
  cases h with
  | raised e => exact ⟨rfl, rfl⟩
  | answered v => exact ⟨rfl, rfl⟩
  | stored ht => exact ⟨rfl, s.setSlot_length _ _⟩
  | read ht hW hbc v => exact ⟨rfl, s.setSlot_length _ _⟩
  | readArray ht hW hcheck => exact ⟨rfl, s.setSlot_length _ _⟩

theorem EventEffect.sameParameters {s s' : State} (h : EventEffect s s') : s.SameParameters s' := by
  cases h with
  | command h => exact h.sameParameters
  | reset => exact ⟨rfl, List.length_replicate⟩
  | ignored | answered | wroteA0 | wroteA1 | wroteA2 | wroteA3 | wroteTmem => exact ⟨rfl, rfl⟩

/-! ## Bounds on the registers -/

/-- A count that is at most `n` is so as a value too: the truncation to 64 bits can only lower it (D32). -/
theorem countValue_toNat_le {k n : Nat} (h : k ≤ n) : (countValue k).toNat ≤ n := by
  rw [countValue, BitVec.toNat_ofNat]
  exact (Nat.mod_le _ _).trans h

theorem Err.status_toNat_le (e : Err) : e.status.toNat ≤ 6 := by
  cases e <;> decide

/-- Every error's bit is one of bits 6 to 1 (R112, R800). -/
theorem stickyAfter_zeroBits {sticky : Word} (h : sticky &&& stickyZeroBits = 0#32) (e : Err) :
    stickyAfter sticky e &&& stickyZeroBits = 0#32 := by
  have hbit : (1#32 <<< e.code) &&& stickyZeroBits = 0#32 := by cases e <;> decide
  rw [stickyAfter, BitVec.and_or_distrib_right, h, hbit, BitVec.or_zero]

theorem le_of_mem_widths {W : Nat} (hW : W ∈ [1, 8, 16, 32, 64]) : W ≤ 64 := by
  simp only [List.mem_cons, List.not_mem_nil, or_false] at hW
  omega

/-! ## One rule for each update of the state -/

theorem State.Inv.slot_wf {s : State} (h : s.Inv) {n : SlotNo} {t : Slot} (ht : s.slot? n = some t) :
    t.Wf s.params.maxWords := by
  obtain ⟨-, -, hslots, -⟩ := h
  exact hslots t (State.slot?_mem ht)

theorem State.Inv.one_le_maxWords {s : State} (h : s.Inv) : 1 ≤ s.params.maxWords := by
  obtain ⟨⟨h1, -⟩, -⟩ := h
  exact h1

theorem State.Inv.tmem_wf {s : State} (h : s.Inv) : s.tmem.wf ∧ ∀ e ∈ s.tmem, e.1 < s.params.tmemEntries := by
  obtain ⟨-, -, -, -, -, -, htmem⟩ := h
  exact htmem

theorem State.Inv.raise {s : State} (h : s.Inv) (e : Err) : (s.raise e).Inv := by
  obtain ⟨hp, hn, hslots, -, hsticky, hr1, htmem⟩ := h
  exact ⟨hp, hn, hslots, e.status_toNat_le, stickyAfter_zeroBits hsticky e, hr1, htmem⟩

theorem State.Inv.ok {s : State} (h : s.Inv) : s.ok.Inv := by
  obtain ⟨hp, hn, hslots, -, hrest⟩ := h
  exact ⟨hp, hn, hslots, Nat.zero_le _, hrest⟩

theorem State.Inv.setSlot {s : State} (h : s.Inv) (n : SlotNo) {t' : Slot} (ht : t'.Wf s.params.maxWords) :
    (s.setSlot n t').Inv := by
  obtain ⟨hp, hn, hslots, hrest⟩ := h
  refine ⟨hp, ?_, State.forall_setSlot hslots n ht, hrest⟩
  rwa [State.setSlot_length]

/-- `R1` takes a count of bits read by one scalar read or one array read (R115). -/
theorem State.Inv.setCount {s : State} (h : s.Inv) {k : Nat} (hk : k ≤ max 64 (64 * s.params.tmemEntries)) :
    State.Inv { s with r1 := countValue k } := by
  obtain ⟨hp, hn, hslots, herr, hsticky, -, htmem⟩ := h
  exact ⟨hp, hn, hslots, herr, hsticky, countValue_toNat_le hk, htmem⟩

theorem State.Inv.setTmem {s : State} (h : s.Inv) {m : Memory} (hwf : m.wf) (hlt : ∀ e ∈ m, e.1 < s.params.tmemEntries) :
    State.Inv { s with tmem := m } := by
  obtain ⟨hp, hn, hslots, herr, hsticky, hr1, -, -⟩ := h
  exact ⟨hp, hn, hslots, herr, hsticky, hr1, hwf, hlt⟩

/-- The reset state, for legal parameters (R10, R116). -/
theorem State.resetWith_inv {p : Params} {n : Nat} (hp : p.Legal) (hn : LegalSlotCount n) : (State.resetWith p n).Inv := by
  refine ⟨hp, ?_, ?_, Nat.zero_le _, BitVec.zero_and, Nat.zero_le _, List.Pairwise.nil, ?_⟩
  · simpa [State.resetWith] using hn
  · intro t ht
    rw [List.eq_of_mem_replicate ht]
    exact Slot.empty_wf hp.1
  · intro e he
    cases he

/-! ## Commands, events, steps -/

theorem NewSlot.wf {s : State} {sd : SlotNo} {t' : Slot} (h : NewSlot s sd t') (hs : s.Inv) : t'.Wf s.params.maxWords := by
  cases h with
  | empty => exact Slot.empty_wf hs.one_le_maxWords
  | presized c hcap => exact Slot.zeros_wf (one_le_wordsForBits c) hcap
  | closed ht => exact (hs.slot_wf ht).close
  | moved ht hp => exact (hs.slot_wf ht).moveCursor hp
  | written ht hW hbc hcap =>
    have hwf := hs.slot_wf ht
    exact hwf.write (Slot.writeValue_writes hwf.inBounds s.a0 hW _ _ hbc) hcap
  | writtenElements ht hW hcap =>
    have hwf := hs.slot_wf ht
    exact hwf.writeElements (Slot.writeElements_writes hwf.inBounds hW _) hcap
  | built ha f => exact (hs.slot_wf ha).build f

theorem State.Inv.afterRead {s : State} (h : s.Inv) {sd : SlotNo} {t : Slot} (ht : s.slot? sd = some t) {W b c : Nat}
    (hW : W ∈ [1, 8, 16, 32, 64]) (hbc : b + c ≤ W) : (s.afterRead sd (t.readValue W b c)).Inv := by
  have hr := t.readValue_reads hW b c hbc
  have hcount : (t.readValue W b c).count ≤ 64 := by
    have hk := hr.count
    have hle := le_of_mem_widths hW
    omega
  exact ((h.setSlot sd ((h.slot_wf ht).read hr)).setCount (hcount.trans (le_max_left _ _))).ok

/-- An array read moves one cursor and writes entries inside TMEM; its count is at most 64 bits for each of them. -/
theorem State.Inv.afterArrayRead {s : State} (h : s.Inv) {sd : SlotNo} {t : Slot} (ht : s.slot? sd = some t) {W : Nat}
    (hW : W ∈ [1, 8, 16, 32, 64]) {cnt start : Nat} (hin : start + cnt ≤ s.params.tmemEntries) :
    State.Inv { s.setSlot sd (Slot.readElements W cnt t s.tmem start).slot with
      tmem := (Slot.readElements W cnt t s.tmem start).tmem
      r1 := countValue (Slot.readElements W cnt t s.tmem start).total
      err := okStatus } := by
  have hwf := h.slot_wf ht
  have hr := Slot.readElements_reads hW cnt hwf.pos_le_len s.tmem start
  obtain ⟨hmem, hlt⟩ := h.tmem_wf
  obtain ⟨hmem', hlt'⟩ := Slot.readElements_tmem W cnt t hmem hlt hin
  have htotal : (Slot.readElements W cnt t s.tmem start).total ≤ 64 * s.params.tmemEntries := by
    calc (Slot.readElements W cnt t s.tmem start).total
        ≤ cnt * W := by rw [hr.count]; exact min_le_left _ _
      _ ≤ s.params.tmemEntries * 64 := Nat.mul_le_mul (by omega) (le_of_mem_widths hW)
      _ = 64 * s.params.tmemEntries := Nat.mul_comm _ _
  exact (((h.setSlot sd (hwf.readElements hr)).setTmem hmem' hlt').setCount (htotal.trans (le_max_right _ _))).ok

theorem CommandEffect.inv {s s' : State} (h : CommandEffect s s') (hs : s.Inv) : s'.Inv := by
  cases h with
  | raised e => exact hs.raise e
  | answered v => exact hs.ok
  | stored ht => exact (hs.setSlot _ (ht.wf hs)).ok
  | read ht hW hbc v => exact hs.afterRead ht hW hbc
  | readArray ht hW hcheck => exact hs.afterArrayRead ht hW (ArrayArgs.inside hcheck)

theorem EventEffect.inv {s s' : State} (h : EventEffect s s') (hs : s.Inv) : s'.Inv := by
  cases h with
  | command h => exact h.inv hs
  | reset =>
    obtain ⟨hp, hn, -⟩ := hs
    exact State.resetWith_inv hp hn
  | wroteTmem hi v =>
    obtain ⟨hmem, hlt⟩ := hs.tmem_wf
    exact hs.setTmem (Memory.write_wf hmem _ v) (Memory.write_lt hlt hi v)
  | ignored | answered | wroteA0 | wroteA1 | wroteA2 | wroteA3 => exact hs

/-- Settles O42, from what a step can do. -/
theorem stepKeepsParameters : Obligations.StepKeepsParameters := by
  intro s s' h
  rcases step_effect h with rfl | ⟨rest, he⟩
  · exact ⟨rfl, rfl⟩
  · exact he.sameParameters

/-- Settles O40: the model's own parameters are one legal choice. -/
theorem resetHasInv : Obligations.ResetHasInv :=
  ⟨State.resetWith_inv (by decide) (by decide), fun _ _ hp hn => State.resetWith_inv hp hn⟩

/-- Settles O41, from what a step can do: an event taken off the list of pending ones leaves the invariant as it is. -/
theorem stepKeepsInv : Obligations.StepKeepsInv := by
  intro s s' hs h
  rcases step_effect h with rfl | ⟨rest, he⟩
  · exact hs
  · exact he.inv (show State.Inv { s with pending := rest } from hs)

end Sys2Proof.Machine
end

section
/-!
PROOFS, part 4: what each command does, by its role (`exec_does`). Part 2 says what any command can do; here the role of the
command says which of these it is, and the slot is SD. The frame of a command (R118), the `open` bit (R101), the word count (R102)
and the length (R107) are then read off case by case.
-/

namespace Sys2Proof.Machine

/-! ## What the engine leaves of a slot, inside its bounds or not -/

theorem Slot.engineWriteFuel_isOpen (fuel : Nat) (t : Slot) (v : Word) (b c : Nat) :
    (Slot.engineWriteFuel fuel t v b c).isOpen = t.isOpen := by
  induction fuel generalizing t b c with
  | zero => rfl
  | succ fuel ih =>
    rw [Slot.engineWriteFuel]
    dsimp only
    split_ifs
    · rfl
    · rw [ih, Slot.placeInWord_isOpen]
    · exact Slot.placeInWord_isOpen ..

theorem Slot.engineWrite_isOpen (t : Slot) (v : Word) (b c : Nat) : (t.engineWrite v b c).isOpen = t.isOpen :=
  Slot.engineWriteFuel_isOpen c t v b c

theorem Slot.writeValue_isOpen (t : Slot) (v : Value) (W b c : Nat) : (t.writeValue v W b c).isOpen = t.isOpen := by
  unfold Slot.writeValue Slot.engineWrite64
  split_ifs <;> simp only [Slot.engineWrite_isOpen]

theorem Slot.writeElements_isOpen (t : Slot) (W : Nat) (es : List Value) : (t.writeElements W es).isOpen = t.isOpen := by
  induction es generalizing t with
  | nil => rfl
  | cons e es ih => rw [Slot.writeElements, ih, Slot.writeValue_isOpen]

/-- Some number of bits was written at the cursor (R504): where cursor, length and word count are then. -/
def Slot.WrittenOn (t t' : Slot) : Prop :=
  ∃ c, t'.pos = t.pos + c ∧ t'.len = max t.len (t.pos + c) ∧ IsGrown t.nw (t.pos + c) t'.nw

theorem WritesField.writtenOn {t t' : Slot} {v : Value} {b c : Nat} (h : WritesField t t' v b c) : t.WrittenOn t' :=
  ⟨c, h.pos, h.len, h.grown⟩

theorem WritesElements.writtenOn {t t' : Slot} {W : Nat} {es : List Value} (h : WritesElements t t' W es) :
    t.WrittenOn t' :=
  ⟨es.length * W, h.pos, h.len, h.grown⟩

/-- Some number of bits was read at the cursor, none past the length (R507): only the cursor moved. -/
def Slot.ReadOn (t t' : Slot) : Prop := ∃ k, k ≤ t.len - t.pos ∧ t' = { t with pos := t.pos + k }

theorem Slot.ReadOn.trans {t t' t'' : Slot} (h : t.ReadOn t') (h' : t'.ReadOn t'') : t.ReadOn t'' := by
  obtain ⟨k, hk, rfl⟩ := h
  obtain ⟨k', hk', rfl⟩ := h'
  exact ⟨k + k', by dsimp only at hk'; omega, by simp only [Nat.add_assoc]⟩

theorem ReadsField.readOn {t t' : Slot} {v : Value} {b c k : Nat} (h : ReadsField t t' v b c k) : t.ReadOn t' :=
  ⟨k, by rw [h.count]; exact min_le_right _ _, h.slot⟩

theorem Slot.readElements_readOn {W : Nat} (hW : W ∈ [1, 8, 16, 32, 64]) (cnt : Nat) (t : Slot) (m : Memory) (i : Nat) :
    t.ReadOn (Slot.readElements W cnt t m i).slot := by
  induction cnt generalizing t m i with
  | zero => exact ⟨0, Nat.zero_le _, rfl⟩
  | succ cnt ih =>
    have hr := t.readValue_reads hW 0 W (by omega)
    exact hr.readOn.trans (ih ..)

/-! ## Roles -/

/-- What a command does with the machine when it succeeds. -/
inductive Role where
  /-- `STATUS`, the cursor and length queries. -/
  | query
  /-- `INIT`, `INITC`, the logical and shift commands: `SD` becomes a new stream. -/
  | create
  /-- `CLOSE`. -/
  | close
  /-- `SETPOS`. -/
  | seek
  /-- The scalar and array writes. -/
  | write
  /-- The scalar reads and `RDBYTE`. -/
  | read
  /-- The array reads. -/
  | readArray

/-- The role of a command; the lemmas below tie it to R118's and R101's lists of commands. -/
def roleOf : Instr → Role
  | .status _ | .getpos _ | .getlen _ | .getlen8 _ | .getlen16 _ | .getlen32 _ | .getlen64 _ | .getcap _ => .query
  | .init _ | .initc _ | .and _ _ _ | .or _ _ _ | .xor _ _ _ | .not _ _ | .shl _ _ | .shr _ _ => .create
  | .close _ => .close
  | .setpos _ => .seek
  | .wr1 _ | .wr8 _ | .wr16 _ | .wr32 _ | .wr64 _ | .wrr1 _ | .wrr8 _ | .wrr16 _ | .wrr32 _ | .wrr64 _
  | .wra1 _ | .wra8 _ | .wra16 _ | .wra32 _ | .wra64 _ => .write
  | .rd1 _ | .rd8 _ | .rd16 _ | .rd32 _ | .rd64 _ | .rdr1 _ | .rdr8 _ | .rdr16 _ | .rdr32 _ | .rdr64 _ | .rdbyte _ => .read
  | .rda1 _ | .rda8 _ | .rda16 _ | .rda32 _ | .rda64 _ => .readArray

theorem writesR0_iff (i : Instr) : writesR0 i ↔ roleOf i = .query ∨ roleOf i = .read := by
  cases i <;> simp [writesR0, roleOf]

theorem readsStream_iff (i : Instr) (sd : SlotNo) :
    readsStream i sd ↔ (roleOf i = .read ∨ roleOf i = .readArray) ∧ destOf i = sd := by
  cases i <;> simp [readsStream, roleOf, destOf]

theorem writesTmem_iff (i : Instr) : writesTmem i ↔ roleOf i = .readArray := by
  cases i <;> simp [writesTmem, roleOf]

theorem opensSlot_iff (i : Instr) (n : SlotNo) : opensSlot i n ↔ roleOf i = .create ∧ destOf i = n := by
  cases i <;> simp [opensSlot, roleOf, destOf]

theorem eq_close_iff (i : Instr) (n : SlotNo) : i = .close n ↔ roleOf i = .close ∧ destOf i = n := by
  cases i <;> simp [roleOf, destOf]

theorem writeKind_iff (i : Instr) (sd : SlotNo) :
    (∃ W, kindOf i = .write W sd ∨ kindOf i = .writeRange W sd ∨ kindOf i = .writeArray W sd) ↔
      roleOf i = .write ∧ destOf i = sd := by
  cases i <;> simp [kindOf, roleOf, destOf]

/-! ## What a command does -/

/-- The states that a command can leave, by its role and its slot `SD`. -/
inductive Does (s : State) (sd : SlotNo) : Role → State → Prop where
  | raised {r : Role} (e : Err) : Does s sd r (s.raise e)
  | queried (v : Value) : Does s sd .query { s with r0 := v, err := okStatus }
  | created {t' : Slot} (ho : t'.isOpen = true) : Does s sd .create (s.setSlot sd t').ok
  | closed {t : Slot} (ht : s.slot? sd = some t) : Does s sd .close (s.setSlot sd { t with isOpen := false }).ok
  | sought {t : Slot} (ht : s.slot? sd = some t) (p : Nat) : Does s sd .seek (s.setSlot sd { t with pos := p }).ok
  | wrote {t t' : Slot} (ht : s.slot? sd = some t) (ho : t'.isOpen = t.isOpen) (hw : t.InBounds → t.WrittenOn t') :
      Does s sd .write (s.setSlot sd t').ok
  | read {t t' : Slot} (ht : s.slot? sd = some t) (hr : t.ReadOn t') (v k : Value) :
      Does s sd .read { s.setSlot sd t' with r0 := v, r1 := k, err := okStatus }
  | readArray {t t' : Slot} (ht : s.slot? sd = some t) (hr : t.ReadOn t') (m : Memory) (k : Value) :
      Does s sd .readArray { s.setSlot sd t' with tmem := m, r1 := k, err := okStatus }

theorem TurnedAway.does {s s' : State} {n : SlotNo} (h : TurnedAway s n s') (sd : SlotNo) (r : Role) : Does s sd r s' := by
  obtain ⟨e, rfl⟩ := h.raises
  exact .raised e

theorem query_does {f : Slot → Nat} {sd : SlotNo} {s s' : State} (h : query f sd s = .next s') : Does s sd .query s' := by
  rcases query_next h with ht | ⟨t, -, -, rfl⟩
  · exact ht.does _ _
  · exact .queried _

theorem execStatus_does {sd : SlotNo} {s s' : State} (h : execStatus sd s = .next s') : Does s sd .query s' := by
  rcases execStatus_next h with ⟨-, rfl⟩ | ⟨t, -, rfl⟩
  · exact .raised _
  · exact .queried _

theorem execInit_does {sd : SlotNo} {s s' : State} (h : execInit sd s = .next s') : Does s sd .create s' := by
  rcases execInit_next h with ⟨-, rfl⟩ | ⟨t, -, rfl⟩
  · exact .raised _
  · exact .created rfl

theorem execInitc_does {sd : SlotNo} {s s' : State} (h : execInitc sd s = .next s') : Does s sd .create s' := by
  rcases execInitc_next h with ⟨-, rfl⟩ | ⟨t, -, ⟨-, rfl⟩ | ⟨-, -, rfl⟩ | ⟨-, -, rfl⟩⟩
  · exact .raised _
  · exact .raised _
  · exact .raised _
  · exact .created rfl

theorem combine_does {f : Bool → Bool → Bool} {sd sa sb : SlotNo} {s s' : State} (h : combine f sd sa sb s = .next s') :
    Does s sd .create s' := by
  rcases combine_next h with ⟨-, rfl⟩ | ⟨d, a, b, -, -, -, ⟨-, rfl⟩ | ⟨-, -, -, rfl⟩ | ⟨-, -, -, rfl⟩⟩
  · exact .raised _
  · exact .raised _
  · exact .raised _
  · exact .created rfl

theorem execNot_does {sd sa : SlotNo} {s s' : State} (h : execNot sd sa s = .next s') : Does s sd .create s' := by
  rcases execNot_next h with ⟨-, rfl⟩ | ⟨d, -, ht | ⟨a, -, -, rfl⟩⟩
  · exact .raised _
  · exact ht.does _ _
  · exact .created rfl

theorem shift_does {f : Slot → Nat → Nat → Bool} {sd sa : SlotNo} {s s' : State} (h : shift f sd sa s = .next s') :
    Does s sd .create s' := by
  rcases shift_next h with ⟨-, rfl⟩ | ⟨d, -, ht | ⟨a, -, -, ⟨-, rfl⟩ | ⟨-, rfl⟩⟩⟩
  · exact .raised _
  · exact ht.does _ _
  · exact .raised _
  · exact .created rfl

theorem execShl_does {sd sa : SlotNo} {s s' : State} (h : execShl sd sa s = .next s') : Does s sd .create s' :=
  shift_does h

theorem execShr_does {sd sa : SlotNo} {s s' : State} (h : execShr sd sa s = .next s') : Does s sd .create s' :=
  shift_does h

theorem execClose_does {sd : SlotNo} {s s' : State} (h : execClose sd s = .next s') : Does s sd .close s' := by
  rcases execClose_next h with ht | ⟨t, ht, -, rfl⟩
  · exact ht.does _ _
  · exact .closed ht

theorem execSetpos_does {sd : SlotNo} {s s' : State} (h : execSetpos sd s = .next s') : Does s sd .seek s' := by
  rcases execSetpos_next h with ht | ⟨t, ht, -, ⟨-, rfl⟩ | ⟨-, -, rfl⟩⟩
  · exact ht.does _ _
  · exact .raised _
  · exact .sought ht _

/-- A scalar write, full width or sub-range. -/
theorem Does.ofWriteValue {s : State} {sd : SlotNo} {t : Slot} (ht : s.slot? sd = some t) {W b c : Nat}
    (hW : W ∈ [1, 8, 16, 32, 64]) (hbc : b + c ≤ W) (v : Value) :
    Does s sd .write (s.setSlot sd (t.writeValue v W b c)).ok :=
  .wrote ht (t.writeValue_isOpen v W b c) fun hb => (Slot.writeValue_writes hb v hW b c hbc).writtenOn

theorem scalarWrite_does {W : Nat} (hW : W ∈ [1, 8, 16, 32, 64]) {sd : SlotNo} {s s' : State}
    (h : scalarWrite W sd s = .next s') : Does s sd .write s' := by
  rcases scalarWrite_next h with ht | ⟨t, ht, -, ⟨-, rfl⟩ | ⟨-, rfl⟩⟩
  · exact ht.does _ _
  · exact .raised _
  · exact .ofWriteValue ht hW (by omega) _

theorem subrangeWrite_does {W : Nat} (hW : W ∈ [1, 8, 16, 32, 64]) {sd : SlotNo} {s s' : State}
    (h : subrangeWrite W sd s = .next s') : Does s sd .write s' := by
  rcases subrangeWrite_next h with ht | ⟨t, ht, -, ⟨-, rfl⟩ | ⟨hv, ⟨-, rfl⟩ | ⟨-, rfl⟩⟩⟩
  · exact ht.does _ _
  · exact .raised _
  · exact .raised _
  · exact .ofWriteValue ht hW (validRange_toNat hv) _

theorem arrayWrite_does {W : Nat} (hW : W ∈ [1, 8, 16, 32, 64]) {sd : SlotNo} {s s' : State}
    (h : arrayWrite W sd s = .next s') : Does s sd .write s' := by
  rcases arrayWrite_next h with ht | ⟨t, ht, -, ⟨e, -, rfl⟩ | ⟨-, ⟨-, rfl⟩ | ⟨-, es, -, rfl⟩⟩⟩
  · exact ht.does _ _
  · exact .raised e
  · exact .raised _
  · exact .wrote ht (t.writeElements_isOpen W es) fun hb => (Slot.writeElements_writes hb hW es).writtenOn

theorem scalarRead_does {W : Nat} (hW : W ∈ [1, 8, 16, 32, 64]) {sd : SlotNo} {s s' : State}
    (h : scalarRead W sd s = .next s') : Does s sd .read s' := by
  rcases scalarRead_next h with ht | ⟨t, ht, -, rfl⟩
  · exact ht.does _ _
  · exact .read ht (t.readValue_reads hW 0 W (by omega)).readOn _ _

theorem subrangeRead_does {W : Nat} (hW : W ∈ [1, 8, 16, 32, 64]) {sd : SlotNo} {s s' : State}
    (h : subrangeRead W sd s = .next s') : Does s sd .read s' := by
  rcases subrangeRead_next h with ht | ⟨t, ht, -, ⟨-, rfl⟩ | ⟨hv, rfl⟩⟩
  · exact ht.does _ _
  · exact .raised _
  · exact .read ht (t.readValue_reads hW _ _ (validRange_toNat hv)).readOn _ _

theorem execRdbyte_does {sd : SlotNo} {s s' : State} (h : execRdbyte sd s = .next s') : Does s sd .read s' := by
  rcases execRdbyte_next h with ht | ⟨t, ht, -, rfl⟩
  · exact ht.does _ _
  · exact .read ht (t.readValue_reads (by simp) 0 8 (by omega)).readOn _ _

theorem arrayRead_does {W : Nat} (hW : W ∈ [1, 8, 16, 32, 64]) {sd : SlotNo} {s s' : State}
    (h : arrayRead W sd s = .next s') : Does s sd .readArray s' := by
  rcases arrayRead_next h with ht | ⟨t, ht, -, ⟨e, -, rfl⟩ | ⟨-, rfl⟩⟩
  · exact ht.does _ _
  · exact .raised e
  · exact .readArray ht (Slot.readElements_readOn hW ..) _ _

/-- Every command does what its role says, to its slot `SD`. -/
theorem exec_does {i : Instr} {s s' : State} (h : exec i s = .next s') : Does s (destOf i) (roleOf i) s' := by
  cases i
  case init => exact execInit_does h
  case initc => exact execInitc_does h
  case close => exact execClose_does h
  case status => exact execStatus_does h
  case setpos => exact execSetpos_does h
  case rdbyte => exact execRdbyte_does h
  case not => exact execNot_does h
  case getpos | getlen | getlen8 | getlen16 | getlen32 | getlen64 | getcap => exact query_does h
  case wr1 | wr8 | wr16 | wr32 | wr64 => exact scalarWrite_does (by simp) h
  case wrr1 | wrr8 | wrr16 | wrr32 | wrr64 => exact subrangeWrite_does (by simp) h
  case rd1 | rd8 | rd16 | rd32 | rd64 => exact scalarRead_does (by simp) h
  case rdr1 | rdr8 | rdr16 | rdr32 | rdr64 => exact subrangeRead_does (by simp) h
  case wra1 | wra8 | wra16 | wra32 | wra64 => exact arrayWrite_does (by simp) h
  case rda1 | rda8 | rda16 | rda32 | rda64 => exact arrayRead_does (by simp) h
  case and | or | xor => exact combine_does h
  case shl => exact execShl_does h
  case shr => exact execShr_does h

end Sys2Proof.Machine
end

section
/-!
PROOFS, part 5: the frame of a command, the `open` bit, the word count and the length laws (O32, O34, O35, O36), by the cases of
`Does`.
-/

namespace Sys2Proof.Machine

/-! ## The frame of a command (R118) -/

/-- What no command writes: the argument registers and the model's own fields (R108). -/
structure State.SameInputs (s s' : State) : Prop where
  a0 : s'.a0 = s.a0
  a1 : s'.a1 = s.a1
  a2 : s'.a2 = s.a2
  a3 : s'.a3 = s.a3
  pending : s'.pending = s.pending
  readData : s'.readData = s.readData

section
variable {s s' : State} {sd : SlotNo} {r : Role}

theorem Does.sameInputs (h : Does s sd r s') : s.SameInputs s' := by
  cases h <;> exact ⟨rfl, rfl, rfl, rfl, rfl, rfl⟩

theorem Does.r0_eq (h : Does s sd r s') (hq : r ≠ .query) (hr : r ≠ .read) : s'.r0 = s.r0 := by
  cases h with
  | queried => exact absurd rfl hq
  | read => exact absurd rfl hr
  | raised | created | closed | sought | wrote | readArray => rfl

theorem Does.r1_eq (h : Does s sd r s') (hr : r ≠ .read) (ha : r ≠ .readArray) : s'.r1 = s.r1 := by
  cases h with
  | read => exact absurd rfl hr
  | readArray => exact absurd rfl ha
  | raised | queried | created | closed | sought | wrote => rfl

theorem Does.tmem_eq (h : Does s sd r s') (ha : r ≠ .readArray) : s'.tmem = s.tmem := by
  cases h with
  | readArray => exact absurd rfl ha
  | raised | queried | created | closed | sought | wrote | read => rfl

/-- Every slot but `SD` is as it was (R404). -/
theorem Does.slot?_other (h : Does s sd r s') {n : SlotNo} (hn : n ≠ sd) : s'.slot? n = s.slot? n := by
  cases h with
  | raised | queried => rfl
  | created | closed | sought | wrote | read | readArray => exact s.setSlot_slot?_other hn _

/-! ## The slot `SD` before and after -/

variable {t t' : Slot}

/-- How a role sets the `open` bit of `SD` (R101). -/
def Role.openBit : Role → Bool → Bool
  | .create, _ => true
  | .close, _ => false
  | .query, b | .seek, b | .write, b | .read, b | .readArray, b => b

theorem Slot.ReadOn.isOpen_eq (h : t.ReadOn t') : t'.isOpen = t.isOpen := by
  obtain ⟨k, -, rfl⟩ := h
  rfl

theorem Slot.ReadOn.nw_eq (h : t.ReadOn t') : t'.nw = t.nw := by
  obtain ⟨k, -, rfl⟩ := h
  rfl

/-- What a command leaves in `SD`: on an error the slot as it was (R801), else what its role puts there. -/
inductive SlotDoes (t : Slot) : Role → Word → Slot → Prop where
  | raised {r : Role} (e : Err) : SlotDoes t r e.status t
  | queried : SlotDoes t .query okStatus t
  | created {t' : Slot} (ho : t'.isOpen = true) : SlotDoes t .create okStatus t'
  | closed : SlotDoes t .close okStatus { t with isOpen := false }
  | sought (p : Nat) : SlotDoes t .seek okStatus { t with pos := p }
  | wrote {t' : Slot} (ho : t'.isOpen = t.isOpen) (hw : t.InBounds → t.WrittenOn t') : SlotDoes t .write okStatus t'
  | read {r : Role} {t' : Slot} (hr : t.ReadOn t') (h : r = .read ∨ r = .readArray) : SlotDoes t r okStatus t'

theorem Does.slotDoes (h : Does s sd r s') (ht : s.slot? sd = some t) (ht' : s'.slot? sd = some t') :
    SlotDoes t r s'.err t' := by
  have hset : ∀ u, (s.setSlot sd u).slot? sd = some t' → u = t' := fun u hu =>
    Option.some.inj ((State.setSlot_slot?_same ht u).symm.trans hu)
  cases h with
  | raised e =>
    obtain rfl : t = t' := Option.some.inj (ht.symm.trans ht')
    exact .raised e
  | queried v =>
    obtain rfl : t = t' := Option.some.inj (ht.symm.trans ht')
    exact .queried
  | created ho =>
    obtain rfl := hset _ ht'
    exact .created ho
  | closed hu =>
    obtain rfl := Option.some.inj (hu.symm.trans ht)
    obtain rfl := hset _ ht'
    exact .closed
  | sought hu p =>
    obtain rfl := Option.some.inj (hu.symm.trans ht)
    obtain rfl := hset _ ht'
    exact .sought p
  | wrote hu ho hw =>
    obtain rfl := Option.some.inj (hu.symm.trans ht)
    obtain rfl := hset _ ht'
    exact .wrote ho hw
  | read hu hr v k =>
    obtain rfl := Option.some.inj (hu.symm.trans ht)
    obtain rfl := hset _ ht'
    exact .read hr (.inl rfl)
  | readArray hu hr m k =>
    obtain rfl := Option.some.inj (hu.symm.trans ht)
    obtain rfl := hset _ ht'
    exact .read hr (.inr rfl)

end

theorem Err.status_ne_zero (e : Err) : e.status ≠ 0#32 := by
  cases e <;> decide

section
variable {t t' : Slot} {r : Role} {err : Word}

/-- The `open` bit after a command: as it was on an error, else as the role sets it (R101). -/
theorem SlotDoes.openBit (h : SlotDoes t r err t') :
    (err ≠ 0#32 ∧ t'.isOpen = t.isOpen) ∨ (err = 0#32 ∧ t'.isOpen = r.openBit t.isOpen) := by
  cases h with
  | raised e => exact .inl ⟨e.status_ne_zero, rfl⟩
  | queried | closed | sought => exact .inr ⟨rfl, rfl⟩
  | created ho => exact .inr ⟨rfl, ho⟩
  | wrote ho => exact .inr ⟨rfl, ho⟩
  | read hr h =>
    rcases h with rfl | rfl <;> exact .inr ⟨rfl, hr.isOpen_eq⟩

/-- Only a new stream has another word count than the old one doubled some times (R102). -/
theorem SlotDoes.nw_eq (h : SlotDoes t r err t') (hb : t.InBounds) (hr : r ≠ .create) : ∃ k, t'.nw = t.nw * 2 ^ k := by
  have hsame : t'.nw = t.nw → ∃ k, t'.nw = t.nw * 2 ^ k := fun he => ⟨0, by rw [he, Nat.pow_zero, Nat.mul_one]⟩
  cases h with
  | raised | queried | closed | sought => exact hsame rfl
  | created => exact absurd rfl hr
  | wrote ho hw =>
    obtain ⟨c, -, -, k, hk, -⟩ := hw hb
    exact ⟨k, hk⟩
  | read hr => exact hsame hr.nw_eq

/-- The length after a write command (R107); an error writes no bits. -/
theorem SlotDoes.write_length (h : SlotDoes t .write err t') (hb : t.InBounds) :
    t.pos ≤ t'.pos ∧ t'.len = max t.len t'.pos := by
  have ⟨_, hpos, _⟩ := hb
  cases h with
  | raised => exact ⟨le_rfl, by omega⟩
  | wrote ho hw =>
    obtain ⟨c, hp, hl, -⟩ := hw hb
    omega
  | read hr h => simp at h

/-- A read command moves the cursor of `SD` and nothing else of it, and not past the length (R107); an error does not move it. -/
theorem SlotDoes.readOn (h : SlotDoes t r err t') (hr : r = .read ∨ r = .readArray) : t.ReadOn t' := by
  cases h with
  | raised => exact ⟨0, Nat.zero_le _, rfl⟩
  | read hr => exact hr
  | queried | created | closed | sought | wrote => simp at hr

end

/-! ## The obligations -/

/-- Settles O32, from what each role does. -/
theorem commandsWriteOnlyTheirState : Obligations.CommandsWriteOnlyTheirState := by
  intro i s s' h
  obtain ⟨hparams, hslots⟩ := (exec_effect h).sameParameters
  have hd := exec_does h
  obtain ⟨h0, h1, h2, h3, hpending, hdata⟩ := hd.sameInputs
  refine ⟨h0, h1, h2, h3, hparams, hpending, hdata, hslots, fun hi => ?_, fun hi => ?_, fun hi => ?_,
    fun n hn => hd.slot?_other hn⟩
  · rw [writesR0_iff] at hi
    exact hd.r0_eq (fun hr => hi (.inl hr)) (fun hr => hi (.inr hr))
  · have hi := hi (destOf i)
    rw [readsStream_iff] at hi
    exact hd.r1_eq (fun hr => hi ⟨.inl hr, rfl⟩) (fun hr => hi ⟨.inr hr, rfl⟩)
  · rw [writesTmem_iff] at hi
    exact hd.tmem_eq hi

/-- Settles O34: a slot that is not `SD` keeps its bit; that of `SD` is as the role sets it. -/
theorem openBitChangesOnlyByRule : Obligations.OpenBitChangesOnlyByRule := by
  intro i s s' n t t' h ht ht'
  have hd := exec_does h
  rw [opensSlot_iff, eq_close_iff]
  by_cases hn : n = destOf i
  · subst hn
    rcases (hd.slotDoes ht ht').openBit with ⟨herr, hb⟩ | ⟨herr, hb⟩
    · rw [hb]
      simp +contextual [herr]
    · rw [hb]
      cases roleOf i <;> simp +contextual [Role.openBit]
  · obtain rfl : t' = t := Option.some.inj (ht'.symm.trans ((hd.slot?_other hn).trans ht))
    simp +contextual [Ne.symm hn]

/-- Settles O35: only a command that makes a new stream leaves another word count than a doubled one. -/
theorem capacityOnlyDoubles : Obligations.CapacityOnlyDoubles := by
  intro i s s' n t t' h ht ht' hb hi
  have hd := exec_does h
  by_cases hn : n = destOf i
  · subst hn
    exact (hd.slotDoes ht ht').nw_eq hb fun hr => hi ((opensSlot_iff ..).mpr ⟨hr, rfl⟩)
  · obtain rfl : t' = t := Option.some.inj (ht'.symm.trans ((hd.slot?_other hn).trans ht))
    exact ⟨0, by rw [Nat.pow_zero, Nat.mul_one]⟩

/-- Settles O36: after a write the length is the larger of the old length and the new cursor; a read moves the cursor alone. -/
theorem streamLengthLaws : Obligations.StreamLengthLaws := by
  intro i s s' sd t t' h ht ht' hb
  have hd := exec_does h
  refine ⟨fun hi => ?_, fun hi => ?_⟩
  · obtain ⟨hr, rfl⟩ := (writeKind_iff i sd).mp hi
    rw [hr] at hd
    obtain ⟨hpos, hlen⟩ := (hd.slotDoes ht ht').write_length hb
    refine ⟨hpos, fun he => by omega, fun hlt => ?_⟩
    split_ifs <;> omega
  · obtain ⟨hr, rfl⟩ := (readsStream_iff i sd).mp hi
    obtain ⟨k, hk, rfl⟩ := (hd.slotDoes ht ht').readOn hr
    obtain ⟨-, hpl, -⟩ := hb
    dsimp only
    exact ⟨rfl, rfl, by omega, by omega⟩

end Sys2Proof.Machine
end

section
/-!
PROOFS, part 6: a command neither reads nor writes a slot it does not name (O33). Putting another stream into slot `n` commutes with
each shared operation that does not name `n`, so with each command.
-/

namespace Sys2Proof.Machine

/-- What is answered, with the stream `t` put into slot `n` of the next state. -/
def Result.setSlot (n : SlotNo) (t : Slot) : Result → Result
  | .next s => .next (s.setSlot n t)
  | .fault f => .fault f
  | .refused r => .refused r

/-- An operation neither reads nor writes slot `n`: putting any stream there before or after it is the same (R100). -/
def Ignores (n : SlotNo) (f : State → Result) : Prop := ∀ (s : State) (t : Slot), f (s.setSlot n t) = (f s).setSlot n t

@[simp] theorem State.setSlot_arrayArgs (s : State) (n : SlotNo) (t : Slot) : (s.setSlot n t).arrayArgs = s.arrayArgs := rfl

theorem State.setSlot_comm (s : State) {n m : SlotNo} (h : m ≠ n) (t u : Slot) :
    (s.setSlot n t).setSlot m u = (s.setSlot m u).setSlot n t := by
  have hne : n.toNat ≠ m.toNat := fun he => h (BitVec.eq_of_toNat_eq he.symm)
  simp only [State.setSlot, List.set_comm _ _ hne]

/-- The end of most commands that succeed. -/
theorem State.setSlot_ok_comm (s : State) {n m : SlotNo} (h : m ≠ n) (t u : Slot) :
    ((s.setSlot n t).setSlot m u).ok = (s.setSlot m u).ok.setSlot n t :=
  congrArg State.ok (s.setSlot_comm h t u)

theorem State.afterRead_comm (s : State) {n m : SlotNo} (h : m ≠ n) (t : Slot) (r : ReadResult 64) :
    (s.setSlot n t).afterRead m r = (s.afterRead m r).setSlot n t :=
  congrArg (fun x : State => ({ x with r0 := r.value, r1 := countValue r.count } : State).ok) (s.setSlot_comm h t r.slot)

section
variable {n m : SlotNo}

/-! ## One rule for each way an operation is put together -/

theorem Ignores.next {g : State → State} (h : ∀ s t, g (s.setSlot n t) = (g s).setSlot n t) : Ignores n fun s => .next (g s) :=
  fun s t => congrArg Host.Outcome.next (h s t)

theorem Ignores.fail (e : Err) : Ignores n fun s => s.fail e := fun _ _ => rfl

/-- A check that does not read slot `n`, then two operations that ignore it. -/
theorem Ignores.ite {c : State → Prop} [∀ s, Decidable (c s)] {f g : State → Result}
    (hc : ∀ s t, c (s.setSlot n t) ↔ c s) (hf : Ignores n f) (hg : Ignores n g) :
    Ignores n fun s => if c s then f s else g s := by
  intro s t
  by_cases h : c s
  · simp only [hc, h, if_true, hf s t]
  · simp only [hc, h, if_false, hg s t]

theorem Ignores.onSlot {k : State → Slot → Result} (h : m ≠ n) (hk : ∀ u, Ignores n fun s => k s u) :
    Ignores n fun s => s.onSlot m (k s) := by
  intro s t
  have hs := s.setSlot_slot?_other h t
  cases hu : s.slot? m with
  | none =>
    rw [hu] at hs
    simp only [State.onSlot_of_none hs, State.onSlot_of_none hu]
    rfl
  | some u =>
    rw [hu] at hs
    simp only [State.onSlot_of_some hs, State.onSlot_of_some hu]
    exact hk u s t

theorem Ignores.onOpenSlot {k : State → Slot → Result} (h : m ≠ n) (hk : ∀ u, Ignores n fun s => k s u) :
    Ignores n fun s => s.onOpenSlot m (k s) :=
  Ignores.onSlot h fun u => Ignores.ite (fun _ _ => Iff.rfl) (hk u) (Ignores.fail _)

/-! ## The shared operations and the commands with a meaning of their own -/

theorem query_ignores (h : m ≠ n) (f : Slot → Nat) : Ignores n (query f m) :=
  Ignores.onOpenSlot h fun _ => Ignores.next fun _ _ => rfl

theorem execStatus_ignores (h : m ≠ n) : Ignores n (execStatus m) :=
  Ignores.onSlot h fun _ => Ignores.next fun _ _ => rfl

theorem execInit_ignores (h : m ≠ n) : Ignores n (execInit m) :=
  Ignores.onSlot h fun _ => Ignores.next fun s t => s.setSlot_ok_comm h t _

theorem execInitc_ignores (h : m ≠ n) : Ignores n (execInitc m) :=
  Ignores.onSlot h fun _ => Ignores.ite (fun _ _ => Iff.rfl) (Ignores.fail _)
    (Ignores.ite (fun _ _ => Iff.rfl) (Ignores.fail _) (Ignores.next fun s t => s.setSlot_ok_comm h t _))

theorem execClose_ignores (h : m ≠ n) : Ignores n (execClose m) :=
  Ignores.onOpenSlot h fun _ => Ignores.next fun s t => s.setSlot_ok_comm h t _

theorem execSetpos_ignores (h : m ≠ n) : Ignores n (execSetpos m) :=
  Ignores.onOpenSlot h fun _ => Ignores.ite (fun _ _ => Iff.rfl) (Ignores.fail _)
    (Ignores.next fun s t => s.setSlot_ok_comm h t _)

/-- The check against MAX_WORDS, then the write, where the count `T` and the new slot `u` do not depend on slot `n`. -/
theorem commitWrite_ignores (h : m ≠ n) (t : Slot) {T : State → Nat} {u : State → Slot}
    (hT : ∀ s t, T (s.setSlot n t) = T s) (hu : ∀ s t, u (s.setSlot n t) = u s) :
    Ignores n fun s => commitWrite m t (T s) (u s) s :=
  Ignores.ite (fun s t => by rw [hT, State.setSlot_params]) (Ignores.fail _)
    (Ignores.next fun s t => by rw [hu, s.setSlot_ok_comm h])

theorem scalarWrite_ignores (h : m ≠ n) (W : Nat) : Ignores n (scalarWrite W m) :=
  Ignores.onOpenSlot h fun t => commitWrite_ignores h t (fun _ _ => rfl) (fun _ _ => rfl)

theorem subrangeWrite_ignores (h : m ≠ n) (W : Nat) : Ignores n (subrangeWrite W m) :=
  Ignores.onOpenSlot h fun t => Ignores.ite (fun _ _ => Iff.rfl)
    (commitWrite_ignores h t (fun _ _ => rfl) (fun _ _ => rfl)) (Ignores.fail _)

theorem scalarRead_ignores (h : m ≠ n) (W : Nat) : Ignores n (scalarRead W m) :=
  Ignores.onOpenSlot h fun _ => Ignores.next fun s t => s.afterRead_comm h t _

theorem subrangeRead_ignores (h : m ≠ n) (W : Nat) : Ignores n (subrangeRead W m) :=
  Ignores.onOpenSlot h fun _ => Ignores.ite (fun _ _ => Iff.rfl)
    (Ignores.next fun s t => s.afterRead_comm h t _) (Ignores.fail _)

theorem execRdbyte_ignores (h : m ≠ n) : Ignores n (execRdbyte m) := by
  refine Ignores.onOpenSlot h fun u => Ignores.next fun s t => ?_
  have hc := s.afterRead_comm h t (u.readValue 8 0 8)
  rw [hc]
  split <;> rfl

theorem arrayWrite_ignores (h : m ≠ n) (W : Nat) : Ignores n (arrayWrite W m) := by
  refine Ignores.onOpenSlot h fun u s t => ?_
  dsimp only
  rw [State.setSlot_arrayArgs, State.setSlot_params, State.setSlot_tmem]
  split
  · rfl
  · split
    · rfl
    · split
      · rfl
      · exact congrArg Host.Outcome.next (s.setSlot_ok_comm h t _)

theorem arrayRead_ignores (h : m ≠ n) (W : Nat) : Ignores n (arrayRead W m) := by
  refine Ignores.onOpenSlot h fun u s t => ?_
  dsimp only
  rw [State.setSlot_arrayArgs, State.setSlot_params, State.setSlot_tmem]
  split
  · rfl
  · rw [State.setSlot_comm s h]
    rfl

theorem combine_ignores {sd sa sb : SlotNo} (hd : sd ≠ n) (ha : sa ≠ n) (hb : sb ≠ n) (f : Bool → Bool → Bool) :
    Ignores n (combine f sd sa sb) :=
  Ignores.onSlot hd fun _ => Ignores.onSlot ha fun _ => Ignores.onSlot hb fun _ =>
    Ignores.ite (fun _ _ => Iff.rfl) (Ignores.fail _) <| Ignores.ite (fun _ _ => Iff.rfl) (Ignores.fail _) <|
      Ignores.ite (fun _ _ => Iff.rfl) (Ignores.fail _) <| Ignores.next fun s t => s.setSlot_ok_comm hd t _

theorem execNot_ignores {sd sa : SlotNo} (hd : sd ≠ n) (ha : sa ≠ n) : Ignores n (execNot sd sa) :=
  Ignores.onSlot hd fun _ => Ignores.onOpenSlot ha fun _ => Ignores.next fun s t => s.setSlot_ok_comm hd t _

theorem shift_ignores {sd sa : SlotNo} (hd : sd ≠ n) (ha : sa ≠ n) (f : Slot → Nat → Nat → Bool) :
    Ignores n (shift f sd sa) :=
  Ignores.onSlot hd fun _ => Ignores.onOpenSlot ha fun _ => Ignores.ite (fun _ _ => Iff.rfl) (Ignores.fail _)
    (Ignores.next fun s t => s.setSlot_ok_comm hd t _)

theorem execShl_ignores {sd sa : SlotNo} (hd : sd ≠ n) (ha : sa ≠ n) : Ignores n (execShl sd sa) := by
  unfold execShl
  exact shift_ignores hd ha _

theorem execShr_ignores {sd sa : SlotNo} (hd : sd ≠ n) (ha : sa ≠ n) : Ignores n (execShr sd sa) := by
  unfold execShr
  exact shift_ignores hd ha _

/-- Every command ignores the slots it does not name. -/
theorem exec_ignores {i : Instr} (h : n ∉ i.slotFields) : Ignores n (exec i) := by
  have hne : ∀ m ∈ i.slotFields, m ≠ n := fun m hm he => h (he ▸ hm)
  clear h
  cases i <;> simp only [Instr.slotFields, List.forall_mem_cons, List.not_mem_nil, false_implies, implies_true, and_true] at hne
  case init => exact execInit_ignores hne
  case initc => exact execInitc_ignores hne
  case close => exact execClose_ignores hne
  case status => exact execStatus_ignores hne
  case setpos => exact execSetpos_ignores hne
  case rdbyte => exact execRdbyte_ignores hne
  case getpos | getlen | getlen8 | getlen16 | getlen32 | getlen64 | getcap => exact query_ignores hne _
  case wr1 | wr8 | wr16 | wr32 | wr64 => exact scalarWrite_ignores hne _
  case wrr1 | wrr8 | wrr16 | wrr32 | wrr64 => exact subrangeWrite_ignores hne _
  case rd1 | rd8 | rd16 | rd32 | rd64 => exact scalarRead_ignores hne _
  case rdr1 | rdr8 | rdr16 | rdr32 | rdr64 => exact subrangeRead_ignores hne _
  case wra1 | wra8 | wra16 | wra32 | wra64 => exact arrayWrite_ignores hne _
  case rda1 | rda8 | rda16 | rda32 | rda64 => exact arrayRead_ignores hne _
  case and | or | xor =>
    obtain ⟨hd, ha, hb⟩ := hne
    exact combine_ignores hd ha hb _
  case not =>
    obtain ⟨hd, ha⟩ := hne
    exact execNot_ignores hd ha
  case shl =>
    obtain ⟨hd, ha⟩ := hne
    exact execShl_ignores hd ha
  case shr =>
    obtain ⟨hd, ha⟩ := hne
    exact execShr_ignores hd ha

end

/-- Settles O33: each command ignores the slots it does not name, whichever way it ends. -/
theorem slotsAreIsolated : Obligations.SlotsAreIsolated := by
  intro i s n t h
  have hi := exec_ignores h s t
  cases he : exec i s <;> rw [he] at hi <;> exact hi

end Sys2Proof.Machine
end

section
/-!
PROOFS, part 7: the host port. The encoding of a command decodes to it; what each place of the register window is; what a host read
and a host write of a place do (O4, O38, O43, O44, O48); and what a step does to `STICKY` (O30).
-/

namespace Sys2Proof

/-- Every command is what its word decodes to (R300 to R308). -/
theorem decode_encode (i : Instr) : decode (encode i) = .ok i := by
  cases i <;> simp [decode, encode, formS, formSW, formDAB, formDA]

end Sys2Proof

namespace Sys2Proof.Machine

/-! ## The register window (R115, R203) -/

/-- The window lies at BSE_BASE (R211). -/
@[simp] theorem hostTarget_base_add (p : Params) (off : Nat) (w : BusWidth) :
    hostTarget p (p.bseBase + off) w = windowAt p.tmemEntries off w := by
  simp [hostTarget]

theorem BusWidth.bytes_pos (w : BusWidth) : 0 < w.bytes := by
  cases w <;> decide

theorem windowAt_reserved {n off : Nat} {w : BusWidth} (h : 0x40 ≤ off) (h' : off + w.bytes ≤ 0x1000) :
    windowAt n off w = some .reserved := by
  have hw := w.bytes_pos
  rw [windowAt, if_neg (by omega), if_pos (by omega), if_pos h']

theorem windowAt_tmem {n i : Nat} (h : i < n) : windowAt n (0x1000 + 8 * i) .w64 = some (.tmem i) := by
  have hsub : 0x1000 + 8 * i - 0x1000 = 8 * i := by omega
  have hdiv : 8 * i / 8 = i := by omega
  rw [windowAt, if_neg (by omega), if_neg (by omega), hsub, hdiv, if_pos ⟨rfl, by omega, h⟩]

/-- The register that a `get` statement reads (R311). -/
def HostReg.target : HostReg → Target
  | .a0 => .a0
  | .a1 => .a1
  | .a2 => .a2
  | .a3 => .a3
  | .r0 => .r0
  | .r1 => .r1
  | .err => .err
  | .sticky => .sticky

theorem windowAt_place (n : Nat) (r : HostReg) : windowAt n r.place.1 r.place.2 = some r.target := by
  cases r <;> rfl

section
variable {s : State} {off : Nat} {w : BusWidth} {g : Target}

theorem accept_read (h : windowAt s.params.tmemEntries off w = some g) :
    accept (.read (s.params.bseBase + off) w) s = hostReadAt g s := by
  simp only [accept, hostTarget_base_add, h]

theorem accept_write (h : windowAt s.params.tmemEntries off w = some g) (v : Value) :
    accept (.write (s.params.bseBase + off) w v) s = hostWriteAt g v s := by
  simp only [accept, hostTarget_base_add, h]

theorem step_read {rest : List HostEvent} (hp : s.pending = .read (s.params.bseBase + off) w :: rest)
    (h : windowAt s.params.tmemEntries off w = some g) : step s = hostReadAt g { s with pending := rest } :=
  (step_of_pending hp).trans (accept_read (s := { s with pending := rest }) h)

theorem step_write {rest : List HostEvent} {v : Value} (hp : s.pending = .write (s.params.bseBase + off) w v :: rest)
    (h : windowAt s.params.tmemEntries off w = some g) : step s = hostWriteAt g v { s with pending := rest } :=
  (step_of_pending hp).trans (accept_write (s := { s with pending := rest }) h v)

end

/-! ## `STICKY` (R112) -/

/-- `STICKY` is as it was or has gained the bit of one error. -/
def State.StickyGrows (s s' : State) : Prop := s'.sticky = s.sticky ∨ ∃ e, s'.sticky = stickyAfter s.sticky e

theorem CommandEffect.stickyGrows {s s' : State} (h : CommandEffect s s') : s.StickyGrows s' := by
  cases h with
  | raised e => exact .inr ⟨e, rfl⟩
  | answered | stored | read | readArray => exact .inl rfl

theorem State.StickyGrows.and_eq {s s' : State} (h : s.StickyGrows s') : s.sticky &&& s'.sticky = s.sticky := by
  rcases h with h | ⟨e, h⟩
  · rw [h, BitVec.and_self]
  · rw [h, stickyAfter]
    ext i
    simp +contextual

theorem State.StickyGrows.zeroBits {s s' : State} (h : s.StickyGrows s') (hz : s.sticky &&& stickyZeroBits = 0#32) :
    s'.sticky &&& stickyZeroBits = 0#32 := by
  rcases h with h | ⟨e, h⟩
  · rw [h, hz]
  · rw [h, stickyAfter_zeroBits hz]

/-- A command's error is in `ERR` and its bit in `STICKY`; without one `STICKY` is as it was (R112, R801). -/
theorem CommandEffect.sticky_of_err {s s' : State} (h : CommandEffect s s') (he : s'.err ≠ 0#32) :
    s'.sticky = s.sticky ||| (1#32 <<< s'.err.toNat) := by
  cases h with
  | raised e =>
    have hcode : e.status.toNat = e.code := by cases e <;> rfl
    rw [State.raise_sticky, State.raise_err, hcode, stickyAfter]
  | answered | stored | read | readArray => exact absurd rfl he

/-- Of the outside events only a reset clears a bit of `STICKY`. -/
theorem accept_stickyGrows {e : HostEvent} {s s' : State} (h : accept e s = .next s') (he : e ≠ .reset) :
    s.StickyGrows s' := by
  cases e with
  | reset => exact absurd rfl he
  | read addr w =>
    simp only [accept] at h
    split at h
    · cases h
    · obtain ⟨v, rfl⟩ := hostReadAt_next h
      exact .inl rfl
  | write addr w v =>
    simp only [accept] at h
    split at h
    · cases h
    · rcases hostWriteAt_next h with ⟨-, hc⟩ | rfl | rfl | rfl | rfl | rfl | ⟨i, -, rfl⟩
      · exact (runCommand_effect hc).stickyGrows
      all_goals exact .inl rfl

theorem step_of_reset {s : State} {rest : List HostEvent} (h : s.pending = .reset :: rest) :
    step s = .next (State.resetInput { s with pending := rest }) := step_of_pending h

/-- A step is a reset, or `STICKY` only grows. -/
theorem step_stickyGrows {s s' : State} (h : step s = .next s') (hr : ¬ ∃ rest, s.pending = .reset :: rest) :
    s.StickyGrows s' := by
  cases hp : s.pending with
  | nil =>
    simp only [step, stepOnce, hp] at h
    cases h
    exact .inl rfl
  | cons e rest =>
    rw [step_of_pending hp] at h
    exact accept_stickyGrows (s := { s with pending := rest }) h fun he => hr ⟨rest, he ▸ hp⟩

/-! ## The obligations -/

/-- Settles O30: only a reset does not let `STICKY` grow. -/
theorem stickyAccumulates : Obligations.StickyAccumulates := by
  refine ⟨fun i s s' h he => (exec_effect h).sticky_of_err he, fun s s' h => ⟨?_, fun hr => (step_stickyGrows h hr).and_eq, ?_, ?_⟩⟩
  · rintro ⟨rest, hp⟩
    cases (step_of_reset hp).symm.trans h
    rfl
  · intro hz
    by_cases hr : ∃ rest, s.pending = .reset :: rest
    · obtain ⟨rest, hp⟩ := hr
      cases (step_of_reset hp).symm.trans h
      exact BitVec.zero_and
    · exact (step_stickyGrows h hr).zeroBits hz
  · rintro ⟨v, rest, hp⟩
    cases (step_write (g := .sticky) hp rfl).symm.trans h
    rfl

/-- Settles O4: the word goes to `CMD`, and `CMD` runs what it decodes to. -/
theorem stepRunsDecodedCommand : Obligations.StepRunsDecodedCommand := by
  intro s rest data i hp hd
  calc step s = runCommand (data.setWidth 32) { s with pending := rest } := step_write (off := 0) (g := .cmd) hp rfl
    _ = exec i { s with pending := rest } := by rw [runCommand, hd]

/-- Settles O38: both states are the reset state of the same parameters. -/
theorem resetRule : Obligations.ResetRule := by
  rintro s r (rfl | ⟨rest, hp, h⟩)
  · exact ⟨fun t ht => List.eq_of_mem_replicate ht, rfl, rfl, rfl, rfl, rfl, rfl, rfl, rfl, fun _ => rfl⟩
  · cases (step_of_reset hp).symm.trans h
    exact ⟨fun t ht => List.eq_of_mem_replicate ht, rfl, rfl, rfl, rfl, rfl, rfl, rfl, rfl, fun _ => rfl⟩

/-- Settles O43: each offset of the list is one register, and the reserved range reads 0. -/
theorem hostReadsRegisterMap : Obligations.HostReadsRegisterMap := by
  intro s rest
  refine ⟨fun off w v h hp => ?_, fun off w h h' hp => step_read hp (windowAt_reserved h h')⟩
  simp only [List.mem_cons, Prod.mk.injEq, List.not_mem_nil, or_false] at h
  rcases h with ⟨rfl, rfl, rfl⟩ | ⟨rfl, rfl, rfl⟩ | ⟨rfl, rfl, rfl⟩ | ⟨rfl, rfl, rfl⟩ | ⟨rfl, rfl, rfl⟩ | ⟨rfl, rfl, rfl⟩ |
    ⟨rfl, rfl, rfl⟩ | ⟨rfl, rfl, rfl⟩ | ⟨rfl, rfl, rfl⟩ | ⟨rfl, rfl, rfl⟩
  all_goals exact step_read hp rfl

/-- Settles O44: each offset of the list is one register, and the reserved range ignores the write. -/
theorem hostWritesRegisterMap : Obligations.HostWritesRegisterMap := by
  intro s rest v
  refine ⟨fun off w r h hp => ?_, fun off w h h' hp => step_write hp (windowAt_reserved h h')⟩
  simp only [List.mem_cons, Prod.mk.injEq, List.not_mem_nil, or_false] at h
  rcases h with ⟨rfl, rfl, rfl⟩ | ⟨rfl, rfl, rfl⟩ | ⟨rfl, rfl, rfl⟩ | ⟨rfl, rfl, rfl⟩ | ⟨rfl, rfl, rfl⟩ | ⟨rfl, rfl, rfl⟩ |
    ⟨rfl, rfl, rfl⟩ | ⟨rfl, rfl, rfl⟩ | ⟨rfl, rfl, rfl⟩
  all_goals exact step_write hp rfl

/-- Settles O48: each statement's address is the place of its register or entry, and a command's word decodes to it. -/
theorem hostStatementsAct : Obligations.HostStatementsAct := by
  intro s v
  refine ⟨?_, ?_, ?_, ?_, ?_, ?_, ?_⟩
  · exact accept_write (g := .a0) (off := 0x10) rfl v
  · exact accept_write (g := .a1) (off := 0x18) rfl v
  · exact accept_write (g := .a2) (off := 0x20) rfl v
  · exact accept_write (g := .a3) (off := 0x28) rfl v
  · intro r u h
    have hr : hostReadAt r.target s = .next { s with readData := some u } := by
      simp only [List.mem_cons, Prod.mk.injEq, List.not_mem_nil, or_false] at h
      rcases h with ⟨rfl, rfl⟩ | ⟨rfl, rfl⟩ | ⟨rfl, rfl⟩ | ⟨rfl, rfl⟩ | ⟨rfl, rfl⟩ | ⟨rfl, rfl⟩ | ⟨rfl, rfl⟩ | ⟨rfl, rfl⟩
      all_goals rfl
    exact (accept_read (windowAt_place _ r)).trans hr
  · intro i hi
    have hw := windowAt_tmem hi
    simp only [HostStmt.event, Nat.add_assoc]
    refine ⟨accept_write hw v, fun hv => ?_⟩
    rw [accept_read hw]
    simp only [hostReadAt, hv]
    rfl
  · intro i
    calc accept (HostStmt.event s.params (.cmd i)) s = runCommand (encode i) s := accept_command s _
      _ = exec i s := by rw [runCommand, decode_encode]

end Sys2Proof.Machine
end

section
/-!
PROOFS, part 8: a write read back (O19, O20). What a command that passes its checks does is an equation for each of the three
commands; what the stream then offers at its cursor is `Slot.Offers`, which a write and a seek back establish and a read uses up
from the low bit.
-/

namespace Sys2Proof.Machine

/-! ## The commands when they pass their checks -/

/-- A write that R807 does not refuse passes `Reserve`'s check. -/
theorem State.reserve_le_of_not_overCapacity {s : State} {sd : SlotNo} {t : Slot} {T : Nat} (ht : s.slot? sd = some t)
    (hb : t.InBounds) (hcap : ¬ s.overCapacity sd T) : t.reserve T ≤ s.params.maxWords := by
  by_contra hlt
  obtain ⟨hnw, -, -⟩ := hb
  exact hcap ⟨t, t.reserve T, ht, t.reserve_isGrown T hnw, by omega⟩

theorem scalarWrite_of_fits {s : State} {sd : SlotNo} {t : Slot} {W : Nat} (ht : s.slot? sd = some t) (ho : t.isOpen = true)
    (hcap : t.reserve W ≤ s.params.maxWords) :
    scalarWrite W sd s = .next (s.setSlot sd (t.writeValue s.a0 W 0 W)).ok := by
  rw [scalarWrite, State.onOpenSlot_of_open ht ho, commitWrite, if_neg (by omega)]

/-- A position below `2 ^ 63` comes back from a register as it went in (R16). -/
theorem sint64_ofNat {p : Nat} (h : p < 2 ^ 63) : sint64 (BitVec.ofNat 64 p) = p := by
  have hn : (BitVec.ofNat 64 p).toNat = p := by rw [BitVec.toNat_ofNat]; omega
  rw [sint64, BitVec.toInt_eq_toNat_of_lt (by omega), hn]

theorem execSetpos_of_le {s : State} {sd : SlotNo} {t : Slot} {p : Nat} (ht : s.slot? sd = some t) (ho : t.isOpen = true)
    (hp : sint64 s.a0 = p) (hle : p ≤ t.len) :
    execSetpos sd s = .next (s.setSlot sd { t with pos := p }).ok := by
  rw [execSetpos, State.onOpenSlot_of_open ht ho]
  dsimp only
  rw [hp, if_neg (by omega), Int.toNat_natCast]

theorem scalarRead_of_open {s : State} {sd : SlotNo} {t : Slot} (W : Nat) (ht : s.slot? sd = some t) (ho : t.isOpen = true) :
    scalarRead W sd s = .next (s.afterRead sd (t.readValue W 0 W)) := by
  rw [scalarRead, State.onOpenSlot_of_open ht ho]

theorem State.afterRead_slot? {s : State} {sd : SlotNo} {t : Slot} (ht : s.slot? sd = some t) (r : ReadResult 64) :
    (s.afterRead sd r).slot? sd = some r.slot :=
  State.setSlot_slot?_same ht r.slot

/-! ## What a stream offers at its cursor -/

/-- The `c` bits from the cursor of an open stream are committed, and are the bits of `v` from bit `b`. -/
structure Slot.Offers (t : Slot) (v : Value) (b c : Nat) : Prop where
  isOpen : t.isOpen = true
  room : t.pos + c ≤ t.len
  field : ∀ k < c, t.bit (t.pos + k) = v.getLsbD (b + k)

/-- Slot `sd` offers `c` bits of `v` from bit `b`. -/
def State.Offers (s : State) (sd : SlotNo) (v : Value) (b c : Nat) : Prop :=
  ∃ t, s.slot? sd = some t ∧ t.Offers v b c

/-- The cursor set back to where a write began, the stream offers what was written. -/
theorem WritesField.offers {t t' : Slot} {v : Value} {b c : Nat} (h : WritesField t t' v b c) (ho : t.isOpen = true) :
    Slot.Offers { t' with pos := t.pos } v b c where
  isOpen := h.isOpen.trans ho
  room := by rw [h.len]; exact le_max_right _ _
  field := h.field

section
variable {t t' : Slot} {v u : Value} {b c W k : Nat}

/-- A read of no more than is offered is whole (R509). -/
theorem Slot.Offers.read_count (h : t.Offers v b c) (hr : ReadsField t t' u 0 W k) (hW : W ≤ c) : k = W := by
  have hk := hr.count
  have hroom := h.room
  omega

/-- A read answers the low bits of what is offered, zero-extended (R607). -/
theorem Slot.Offers.read_value (h : t.Offers v b c) (hr : ReadsField t t' u 0 W k) (hW : W ≤ c) :
    u = (v.extractLsb' b W).setWidth 64 := by
  have hroom := h.room
  apply BitVec.eq_of_getLsbD_eq
  intro i hi
  rw [hr.bits (by omega) i, BitVec.getLsbD_setWidth, BitVec.getLsbD_extractLsb']
  by_cases hiW : i < W
  · simp [hiW, hi, h.field i (by omega), show t.pos + i < t.len by omega]
  · simp [hiW]

/-- A read leaves the bits above it on offer. -/
theorem Slot.Offers.read_rest (h : t.Offers v b (W + c)) (hr : ReadsField t t' u 0 W k) : t'.Offers v (b + W) c := by
  obtain rfl := h.read_count hr (by omega)
  have hroom := h.room
  rw [hr.slot]
  refine ⟨h.isOpen, by dsimp only; omega, fun i hi => ?_⟩
  have hbit := h.field (k + i) (by omega)
  rwa [← Nat.add_assoc, ← Nat.add_assoc] at hbit

end

/-! ## The commands in sequence -/

/-- A write and a `SETPOS` to the old cursor both complete, and the slot then offers the value written. -/
theorem write_seek_offers {s : State} {sd : SlotNo} {t : Slot} {W : Nat} (hW : W ∈ [1, 8, 16, 32, 64])
    (ht : s.slot? sd = some t) (hb : t.InBounds) (ho : t.isOpen = true) (hpos : t.pos < 2 ^ 63)
    (hcap : ¬ s.overCapacity sd W) :
    ∃ s₁ s₂, scalarWrite W sd s = .next s₁ ∧ execSetpos sd { s₁ with a0 := BitVec.ofNat 64 t.pos } = .next s₂ ∧
      s₂.Offers sd s.a0 0 W := by
  have hw := Slot.writeValue_writes hb s.a0 hW 0 W (by omega)
  have ht₁ := State.setSlot_slot?_same ht (t.writeValue s.a0 W 0 W)
  have hlen : t.pos ≤ (t.writeValue s.a0 W 0 W).len := by rw [hw.len]; omega
  exact ⟨_, _, scalarWrite_of_fits ht ho (State.reserve_le_of_not_overCapacity ht hb hcap),
    execSetpos_of_le (s := { (s.setSlot sd (t.writeValue s.a0 W 0 W)).ok with a0 := BitVec.ofNat 64 t.pos }) ht₁
      (hw.isOpen.trans ho) (sint64_ofNat hpos) hlen,
    _, State.setSlot_slot?_same ht₁ _, hw.offers ho⟩

/-- A read of the low `W` bits on offer completes with them and leaves the others on offer. -/
theorem scalarRead_offers {s : State} {sd : SlotNo} {v : Value} {b W c : Nat} (hW : W ∈ [1, 8, 16, 32, 64])
    (h : s.Offers sd v b (W + c)) :
    ∃ s', scalarRead W sd s = .next s' ∧ s'.err = 0#32 ∧ s'.r1 = BitVec.ofNat 64 W ∧
      s'.r0 = (v.extractLsb' b W).setWidth 64 ∧ s'.Offers sd v (b + W) c := by
  obtain ⟨t, ht, ho⟩ := h
  have hr := t.readValue_reads hW 0 W (by omega)
  refine ⟨_, scalarRead_of_open W ht ho.isOpen, rfl, ?_, ?_, _, State.afterRead_slot? ht _, ho.read_rest hr⟩
  · rw [State.afterRead_r1, ho.read_count hr (by omega), countValue]
  · rw [State.afterRead_r0, ho.read_value hr (by omega)]

/-- R903 item 3 at one width. -/
theorem write_seek_read {s : State} {sd : SlotNo} {t : Slot} {W : Nat} (hW : W ∈ [1, 8, 16, 32, 64])
    (ht : s.slot? sd = some t) (hb : t.InBounds) (ho : t.isOpen = true) (hpos : t.pos < 2 ^ 63)
    (hcap : ¬ s.overCapacity sd W) :
    ∃ s₁ s₂ s₃, scalarWrite W sd s = .next s₁ ∧
      execSetpos sd { s₁ with a0 := BitVec.ofNat 64 t.pos } = .next s₂ ∧ scalarRead W sd s₂ = .next s₃ ∧
      s₃.err = 0#32 ∧ s₃.r1 = BitVec.ofNat 64 W ∧ s₃.r0 = (s.a0.setWidth W).setWidth 64 := by
  obtain ⟨s₁, s₂, h₁, h₂, hoff⟩ := write_seek_offers hW ht hb ho hpos hcap
  obtain ⟨s₃, h₃, herr, hr1, hr0, -⟩ := scalarRead_offers (c := 0) hW hoff
  rw [← BitVec.setWidth_eq_extractLsb' (le_of_mem_widths hW)] at hr0
  exact ⟨s₁, s₂, s₃, h₁, h₂, h₃, herr, hr1, hr0⟩

/-- Settles O19: the five pairs of commands are the scalar write and read of their width. -/
theorem writeSeekReadReturnsValue : Obligations.WriteSeekReadReturnsValue := by
  intro sd p hp s t ht hb ho hpos hcap
  simp only [List.mem_cons, List.not_mem_nil, or_false] at hp
  rcases hp with rfl | rfl | rfl | rfl | rfl
  all_goals exact write_seek_read (by simp) ht hb ho hpos hcap

/-- Settles O20: the word is on offer after the write and the seek, and each read takes the next byte. -/
theorem wordReadsBackLowByteFirst : Obligations.WordReadsBackLowByteFirst := by
  intro sd s t ht hb ho hpos hcap
  obtain ⟨s₁, s₂, h₁, h₂, hoff⟩ := write_seek_offers (W := 32) (by simp) ht hb ho hpos hcap
  obtain ⟨b₀, hb₀, -, -, hv₀, hoff₀⟩ := scalarRead_offers (W := 8) (c := 24) (by simp) hoff
  obtain ⟨b₁, hb₁, -, -, hv₁, hoff₁⟩ := scalarRead_offers (W := 8) (c := 16) (by simp) hoff₀
  obtain ⟨b₂, hb₂, -, -, hv₂, hoff₂⟩ := scalarRead_offers (W := 8) (c := 8) (by simp) hoff₁
  obtain ⟨b₃, hb₃, -, -, hv₃, -⟩ := scalarRead_offers (W := 8) (c := 0) (by simp) hoff₂
  exact ⟨s₁, s₂, b₀, b₁, b₂, b₃, h₁, h₂, hb₀, hb₁, hb₂, hb₃, hv₀, hv₁, hv₂, hv₃⟩

end Sys2Proof.Machine
end

section
/-!
PROOFS, part 9: a query repeated (O37). A query that answers finds the same slot in the state it leaves; one that was turned away is
turned away again by the same check, and raising an error a second time changes nothing.
-/

namespace Sys2Proof.Machine

/-- `ERR` holds the code and `STICKY` its bit already (R801). -/
theorem State.raise_raise (s : State) (e : Err) : (s.raise e).raise e = s.raise e := by
  have hsticky : stickyAfter (stickyAfter s.sticky e) e = stickyAfter s.sticky e := by
    simp only [stickyAfter, BitVec.or_assoc, BitVec.or_self]
  simp only [State.raise, hsticky]

theorem TurnedAway.slots {s s' : State} {n : SlotNo} (h : TurnedAway s n s') : s'.slots = s.slots := by
  obtain ⟨e, rfl⟩ := h.raises
  rfl

/-- A command turned away by its slot checks is turned away in the state that leaves, with nothing more to write. -/
theorem TurnedAway.again {s s' : State} {n : SlotNo} (h : TurnedAway s n s') (k : Slot → Result) :
    s'.onOpenSlot n k = .next s' := by
  rcases h with ⟨hn, rfl⟩ | ⟨t, ht, hc, rfl⟩
  · rw [State.onOpenSlot_of_none ((s.raise_slot? _ n).trans hn), State.raise_raise]
  · rw [State.onOpenSlot_of_closed ((s.raise_slot? _ n).trans ht) hc, State.raise_raise]

theorem query_of_open {s : State} {sd : SlotNo} {t : Slot} (f : Slot → Nat) (ht : s.slot? sd = some t) (ho : t.isOpen = true) :
    query f sd s = .next { s with r0 := countValue (f t), err := okStatus } :=
  State.onOpenSlot_of_open ht ho _

theorem execStatus_of_some {s : State} {sd : SlotNo} {t : Slot} (ht : s.slot? sd = some t) :
    execStatus sd s = .next { s with r0 := if t.isOpen then 3#64 else 0#64, err := okStatus } :=
  State.onSlot_of_some ht _

/-- A command that changes no slot, and that the state it leaves answers with itself (R210). -/
def Idempotent (f : State → Result) : Prop := ∀ s s', f s = .next s' → s'.slots = s.slots ∧ f s' = .next s'

theorem query_idempotent (f : Slot → Nat) (sd : SlotNo) : Idempotent (query f sd) := by
  intro s s' h
  rcases query_next h with hturned | ⟨t, ht, ho, rfl⟩
  · exact ⟨hturned.slots, hturned.again _⟩
  · exact ⟨rfl, query_of_open (s := { s with r0 := countValue (f t), err := okStatus }) f ht ho⟩

theorem execStatus_idempotent (sd : SlotNo) : Idempotent (execStatus sd) := by
  intro s s' h
  rcases execStatus_next h with ⟨hn, rfl⟩ | ⟨t, ht, rfl⟩
  · refine ⟨rfl, ?_⟩
    rw [execStatus, State.onSlot_of_none ((s.raise_slot? _ sd).trans hn), State.raise_raise]
  · exact ⟨rfl, execStatus_of_some (s := { s with r0 := if t.isOpen then 3#64 else 0#64, err := okStatus }) ht⟩

/-- Settles O37: `STATUS` reads a slot open or closed, the other seven are `query`. -/
theorem queriesAreIdempotent : Obligations.QueriesAreIdempotent := by
  intro sd i hi
  simp only [List.mem_cons, List.not_mem_nil, or_false] at hi
  rcases hi with rfl | rfl | rfl | rfl | rfl | rfl | rfl | rfl
  · exact execStatus_idempotent sd
  all_goals exact query_idempotent _ sd

end Sys2Proof.Machine
end

section
/-!
PROOFS, part 10: TMEM through the host port (O45), and the accesses that reach nothing (O46). The map of R115 is read backwards here:
an access that reaches something is at one of its rows.
-/

namespace Sys2Proof.Machine

/-- Settles O45: the offset is entry `i`'s, and `Memory.write` and `Memory.read` agree on it. -/
theorem hostReachesTmem : Obligations.HostReachesTmem := by
  intro s rest i hi
  have hw := windowAt_tmem hi
  rw [Nat.add_assoc]
  refine ⟨fun v hp => ?_, fun hp => ⟨fun v hv => ?_, fun hn => ?_⟩⟩
  · exact ⟨s.tmem.write i v, step_write hp hw, Memory.read_write_same .., fun j hj => Memory.read_write_other _ v hj⟩
  · rw [step_read hp hw]
    simp only [hostReadAt, hv]
    rfl
  · rw [step_read hp hw]
    simp only [hostReadAt, hn]

/-- The rows of R115 below 0x40: offset and width. -/
def registerRows : List (Nat × BusWidth) :=
  [(0x00, .w32), (0x04, .w32), (0x08, .w32), (0x0C, .w32), (0x10, .w64), (0x18, .w64), (0x20, .w64), (0x28, .w64), (0x30, .w64),
    (0x38, .w64)]

/-- The offsets and widths that the register window admits (R115, R206): a register's row, any place inside the reserved range, or
a TMEM entry's row. -/
def InWindow (tmemEntries off : Nat) (w : BusWidth) : Prop :=
  (off, w) ∈ registerRows ∨ (0x40 ≤ off ∧ off + w.bytes ≤ 0x1000) ∨ ∃ i, i < tmemEntries ∧ off = 0x1000 + 8 * i ∧ w = .w64

theorem registerAt_some {off : Nat} {w : BusWidth} {g : Target} (h : registerAt off w = some g) : (off, w) ∈ registerRows := by
  unfold registerAt at h
  split at h
  case h_11 => cases h
  all_goals simp [registerRows]

theorem windowAt_some {n off : Nat} {w : BusWidth} {g : Target} (h : windowAt n off w = some g) : InWindow n off w := by
  unfold windowAt at h
  split at h
  · exact .inl (registerAt_some h)
  · split at h
    · split at h
      · exact .inr (.inl ⟨by omega, by assumption⟩)
      · cases h
    · split at h
      · rename_i hentry
        obtain ⟨hw, halign, hlt⟩ := hentry
        exact .inr (.inr ⟨_, hlt, by omega, hw⟩)
      · cases h

theorem hostTarget_some {p : Params} {addr : Nat} {w : BusWidth} {g : Target} (h : hostTarget p addr w = some g) :
    ∃ off, addr = p.bseBase + off ∧ InWindow p.tmemEntries off w := by
  unfold hostTarget at h
  split at h
  · cases h
  · exact ⟨_, by omega, windowAt_some h⟩

/-- Settles O46: such an access reaches no target. -/
theorem otherHostAccessRefused : Obligations.OtherHostAccessRefused := by
  intro s rest addr w v hout
  have hnone : hostTarget s.params addr w = none :=
    Option.eq_none_iff_forall_ne_some.mpr fun g hg => hout (hostTarget_some hg)
  refine ⟨fun hp => ?_, fun hp => ?_⟩
  all_goals
    rw [step_of_pending hp]
    simp only [accept, hnone]

end Sys2Proof.Machine
end

section
/-!
PROOFS, part 11: the encoding (O1, O2, O3, O49) and the words that name no command (O5). A word is determined by its six fields, so
a form's checks, and equally the bits that a row of the opcode table fixes, say that the word is the form's encoding of its own
operand fields. The word is then the encoding of one command, and `decode_encode` gives the rest.
-/

namespace Sys2Proof

/-! ## A word as the encoding of its own fields (R301, R302) -/

section
variable {c : Word} {opc : BitVec 8}

theorem eq_encodeSW {wid : BitVec 3} (hopc : opcOf c = opc) (hsa : saOf c = 0#4) (hsb : sbOf c = 0#4) (hwid : widOf c = wid)
    (hrsv : rsvOf c = 0#9) : c = encodeSW opc wid (sdOf c) := by
  apply word_eq_of_fields <;> simp [hopc, hsa, hsb, hwid, hrsv]

theorem eq_encodeDAB (hopc : opcOf c = opc) (hwid : widOf c = 0#3) (hrsv : rsvOf c = 0#9) :
    c = encodeDAB opc (sdOf c) (saOf c) (sbOf c) := by
  apply word_eq_of_fields <;> simp [hopc, hwid, hrsv]

/-- Form `S` is form `SW` at the width code 0. -/
theorem encodeS_eq_encodeSW (opc : BitVec 8) (sd : SlotNo) : encodeS opc sd = encodeSW opc 0#3 sd := by
  apply word_eq_of_fields <;> simp

/-- Form `DA` is form `DAB` at the second source 0. -/
theorem encodeDA_eq_encodeDAB (opc : BitVec 8) (sd sa : SlotNo) : encodeDA opc sd sa = encodeDAB opc sd sa 0#4 := by
  apply word_eq_of_fields <;> simp

/-! ## What each form of the decoder accepts (R302, R303) -/

variable {i : Instr}

theorem encode_of_formS {f : SlotNo → Instr} (h : formS c f = .ok i) (hf : ∀ sd, encode (f sd) = encodeS opc sd)
    (hopc : (opcOf c).toNat = opc.toNat) (hrsv : rsvOf c = 0#9) : c = encode i := by
  unfold formS at h
  split at h
  case isTrue hfields =>
    obtain ⟨hsa, hsb, hwid⟩ := hfields
    cases h
    rw [hf, encodeS_eq_encodeSW]
    exact eq_encodeSW (BitVec.eq_of_toNat_eq hopc) hsa hsb hwid hrsv
  case isFalse => cases h

theorem encode_of_formSW {i1 i8 i16 i32 i64 : SlotNo → Instr} (h : formSW c i1 i8 i16 i32 i64 = .ok i)
    (hf : ∀ sd, encode (i1 sd) = encodeSW opc 0 sd ∧ encode (i8 sd) = encodeSW opc 1 sd ∧ encode (i16 sd) = encodeSW opc 2 sd ∧
      encode (i32 sd) = encodeSW opc 3 sd ∧ encode (i64 sd) = encodeSW opc 4 sd)
    (hopc : (opcOf c).toNat = opc.toNat) (hrsv : rsvOf c = 0#9) : c = encode i := by
  obtain ⟨h1, h8, h16, h32, h64⟩ := hf (sdOf c)
  unfold formSW at h
  split at h
  case isTrue hfields =>
    obtain ⟨hsa, hsb⟩ := hfields
    have hc : ∀ wid : BitVec 3, (widOf c).toNat = wid.toNat → c = encodeSW opc wid (sdOf c) := fun wid hwid =>
      eq_encodeSW (BitVec.eq_of_toNat_eq hopc) hsa hsb (BitVec.eq_of_toNat_eq hwid) hrsv
    split at h <;> cases h
    case h_1 hwid => exact (hc 0 hwid).trans h1.symm
    case h_2 hwid => exact (hc 1 hwid).trans h8.symm
    case h_3 hwid => exact (hc 2 hwid).trans h16.symm
    case h_4 hwid => exact (hc 3 hwid).trans h32.symm
    case h_5 hwid => exact (hc 4 hwid).trans h64.symm
  case isFalse => cases h

theorem encode_of_formDAB {f : SlotNo → SlotNo → SlotNo → Instr} (h : formDAB c f = .ok i)
    (hf : ∀ sd sa sb, encode (f sd sa sb) = encodeDAB opc sd sa sb) (hopc : (opcOf c).toNat = opc.toNat)
    (hrsv : rsvOf c = 0#9) : c = encode i := by
  unfold formDAB at h
  split at h
  case isTrue hwid =>
    cases h
    rw [hf]
    exact eq_encodeDAB (BitVec.eq_of_toNat_eq hopc) hwid hrsv
  case isFalse => cases h

theorem encode_of_formDA {f : SlotNo → SlotNo → Instr} (h : formDA c f = .ok i)
    (hf : ∀ sd sa, encode (f sd sa) = encodeDA opc sd sa) (hopc : (opcOf c).toNat = opc.toNat)
    (hrsv : rsvOf c = 0#9) : c = encode i := by
  unfold formDA at h
  split at h
  case isTrue hfields =>
    obtain ⟨hsb, hwid⟩ := hfields
    cases h
    rw [hf, encodeDA_eq_encodeDAB, ← show sbOf c = 0#4 from hsb]
    exact eq_encodeDAB (BitVec.eq_of_toNat_eq hopc) hwid hrsv
  case isFalse => cases h

/-- A word that decodes to a command is its encoding, by the operation code (R307). -/
theorem encode_of_decode (h : decode c = .ok i) : c = encode i := by
  unfold decode at h
  split at h
  case isFalse => cases h
  case isTrue hrsv =>
    split at h
    case h_1 ho | h_2 ho | h_3 ho | h_4 ho | h_5 ho | h_6 ho | h_7 ho | h_8 ho | h_9 ho | h_10 ho | h_11 ho | h_12 ho | h_19 ho =>
      exact encode_of_formS h (fun _ => rfl) ho hrsv
    case h_13 ho | h_14 ho | h_15 ho | h_16 ho | h_17 ho | h_18 ho =>
      exact encode_of_formSW h (fun _ => ⟨rfl, rfl, rfl, rfl, rfl⟩) ho hrsv
    case h_20 ho | h_21 ho | h_22 ho => exact encode_of_formDAB h (fun _ _ _ => rfl) ho hrsv
    case h_23 ho | h_24 ho | h_25 ho => exact encode_of_formDA h (fun _ _ => rfl) ho hrsv
    case h_26 => cases h

end

theorem decode_eq_ok_iff (c : Word) (i : Instr) : decode c = .ok i ↔ c = encode i :=
  ⟨encode_of_decode, fun h => h ▸ decode_encode i⟩

theorem encode_injective {i j : Instr} (h : encode i = encode j) : i = j :=
  Except.ok.inj ((decode_encode i).symm.trans (h ▸ decode_encode j))

/-- Settles O1: the word's fields are the encoding's (`encode_of_decode`), and back (`decode_encode`). -/
theorem decodeReadsExactlyEncodings : Obligations.DecodeReadsExactlyEncodings := decode_eq_ok_iff

/-- Settles O3: the ten commands by their encodings, the two refusals by the decoder. -/
theorem specWordsDecode : Obligations.SpecWordsDecode := by
  simp only [Obligations.SpecWordsDecode, decode_eq_ok_iff]
  decide

/-! ## Rows of the opcode table (R300) -/

/-- A field whose bits the mask keeps is the same after the mask. -/
theorem extractLsb'_of_masked {c d m : Word} {start len : Nat} (h : c &&& m = d)
    (hm : m.extractLsb' start len = BitVec.allOnes len) : c.extractLsb' start len = d.extractLsb' start len := by
  rw [← h, BitVec.extractLsb'_and, hm, BitVec.and_allOnes]

section
variable {c : Word} {opc : BitVec 8}

theorem eq_encodeSW_of_masked {wid : BitVec 3} (h : c &&& 0xFFFFF0FF#32 = encodeSW opc wid 0#4) :
    c = encodeSW opc wid (sdOf c) :=
  eq_encodeSW ((extractLsb'_of_masked h rfl).trans (opcOf_encodeSW ..)) ((extractLsb'_of_masked h rfl).trans (saOf_encodeSW ..))
    ((extractLsb'_of_masked h rfl).trans (sbOf_encodeSW ..)) ((extractLsb'_of_masked h rfl).trans (widOf_encodeSW ..))
    ((extractLsb'_of_masked h rfl).trans (rsvOf_encodeSW ..))

theorem eq_encodeDAB_of_masked (h : c &&& 0xFFF000FF#32 = encodeDAB opc 0#4 0#4 0#4) :
    c = encodeDAB opc (sdOf c) (saOf c) (sbOf c) :=
  eq_encodeDAB ((extractLsb'_of_masked h rfl).trans (opcOf_encodeDAB ..)) ((extractLsb'_of_masked h rfl).trans (widOf_encodeDAB ..))
    ((extractLsb'_of_masked h rfl).trans (rsvOf_encodeDAB ..))

theorem eq_encodeDA_of_masked (h : c &&& 0xFFFF00FF#32 = encodeDA opc 0#4 0#4) :
    c = encodeDA opc (sdOf c) (saOf c) := by
  have hsb : sbOf c = 0#4 := (extractLsb'_of_masked h rfl).trans (sbOf_encodeDA ..)
  rw [encodeDA_eq_encodeDAB, ← hsb]
  exact eq_encodeDAB ((extractLsb'_of_masked h rfl).trans (opcOf_encodeDA ..))
    ((extractLsb'_of_masked h rfl).trans (widOf_encodeDA ..)) ((extractLsb'_of_masked h rfl).trans (rsvOf_encodeDA ..))

end

/-- The encoding of a command lies in its row: the row's mask clears the operand fields of the form (R302). -/
theorem encode_and_mask (i : Instr) : encode i &&& i.row.mask = i.row.matchBits := by
  cases i
  case and | or | xor => exact Laws.encodeDAB_masked ..
  case not | shl | shr => exact Laws.encodeDA_masked ..
  case init | initc | close | status | getpos | setpos | getlen | getlen8 | getlen16 | getlen32 | getlen64 | getcap | rdbyte =>
    exact Laws.encodeS_masked ..
  all_goals exact Laws.encodeSW_masked ..

section
variable {c : Word} {opc : BitVec 8}

/-! A word in the row of a command is a command of that row: the same constructor at the word's own operand fields. -/

theorem exists_in_rowSW {wid : BitVec 3} {f : SlotNo → Instr} {sd : SlotNo} (hf : ∀ x, encode (f x) = encodeSW opc wid x)
    (hrow : ∀ x, (f x).row = (f sd).row) (h : c &&& 0xFFFFF0FF#32 = encodeSW opc wid 0#4) :
    ∃ i, c = encode i ∧ i.row = (f sd).row :=
  ⟨f (sdOf c), (eq_encodeSW_of_masked h).trans (hf _).symm, hrow _⟩

theorem exists_in_rowDAB {f : SlotNo → SlotNo → SlotNo → Instr} {sd sa sb : SlotNo}
    (hf : ∀ x y z, encode (f x y z) = encodeDAB opc x y z) (hrow : ∀ x y z, (f x y z).row = (f sd sa sb).row)
    (h : c &&& 0xFFF000FF#32 = encodeDAB opc 0#4 0#4 0#4) : ∃ i, c = encode i ∧ i.row = (f sd sa sb).row :=
  ⟨f (sdOf c) (saOf c) (sbOf c), (eq_encodeDAB_of_masked h).trans (hf _ _ _).symm, hrow _ _ _⟩

theorem exists_in_rowDA {f : SlotNo → SlotNo → Instr} {sd sa : SlotNo}
    (hf : ∀ x y, encode (f x y) = encodeDA opc x y) (hrow : ∀ x y, (f x y).row = (f sd sa).row)
    (h : c &&& 0xFFFF00FF#32 = encodeDA opc 0#4 0#4) : ∃ i, c = encode i ∧ i.row = (f sd sa).row :=
  ⟨f (sdOf c) (saOf c), (eq_encodeDA_of_masked h).trans (hf _ _).symm, hrow _ _⟩

end

/-- The words that match a command's row are the encodings of the commands of that row. -/
theorem matches_row_iff (c : Word) (j : Instr) : c &&& j.row.mask = j.row.matchBits ↔ ∃ i, c = encode i ∧ i.row = j.row := by
  constructor
  · intro h
    cases j
    case and | or | xor => exact exists_in_rowDAB (fun _ _ _ => rfl) (fun _ _ _ => rfl) h
    case not | shl | shr => exact exists_in_rowDA (fun _ _ => rfl) (fun _ _ => rfl) h
    case init | initc | close | status | getpos | setpos | getlen | getlen8 | getlen16 | getlen32 | getlen64 | getcap | rdbyte =>
      exact exists_in_rowSW (fun x => encodeS_eq_encodeSW _ x) (fun _ => rfl) h
    all_goals exact exists_in_rowSW (fun _ => rfl) (fun _ => rfl) h
  · rintro ⟨i, rfl, hrow⟩
    rw [← hrow]
    exact encode_and_mask i

/-- Settles O2: a word is the encoding of at most one command, so the rows it matches are that command's. -/
theorem rowSelectsCommand : Obligations.RowSelectsCommand := by
  intro c
  refine ⟨fun i hi => (matches_row_iff c i).mpr ⟨i, encode_of_decode hi, rfl⟩, fun j hj => ?_, fun i j hi hj => ?_⟩
  · obtain ⟨i, rfl, hrow⟩ := (matches_row_iff c j).mp hj
    exact ⟨i, decode_encode i, hrow⟩
  · obtain ⟨i', rfl, hi'⟩ := (matches_row_iff c i).mp hi
    obtain ⟨j', hj', hrow⟩ := (matches_row_iff _ j).mp hj
    obtain rfl := encode_injective hj'
    exact hi'.symm.trans hrow

end Sys2Proof

namespace Sys2Proof.Machine

/-! ## The typed aliases (R303, R320) -/

/-- A word of form `SW` as the fields put in place (R301). -/
theorem encodeSW_eq_or (opc : BitVec 8) (wid : BitVec 3) (sd : SlotNo) :
    encodeSW opc wid sd = opc.setWidth 32 ||| (wid.setWidth 32 <<< 20) ||| (sd.setWidth 32 <<< 8) := by
  apply BitVec.eq_of_getLsbD_eq
  intro i hi
  rw [encodeSW_getLsbD]
  interval_cases i <;> simp

/-- `OPC` of a typed form (R307). -/
def TypedForm.opc : TypedForm → BitVec 8
  | .wr => 0x20
  | .wrr => 0x21
  | .rd => 0x22
  | .rdr => 0x23
  | .wra => 0x24
  | .rda => 0x25

/-- The width code (R303). -/
def Width.code : Width → BitVec 3
  | .w1 => 0
  | .w8 => 1
  | .w16 => 2
  | .w32 => 3
  | .w64 => 4

theorem encode_typedCommand (f : TypedForm) (w : Width) (sd : SlotNo) : encode (typedCommand f w sd) = encodeSW f.opc w.code sd := by
  cases f <;> cases w <;> rfl

/-- Settles O49: the two tables are `TypedForm.opc` and `Width.code` of the type's width. -/
theorem typedAliasesEncode : Obligations.TypedAliasesEncode := by
  intro f opc ty wid sd hf hty
  have hopc : opc = f.opc.setWidth 32 := by
    cases f <;> simpa [TypedForm.opc] using hf
  have hwid : wid = ty.width.code.setWidth 32 := by
    cases ty <;> simpa [ElemType.width, Width.code] using hty
  rw [typedAlias, encode_typedCommand, encodeSW_eq_or, hopc, hwid]

/-! ## Words that raise `ILLEGAL_COMMAND` (R802) -/

theorem State.raise_illegalCommand (s : State) : s.raise .illegalCommand = s.afterError 1 := rfl

/-- The check that a slot exists fails, or what follows it answers `ILLEGAL_COMMAND` for every slot found. -/
theorem State.onSlot_illegal {s : State} {n : SlotNo} {k : Slot → Result}
    (h : s.slot? n = none ∨ ∀ t, k t = .next (s.raise .illegalCommand)) : s.onSlot n k = .next (s.raise .illegalCommand) := by
  cases hs : s.slot? n with
  | none => exact State.onSlot_of_none hs k
  | some t =>
    rw [State.onSlot_of_some hs]
    exact h.resolve_left (by simp [hs]) t

section
variable {s : State} {sd sa sb : SlotNo}

theorem combine_illegal (f : Bool → Bool → Bool) (h : s.slot? sd = none ∨ s.slot? sa = none ∨ s.slot? sb = none) :
    combine f sd sa sb s = .next (s.raise .illegalCommand) :=
  State.onSlot_illegal (h.imp_right fun h _ => State.onSlot_illegal (h.imp_right fun h _ => State.onSlot_of_none h _))

theorem execNot_illegal (h : s.slot? sd = none ∨ s.slot? sa = none) : execNot sd sa s = .next (s.raise .illegalCommand) :=
  State.onSlot_illegal (h.imp_right fun h _ => State.onOpenSlot_of_none h _)

theorem shift_illegal (f : Slot → Nat → Nat → Bool) (h : s.slot? sd = none ∨ s.slot? sa = none) :
    shift f sd sa s = .next (s.raise .illegalCommand) :=
  State.onSlot_illegal (h.imp_right fun h _ => State.onOpenSlot_of_none h _)

theorem execShl_illegal (h : s.slot? sd = none ∨ s.slot? sa = none) : execShl sd sa s = .next (s.raise .illegalCommand) :=
  shift_illegal _ h

theorem execShr_illegal (h : s.slot? sd = none ∨ s.slot? sa = none) : execShr sd sa s = .next (s.raise .illegalCommand) :=
  shift_illegal _ h

/-- A command that names a slot that does not exist raises `ILLEGAL_COMMAND`, before every other check (R304, R809). -/
theorem exec_illegal {i : Instr} (h : ∃ n ∈ i.slotFields, s.slot? n = none) : exec i s = .next (s.raise .illegalCommand) := by
  cases i <;> simp only [Instr.slotFields, List.exists_mem_cons_iff, List.not_mem_nil, false_and, exists_false, or_false] at h
  case and | or | xor => exact combine_illegal _ h
  case not => exact execNot_illegal h
  case shl => exact execShl_illegal h
  case shr => exact execShr_illegal h
  case init | initc | status => exact State.onSlot_of_none h _
  all_goals exact State.onOpenSlot_of_none h _

end

/-- A word that matches no row decodes to no command (R300, R308). -/
theorem runCommand_of_no_row {c : Word} (h : ∀ i : Instr, c &&& i.row.mask ≠ i.row.matchBits) (s : State) :
    runCommand c s = .next (s.raise .illegalCommand) := by
  cases hd : decode c with
  | ok i =>
    have hrow := (matches_row_iff c i).mpr ⟨i, encode_of_decode hd, rfl⟩
    exact absurd hrow (h i)
  | error e =>
    rw [runCommand, hd]
    rfl

/-- Settles O5: the word goes to `CMD`; it decodes to no command, or to one that names a missing slot. -/
theorem illegalWordRaises : Obligations.IllegalWordRaises := by
  intro s rest data hp h
  rw [step_write (off := 0) (g := .cmd) hp rfl, hostWriteAt, ← State.raise_illegalCommand]
  rcases h with hrow | ⟨i, hd, n, hn, hlen⟩
  · exact runCommand_of_no_row hrow _
  · rw [runCommand, hd]
    exact exec_illegal ⟨n, hn, List.getElem?_eq_none hlen⟩

end Sys2Proof.Machine
end

section
/-!
PROOFS, part 12: the lifecycle commands (O6 to O9). On a slot that exists each of the four is one equation; the slot's `open` bit
decides only `CLOSE` and what `STATUS` answers, and `A0` only `INITC`. Their words are one word of form `S`.
-/

namespace Sys2Proof.Machine

/-! ## Words and errors as the rules write them -/

/-- A word of form `S` as the fields put in place (R301). -/
theorem encodeS_eq_or (opc : BitVec 8) (sd : SlotNo) : encodeS opc sd = opc.setWidth 32 ||| (sd.setWidth 32 <<< 8) := by
  rw [encodeS_eq_encodeSW, encodeSW_eq_or, BitVec.setWidth_zero, BitVec.zero_shiftLeft, BitVec.or_zero]

/-- R801 by the error's name is R801 by its code. -/
theorem State.raise_eq_afterError (s : State) (e : Err) : s.raise e = s.afterError e.code := rfl

/-! ## The commands on a slot that exists -/

section
variable {s : State} {sd : SlotNo} {t : Slot}

/-- `INIT` does not look at what the slot held (R400). -/
theorem execInit_of_some (ht : s.slot? sd = some t) : execInit sd s = .next (s.setSlot sd Slot.empty).ok :=
  State.onSlot_of_some ht _

/-- The checks of `INITC` in the order of R809: the sign of the bit count first, then the capacity (R401). -/
theorem execInitc_of_some (ht : s.slot? sd = some t) :
    execInitc sd s =
      if sint64 s.a0 < 0 then .next (s.raise .invalidArg)
      else if s.params.maxWords < wordsForBits (sint64 s.a0).toNat then .next (s.raise .capacityExceeded)
      else .next (s.setSlot sd { isOpen := true, words := List.replicate (wordsForBits (sint64 s.a0).toNat) 0#32,
                                 len := 0, pos := 0 }).ok :=
  State.onSlot_of_some ht _

theorem execClose_of_open (ht : s.slot? sd = some t) (ho : t.isOpen = true) :
    execClose sd s = .next (s.setSlot sd { t with isOpen := false }).ok :=
  State.onOpenSlot_of_open ht ho _

theorem execClose_of_closed (ht : s.slot? sd = some t) (hc : t.isOpen = false) : execClose sd s = .next (s.raise .disposed) :=
  State.onOpenSlot_of_closed ht hc _

end

/-! ## The rules -/

/-- Settles O6: the slot becomes `Slot.empty`, which is the stream R400 describes. -/
theorem initRule : Obligations.InitRule :=
  fun sd => ⟨encodeS_eq_or 0x01 sd, fun _ _ ht => execInit_of_some ht⟩

/-- Settles O7: the three clauses are the three branches of `execInitc_of_some`. -/
theorem initcRule : Obligations.InitcRule := by
  refine fun sd => ⟨encodeS_eq_or 0x02 sd, fun s t ht => ⟨fun hneg => ?_, fun hpos hover => ?_, fun hpos hfits => ?_⟩⟩
  · exact (execInitc_of_some ht).trans (if_pos hneg)
  · exact (execInitc_of_some ht).trans ((if_neg (not_lt.mpr hpos)).trans (if_pos hover))
  · exact (execInitc_of_some ht).trans ((if_neg (not_lt.mpr hpos)).trans (if_neg (not_lt.mpr hfits)))

/-- Settles O8: by the slot's `open` bit. -/
theorem closeRule : Obligations.CloseRule :=
  fun sd => ⟨encodeS_eq_or 0x03 sd, fun _ _ ht => ⟨execClose_of_closed ht, execClose_of_open ht⟩⟩

/-- Settles O9: the slot's `open` bit chooses the value (`execStatus_of_some`). -/
theorem statusRule : Obligations.StatusRule := by
  refine fun sd => ⟨encodeS_eq_or 0x04 sd, fun s t ht => ⟨fun ho => ?_, fun hc => ?_⟩⟩
  · exact (execStatus_of_some ht).trans (by rw [ho]; rfl)
  · exact (execStatus_of_some ht).trans (by rw [hc]; rfl)

end Sys2Proof.Machine
end

section
/-!
PROOFS, part 13: the cursor commands (O10, O11). The seven queries are `query` at seven counts, so one fact about `query` on a slot
that exists serves them all. `SETPOS` has one equation for each outcome: closed, out of range, moved.
-/

namespace Sys2Proof.Machine

section
variable {s : State} {sd : SlotNo} {t : Slot}

theorem query_of_closed (f : Slot → Nat) (ht : s.slot? sd = some t) (hc : t.isOpen = false) :
    query f sd s = .next (s.raise .disposed) :=
  State.onOpenSlot_of_closed ht hc _

theorem execSetpos_of_closed (ht : s.slot? sd = some t) (hc : t.isOpen = false) : execSetpos sd s = .next (s.raise .disposed) :=
  State.onOpenSlot_of_closed ht hc _

/-- A position before the stream or past its length is refused (R451); `execSetpos_of_le` is every other position. -/
theorem execSetpos_of_outside (ht : s.slot? sd = some t) (ho : t.isOpen = true)
    (hp : sint64 s.a0 < 0 ∨ sint64 s.a0 > (t.len : Int)) : execSetpos sd s = .next (s.raise .outOfRange) :=
  (State.onOpenSlot_of_open ht ho _).trans (if_pos hp)

end

/-- What the rules R450 and R452 to R457 say of a command that answers the count `f`. -/
theorem query_rule (f : Slot → Nat) (sd : SlotNo) (s : State) (t : Slot) (ht : s.slot? sd = some t) :
    (t.isOpen = false → query f sd s = .next (s.afterError 2)) ∧
      (t.isOpen = true → query f sd s = .next { s with r0 := BitVec.ofNat 64 (f t), err := 0#32 }) :=
  ⟨query_of_closed f ht, query_of_open f ht⟩

/-- Settles O10: each command is `query` at its own count; the four rounded lengths are `ceilDiv` at the unit. -/
theorem queryRules : Obligations.QueryRules := by
  intro sd p hp
  simp only [List.mem_cons, List.not_mem_nil, or_false] at hp
  rcases hp with rfl | rfl | rfl | rfl | rfl | rfl | rfl
  · exact ⟨encodeS_eq_or 0x10 sd, query_rule (fun t => t.pos) sd⟩
  · exact ⟨encodeS_eq_or 0x12 sd, query_rule (fun t => t.len) sd⟩
  · exact ⟨encodeS_eq_or 0x13 sd, query_rule (fun t => ceilDiv t.len 8) sd⟩
  · exact ⟨encodeS_eq_or 0x14 sd, query_rule (fun t => ceilDiv t.len 16) sd⟩
  · exact ⟨encodeS_eq_or 0x15 sd, query_rule (fun t => ceilDiv t.len 32) sd⟩
  · exact ⟨encodeS_eq_or 0x16 sd, query_rule (fun t => ceilDiv t.len 64) sd⟩
  · exact ⟨encodeS_eq_or 0x17 sd, query_rule (fun t => 32 * t.nw) sd⟩

/-- Settles O11: by the slot's `open` bit, then by where the position lies. -/
theorem setposRule : Obligations.SetposRule := by
  refine fun sd => ⟨encodeS_eq_or 0x11 sd, fun s t ht =>
    ⟨execSetpos_of_closed ht, execSetpos_of_outside ht, fun ho hpos hle => ?_⟩⟩
  have hp : sint64 s.a0 = (sint64 s.a0).toNat := (Int.toNat_of_nonneg hpos).symm
  exact execSetpos_of_le ht ho hp (Int.toNat_le.mpr hle)

end Sys2Proof.Machine
end

section
/-!
PROOFS, part 14: the typed accessors (O12 to O18). Each of the six forms is one shared operation at five widths. An operation has one
equation for each outcome of its checks, in the order of R809; what the stream or TMEM then holds is the engine's law (`WritesField`,
`ReadsField`, `WritesElements`, `ReadsElements`). The rule of a form puts the two together once for every supported width.
-/

namespace Sys2Proof.Machine

/-! ## Reading a range of TMEM: both answers characterized -/

/-- `es` is what a range reads as exactly when it is the range's values, in index order. -/
theorem Memory.readEntries_eq_ok_iff {m : Memory} {start cnt : Nat} {es : List Value} :
    m.readEntries start cnt = .ok es ↔ es.length = cnt ∧ ∀ k < cnt, m.read (start + k) = some (es.getD k 0#64) := by
  refine ⟨Memory.readEntries_ok, fun ⟨hlen, hread⟩ => ?_⟩
  have hwritten : ∀ k < cnt, m.read (start + k) ≠ none := fun k hk => by simp [hread k hk]
  obtain ⟨vs, hvs⟩ := Memory.readEntries_of_written hwritten
  obtain ⟨hlen', hread'⟩ := Memory.readEntries_ok hvs
  have hsame : vs = es := List.ext_getElem (hlen'.trans hlen.symm) fun k hk hk' => by
    have hget := (hread' k (hlen' ▸ hk)).symm.trans (hread k (hlen' ▸ hk))
    simpa [hk, hk'] using hget
  rw [hvs, hsame]

/-- A range stops at `j` exactly when `j` is its first unwritten entry (R900). -/
theorem Memory.readEntries_eq_error_iff {m : Memory} {start cnt j : Nat} :
    m.readEntries start cnt = .error j ↔
      start ≤ j ∧ j < start + cnt ∧ m.read j = none ∧ ∀ i, start ≤ i → i < j → m.read i ≠ none := by
  refine ⟨Memory.readEntries_error, fun ⟨hlo, hhi, hnone, hfirst⟩ => ?_⟩
  cases hr : m.readEntries start cnt with
  | ok vs =>
    have hj := (Memory.readEntries_ok hr).2 (j - start) (by omega)
    rw [Nat.add_sub_cancel' hlo, hnone] at hj
    cases hj
  | error i =>
    obtain ⟨hlo', -, hnone', hfirst'⟩ := Memory.readEntries_error hr
    rcases Nat.lt_trichotomy i j with hlt | rfl | hgt
    · exact absurd hnone' (hfirst i hlo' hlt)
    · rfl
    · exact absurd hnone (hfirst' j hlo hgt)

/-! ## The operations, one equation for each outcome of the checks -/

section
variable {s : State} {sd : SlotNo} {t t' : Slot} {W T : Nat}

theorem commitWrite_of_over (ht : s.slot? sd = some t) (hb : t.InBounds) (hcap : s.overCapacity sd T) :
    commitWrite sd t T t' s = .next (s.raise .capacityExceeded) := by
  obtain ⟨hnw, -, -⟩ := hb
  exact if_pos ((State.overCapacity_iff ht hnw T).1 hcap)

theorem commitWrite_of_fits (ht : s.slot? sd = some t) (hb : t.InBounds) (hcap : ¬ s.overCapacity sd T) :
    commitWrite sd t T t' s = .next (s.setSlot sd t').ok :=
  if_neg (not_lt.mpr (State.reserve_le_of_not_overCapacity ht hb hcap))

theorem scalarWrite_of_open (W : Nat) (ht : s.slot? sd = some t) (ho : t.isOpen = true) :
    scalarWrite W sd s = commitWrite sd t W (t.writeValue s.a0 W 0 W) s :=
  State.onOpenSlot_of_open ht ho _

theorem subrangeWrite_of_bad (ht : s.slot? sd = some t) (ho : t.isOpen = true) (hr : s.badRange W) :
    subrangeWrite W sd s = .next (s.raise .invalidArg) :=
  (State.onOpenSlot_of_open ht ho _).trans (if_neg (by simp [State.badRange_iff.1 hr]))

theorem State.validRange_of_not_badRange (hr : ¬ s.badRange W) : validRange W (sint64 s.a1) (sint64 s.a2) = true := by
  simpa [State.badRange_iff] using hr

theorem subrangeWrite_of_legal (ht : s.slot? sd = some t) (ho : t.isOpen = true) (hr : ¬ s.badRange W) :
    subrangeWrite W sd s =
      commitWrite sd t (sint64 s.a2).toNat (t.writeValue s.a0 W (sint64 s.a1).toNat (sint64 s.a2).toNat) s :=
  (State.onOpenSlot_of_open ht ho _).trans (if_pos (State.validRange_of_not_badRange hr))

theorem subrangeRead_of_bad (ht : s.slot? sd = some t) (ho : t.isOpen = true) (hr : s.badRange W) :
    subrangeRead W sd s = .next (s.raise .invalidArg) :=
  (State.onOpenSlot_of_open ht ho _).trans (if_neg (by simp [State.badRange_iff.1 hr]))

theorem subrangeRead_of_legal (ht : s.slot? sd = some t) (ho : t.isOpen = true) (hr : ¬ s.badRange W) :
    subrangeRead W sd s = .next (s.afterRead sd (t.readValue W (sint64 s.a1).toNat (sint64 s.a2).toNat)) :=
  (State.onOpenSlot_of_open ht ho _).trans (if_pos (State.validRange_of_not_badRange hr))

/-- The sentinel replaces the value read when no bit was read (R640, D12). -/
theorem execRdbyte_of_open (ht : s.slot? sd = some t) (ho : t.isOpen = true) :
    execRdbyte sd s = .next { s.afterRead sd (t.readValue 8 0 8) with
      r0 := if (t.readValue 8 0 8).count = 0 then 0xFFFFFFFFFFFFFFFF#64 else (t.readValue 8 0 8).value } := by
  rw [execRdbyte, State.onOpenSlot_of_open ht ho]
  dsimp only
  split
  · rfl
  · rfl

/-! ### Arrays -/

theorem arrayWrite_of_check_some {e : Err} (ht : s.slot? sd = some t) (ho : t.isOpen = true)
    (he : s.arrayArgs.check s.params.tmemEntries = some e) : arrayWrite W sd s = .next (s.raise e) := by
  rw [arrayWrite, State.onOpenSlot_of_open ht ho]
  simp only [he, State.fail_eq]

theorem arrayRead_of_check_some {e : Err} (ht : s.slot? sd = some t) (ho : t.isOpen = true)
    (he : s.arrayArgs.check s.params.tmemEntries = some e) : arrayRead W sd s = .next (s.raise e) := by
  rw [arrayRead, State.onOpenSlot_of_open ht ho]
  simp only [he, State.fail_eq]

theorem arrayRead_of_check_none (ht : s.slot? sd = some t) (ho : t.isOpen = true)
    (he : s.arrayArgs.check s.params.tmemEntries = none) :
    arrayRead W sd s =
      .next { s.setSlot sd (Slot.readElements W s.arrayArgs.count t s.tmem s.arrayArgs.start).slot with
        tmem := (Slot.readElements W s.arrayArgs.count t s.tmem s.arrayArgs.start).tmem
        r1 := countValue (Slot.readElements W s.arrayArgs.count t s.tmem s.arrayArgs.start).total }.ok := by
  rw [arrayRead, State.onOpenSlot_of_open ht ho]
  simp only [he]

/-- A legal buffer that does not fit the stream is refused before any entry is read (R209, R809). -/
theorem arrayWrite_of_over (ht : s.slot? sd = some t) (ho : t.isOpen = true) (hb : t.InBounds)
    (he : s.arrayArgs.check s.params.tmemEntries = none) (hcap : s.overCapacity sd (s.arrayArgs.count * W)) :
    arrayWrite W sd s = .next (s.raise .capacityExceeded) := by
  obtain ⟨hnw, -, -⟩ := hb
  rw [arrayWrite, State.onOpenSlot_of_open ht ho]
  simp only [he, if_pos ((State.overCapacity_iff ht hnw _).1 hcap), State.fail_eq]

/-- Past every check, only what the TMEM entries hold decides. -/
theorem arrayWrite_of_fits (ht : s.slot? sd = some t) (ho : t.isOpen = true) (hb : t.InBounds)
    (he : s.arrayArgs.check s.params.tmemEntries = none) (hcap : ¬ s.overCapacity sd (s.arrayArgs.count * W)) :
    (∀ i, s.tmem.readEntries s.arrayArgs.start s.arrayArgs.count = .error i →
      arrayWrite W sd s = .fault (.tmemUnwritten i)) ∧
    ∀ es, s.tmem.readEntries s.arrayArgs.start s.arrayArgs.count = .ok es →
      arrayWrite W sd s = .next (s.setSlot sd (t.writeElements W es)).ok := by
  have hfits := not_lt.mpr (State.reserve_le_of_not_overCapacity ht hb hcap)
  rw [arrayWrite, State.onOpenSlot_of_open ht ho]
  simp only [he, if_neg hfits]
  exact ⟨fun i hi => by rw [hi], fun es hes => by rw [hes]⟩

end

/-! ## The rule of each form, at a supported width -/

section
variable {W : Nat} (hW : W ∈ [1, 8, 16, 32, 64]) (sd : SlotNo) (s : State) (t : Slot) (ht : s.slot? sd = some t)
include hW ht

/-- What R610 to R614 say at the width `W`. -/
theorem scalarWrite_rule (hb : t.InBounds) :
    (t.isOpen = false → scalarWrite W sd s = .next (s.afterError 2)) ∧
      (t.isOpen = true → s.overCapacity sd W → scalarWrite W sd s = .next (s.afterError 6)) ∧
      (t.isOpen = true → ¬ s.overCapacity sd W →
        ∃ t', scalarWrite W sd s = .next { s with slots := s.slots.set sd.toNat t', err := 0#32 } ∧
          WritesField t t' s.a0 0 W) := by
  refine ⟨fun hc => State.onOpenSlot_of_closed ht hc _, fun ho hcap => ?_, fun ho hcap => ?_⟩
  · exact (scalarWrite_of_open W ht ho).trans (commitWrite_of_over ht hb hcap)
  · exact ⟨t.writeValue s.a0 W 0 W, (scalarWrite_of_open W ht ho).trans (commitWrite_of_fits ht hb hcap),
      Slot.writeValue_writes hb s.a0 hW 0 W (by omega)⟩

/-- What R615 to R619 say at the width `W`. -/
theorem subrangeWrite_rule (hb : t.InBounds) :
    (t.isOpen = false → subrangeWrite W sd s = .next (s.afterError 2)) ∧
      (t.isOpen = true → s.badRange W → subrangeWrite W sd s = .next (s.afterError 3)) ∧
      (t.isOpen = true → ¬ s.badRange W → s.overCapacity sd s.a2.toInt.toNat →
        subrangeWrite W sd s = .next (s.afterError 6)) ∧
      (t.isOpen = true → ¬ s.badRange W → ¬ s.overCapacity sd s.a2.toInt.toNat →
        ∃ t', subrangeWrite W sd s = .next { s with slots := s.slots.set sd.toNat t', err := 0#32 } ∧
          WritesField t t' s.a0 s.a1.toInt.toNat s.a2.toInt.toNat) := by
  refine ⟨fun hc => State.onOpenSlot_of_closed ht hc _, fun ho hr => subrangeWrite_of_bad ht ho hr,
    fun ho hr hcap => ?_, fun ho hr hcap => ?_⟩
  · exact (subrangeWrite_of_legal ht ho hr).trans (commitWrite_of_over ht hb hcap)
  · exact ⟨t.writeValue s.a0 W s.a1.toInt.toNat s.a2.toInt.toNat,
      (subrangeWrite_of_legal ht ho hr).trans (commitWrite_of_fits ht hb hcap),
      Slot.writeValue_writes hb s.a0 hW _ _ (validRange_toNat (State.validRange_of_not_badRange hr))⟩

/-- What R620 to R624 say at the width `W`. -/
theorem scalarRead_rule :
    (t.isOpen = false → scalarRead W sd s = .next (s.afterError 2)) ∧
      (t.isOpen = true →
        ∃ t' v k, scalarRead W sd s = .next { s with
            slots := s.slots.set sd.toNat t'
            r0 := v
            r1 := BitVec.ofNat 64 k
            err := 0#32 } ∧
          ReadsField t t' v 0 W k) := by
  refine ⟨fun hc => State.onOpenSlot_of_closed ht hc _, fun ho => ?_⟩
  have hr := t.readValue_reads hW 0 W (by omega)
  exact ⟨_, _, _, scalarRead_of_open W ht ho, hr⟩

/-- What R625 to R629 say at the width `W`. -/
theorem subrangeRead_rule :
    (t.isOpen = false → subrangeRead W sd s = .next (s.afterError 2)) ∧
      (t.isOpen = true → s.badRange W → subrangeRead W sd s = .next (s.afterError 3)) ∧
      (t.isOpen = true → ¬ s.badRange W →
        ∃ t' v k, subrangeRead W sd s = .next { s with
            slots := s.slots.set sd.toNat t'
            r0 := v
            r1 := BitVec.ofNat 64 k
            err := 0#32 } ∧
          ReadsField t t' v s.a1.toInt.toNat s.a2.toInt.toNat k) := by
  refine ⟨fun hc => State.onOpenSlot_of_closed ht hc _, fun ho hr => subrangeRead_of_bad ht ho hr, fun ho hr => ?_⟩
  have hread := t.readValue_reads hW s.a1.toInt.toNat s.a2.toInt.toNat
    (validRange_toNat (State.validRange_of_not_badRange hr))
  exact ⟨_, _, _, subrangeRead_of_legal ht ho hr, hread⟩

/-- What R630 to R634 say at the width `W`. -/
theorem arrayWrite_rule (hb : t.InBounds) :
    let start := (s.a0.toInt + s.a2.toInt).toNat
    let cnt := s.a3.toInt.toNat
    (t.isOpen = false → arrayWrite W sd s = .next (s.afterError 2)) ∧
      (t.isOpen = true → s.badBuffer → arrayWrite W sd s = .next (s.afterError 3)) ∧
      (t.isOpen = true → ¬ s.badBuffer → s.bufferOutside → arrayWrite W sd s = .next (s.afterError 5)) ∧
      (t.isOpen = true → ¬ s.badBuffer → ¬ s.bufferOutside → s.overCapacity sd (cnt * W) →
        arrayWrite W sd s = .next (s.afterError 6)) ∧
      (t.isOpen = true → ¬ s.badBuffer → ¬ s.bufferOutside → ¬ s.overCapacity sd (cnt * W) →
        (∀ j, start ≤ j → j < start + cnt → Memory.read s.tmem j = none →
          (∀ m, start ≤ m → m < j → Memory.read s.tmem m ≠ none) → arrayWrite W sd s = .fault (.tmemUnwritten j)) ∧
        ∀ es : List Value, es.length = cnt → (∀ k < cnt, Memory.read s.tmem (start + k) = some (es.getD k 0#64)) →
          ∃ t', arrayWrite W sd s = .next { s with slots := s.slots.set sd.toNat t', err := 0#32 } ∧
            WritesElements t t' W es) := by
  refine ⟨fun hc => State.onOpenSlot_of_closed ht hc _,
    fun ho hbad => arrayWrite_of_check_some ht ho (ArrayArgs.check_of_badBuffer hbad),
    fun ho hbuf hout => arrayWrite_of_check_some ht ho (ArrayArgs.check_of_bufferOutside hbuf hout),
    fun ho hbuf hin hcap => arrayWrite_of_over ht ho hb (ArrayArgs.check_of_inside hbuf hin) hcap,
    fun ho hbuf hin hcap => ?_⟩
  obtain ⟨hfault, hwrite⟩ := arrayWrite_of_fits ht ho hb (ArrayArgs.check_of_inside hbuf hin) hcap
  refine ⟨fun j hlo hhi hnone hfirst => ?_, fun es hlen hread => ?_⟩
  · exact hfault j (Memory.readEntries_eq_error_iff.2 ⟨hlo, hhi, hnone, hfirst⟩)
  · exact ⟨t.writeElements W es, hwrite es (Memory.readEntries_eq_ok_iff.2 ⟨hlen, hread⟩),
      Slot.writeElements_writes hb hW es⟩

/-- What R635 to R639 say at the width `W`. -/
theorem arrayRead_rule (hb : t.InBounds) :
    (t.isOpen = false → arrayRead W sd s = .next (s.afterError 2)) ∧
      (t.isOpen = true → s.badBuffer → arrayRead W sd s = .next (s.afterError 3)) ∧
      (t.isOpen = true → ¬ s.badBuffer → s.bufferOutside → arrayRead W sd s = .next (s.afterError 5)) ∧
      (t.isOpen = true → ¬ s.badBuffer → ¬ s.bufferOutside →
        ∃ t' m' total, arrayRead W sd s = .next { s with
            slots := s.slots.set sd.toNat t'
            tmem := m'
            r1 := BitVec.ofNat 64 total
            err := 0#32 } ∧
          ReadsElements t t' s.tmem m' W s.a3.toInt.toNat (s.a0.toInt + s.a2.toInt).toNat total) := by
  refine ⟨fun hc => State.onOpenSlot_of_closed ht hc _,
    fun ho hbad => arrayRead_of_check_some ht ho (ArrayArgs.check_of_badBuffer hbad),
    fun ho hbuf hout => arrayRead_of_check_some ht ho (ArrayArgs.check_of_bufferOutside hbuf hout),
    fun ho hbuf hin => ?_⟩
  obtain ⟨-, hpos, -⟩ := hb
  exact ⟨_, _, _, arrayRead_of_check_none ht ho (ArrayArgs.check_of_inside hbuf hin),
    Slot.readElements_reads hW _ hpos s.tmem _⟩

end

/-! ## The obligations -/

/-- Settles O12: the five commands are `scalarWrite` at their widths. -/
theorem scalarWriteResult : Obligations.ScalarWriteResult := by
  intro sd p hp
  simp only [List.mem_cons, List.not_mem_nil, or_false] at hp
  rcases hp with rfl | rfl | rfl | rfl | rfl
  all_goals exact ⟨encodeSW_eq_or _ _ sd, scalarWrite_rule (by simp) sd⟩

/-- Settles O13: the five commands are `subrangeWrite` at their widths. -/
theorem subrangeWriteResult : Obligations.SubrangeWriteResult := by
  intro sd p hp
  simp only [List.mem_cons, List.not_mem_nil, or_false] at hp
  rcases hp with rfl | rfl | rfl | rfl | rfl
  all_goals exact ⟨encodeSW_eq_or _ _ sd, subrangeWrite_rule (by simp) sd⟩

/-- Settles O14: the five commands are `scalarRead` at their widths. -/
theorem scalarReadResult : Obligations.ScalarReadResult := by
  intro sd p hp
  simp only [List.mem_cons, List.not_mem_nil, or_false] at hp
  rcases hp with rfl | rfl | rfl | rfl | rfl
  all_goals exact ⟨encodeSW_eq_or _ _ sd, scalarRead_rule (by simp) sd⟩

/-- Settles O15: the five commands are `subrangeRead` at their widths. -/
theorem subrangeReadResult : Obligations.SubrangeReadResult := by
  intro sd p hp
  simp only [List.mem_cons, List.not_mem_nil, or_false] at hp
  rcases hp with rfl | rfl | rfl | rfl | rfl
  all_goals exact ⟨encodeSW_eq_or _ _ sd, subrangeRead_rule (by simp) sd⟩

/-- Settles O16: the five commands are `arrayWrite` at their widths. -/
theorem arrayWriteResult : Obligations.ArrayWriteResult := by
  intro sd p hp
  simp only [List.mem_cons, List.not_mem_nil, or_false] at hp
  rcases hp with rfl | rfl | rfl | rfl | rfl
  all_goals exact ⟨encodeSW_eq_or _ _ sd, arrayWrite_rule (by simp) sd⟩

/-- Settles O17: the five commands are `arrayRead` at their widths. -/
theorem arrayReadResult : Obligations.ArrayReadResult := by
  intro sd p hp
  simp only [List.mem_cons, List.not_mem_nil, or_false] at hp
  rcases hp with rfl | rfl | rfl | rfl | rfl
  all_goals exact ⟨encodeSW_eq_or _ _ sd, arrayRead_rule (by simp) sd⟩

/-- Settles O18: `RDBYTE` is the read of width 8 with `R0` chosen by the count. -/
theorem rdbyteRule : Obligations.RdbyteRule := by
  refine fun sd => ⟨encodeS_eq_or 0x26 sd, fun s t ht => ⟨fun hc => State.onOpenSlot_of_closed ht hc _, fun ho => ?_⟩⟩
  have hr := t.readValue_reads (W := 8) (by simp) 0 8 (by omega)
  exact ⟨_, _, _, execRdbyte_of_open ht ho, hr⟩

end Sys2Proof.Machine
end

section
/-!
PROOFS, part 15: the logical commands (O21, O22, O25). On slots that exist, `combine` and `NOT` have one equation for each outcome of
their checks, in the order of R809; every success stores a `Slot.build`. Its bits are R700's (`Slot.build_from`). Its words (R705) are
any words with those bits, and a bitwise operator on padded sources has them: above the length it combines two zero bits to a zero.
-/

namespace Sys2Proof.Machine

/-! ## Words as the rules write them -/

/-- A word of form `DAB` as the fields put in place (R301). -/
theorem encodeDAB_eq_or (opc : BitVec 8) (sd sa sb : SlotNo) :
    encodeDAB opc sd sa sb =
      opc.setWidth 32 ||| (sd.setWidth 32 <<< 8) ||| (sa.setWidth 32 <<< 12) ||| (sb.setWidth 32 <<< 16) := by
  apply BitVec.eq_of_getLsbD_eq
  intro i hi
  rw [encodeDAB_getLsbD]
  interval_cases i <;> simp

/-- A word of form `DA` as the fields put in place (R301). -/
theorem encodeDA_eq_or (opc : BitVec 8) (sd sa : SlotNo) :
    encodeDA opc sd sa = opc.setWidth 32 ||| (sd.setWidth 32 <<< 8) ||| (sa.setWidth 32 <<< 12) := by
  rw [encodeDA_eq_encodeDAB, encodeDAB_eq_or, BitVec.setWidth_zero, BitVec.zero_shiftLeft, BitVec.or_zero]

/-! ## The commands on slots that exist, one equation for each outcome of the checks -/

section
variable {s : State} {sd sa sb : SlotNo} {d a b : Slot} (hd : s.slot? sd = some d) (ha : s.slot? sa = some a)
include hd ha

theorem execNot_of_closed (hc : a.isOpen = false) : execNot sd sa s = .next (s.raise .disposed) :=
  (State.onSlot_of_some hd _).trans (State.onOpenSlot_of_closed ha hc _)

theorem execNot_of_open (ho : a.isOpen = true) :
    execNot sd sa s = .next (s.setSlot sd (a.build fun p => !(a.bit p))).ok :=
  (State.onSlot_of_some hd _).trans (State.onOpenSlot_of_open ha ho _)

variable (f : Bool → Bool → Bool) (hb : s.slot? sb = some b)
include hb

/-- What is left of `combine` when the three slots exist: only the sources are looked at (R803). -/
theorem combine_of_some :
    combine f sd sa sb s =
      if a.isOpen = false ∨ b.isOpen = false then .next (s.raise .disposed)
      else if a.len ≠ b.len then .next (s.raise .invalidArg)
      else .next (s.setSlot sd (a.build fun p => f (a.bit p) (b.bit p))).ok := by
  rw [combine, State.onSlot_of_some hd, State.onSlot_of_some ha, State.onSlot_of_some hb]
  cases a.isOpen <;> cases b.isOpen <;> rfl

theorem combine_of_closed (hc : a.isOpen = false ∨ b.isOpen = false) :
    combine f sd sa sb s = .next (s.raise .disposed) :=
  (combine_of_some hd ha f hb).trans (if_pos hc)

theorem combine_of_open (hao : a.isOpen = true) (hbo : b.isOpen = true) :
    combine f sd sa sb s =
      if a.len ≠ b.len then .next (s.raise .invalidArg)
      else .next (s.setSlot sd (a.build fun p => f (a.bit p) (b.bit p))).ok :=
  (combine_of_some hd ha f hb).trans (if_neg (by simp [hao, hbo]))

theorem combine_of_len_ne (hao : a.isOpen = true) (hbo : b.isOpen = true) (hl : a.len ≠ b.len) :
    combine f sd sa sb s = .next (s.raise .invalidArg) :=
  (combine_of_open hd ha f hb hao hbo).trans (if_pos hl)

theorem combine_of_len_eq (hao : a.isOpen = true) (hbo : b.isOpen = true) (hl : a.len = b.len) :
    combine f sd sa sb s = .next (s.setSlot sd (a.build fun p => f (a.bit p) (b.bit p))).ok :=
  (combine_of_open hd ha f hb hao hbo).trans (if_neg (not_not.mpr hl))

end

/-! ## The rules on stream bits -/

/-- What R701 to R703 say at the operator `f`. -/
theorem combine_rule (f : Bool → Bool → Bool) (sd sa sb : SlotNo) (s : State) (d a b : Slot) (hd : s.slot? sd = some d)
    (ha : s.slot? sa = some a) (hb : s.slot? sb = some b) (hin : a.InBounds) :
    (a.isOpen = false ∨ b.isOpen = false → combine f sd sa sb s = .next (s.afterError 2)) ∧
      (a.isOpen = true → b.isOpen = true → a.len ≠ b.len → combine f sd sa sb s = .next (s.afterError 3)) ∧
      (a.isOpen = true → b.isOpen = true → a.len = b.len →
        ∃ t', combine f sd sa sb s = .next { s with slots := s.slots.set sd.toNat t', err := 0#32 } ∧
          BuiltFrom a t' fun q => f (a.bit q) (b.bit q)) :=
  ⟨combine_of_closed hd ha f hb, combine_of_len_ne hd ha f hb,
    fun hao hbo hl => ⟨_, combine_of_len_eq hd ha f hb hao hbo hl, Slot.build_from hin _⟩⟩

/-- Settles O21: the three commands are `combine` at their operators. -/
theorem logicalPairResult : Obligations.LogicalPairResult := by
  intro sd sa sb p hp
  simp only [List.mem_cons, List.not_mem_nil, or_false] at hp
  rcases hp with rfl | rfl | rfl
  all_goals exact ⟨encodeDAB_eq_or _ sd sa sb, combine_rule _ sd sa sb⟩

/-- Settles O22: by the source's `open` bit. -/
theorem notRule : Obligations.NotRule := fun sd sa => ⟨encodeDA_eq_or 0x33 sd sa, fun _ _ _ hd ha hin =>
  ⟨execNot_of_closed hd ha, fun ho => ⟨_, execNot_of_open hd ha ho, Slot.build_from hin _⟩⟩⟩

/-! ## Streams as words (R705) -/

/-- The bits of one word are 32 neighbouring stream bits (R103). -/
theorem Slot.word_getLsbD (t : Slot) (w : Nat) {j : Nat} (hj : j < 32) :
    (t.words.getD w 0#32).getLsbD j = t.bit (32 * w + j) := by
  have hdiv : (32 * w + j) / 32 = w := by omega
  have hmod : (32 * w + j) % 32 = j := by omega
  rw [Slot.bit, hdiv, hmod]

/-- R700 leaves no choice of the words: words with the bits of the result stream are its words. -/
theorem Slot.build_eq_of_words {a : Slot} {f : Nat → Bool} {g : Nat → Word}
    (h : ∀ w, ∀ j < 32, (g w).getLsbD j = (decide (32 * w + j < a.len) && f (32 * w + j))) :
    a.build f = { isOpen := true, words := (List.range a.nw).map g, len := a.len, pos := 0 } := by
  have hword : ∀ w, wordOfBits (fun j => decide (32 * w + j < a.len) && f (32 * w + j)) 32 = g w := fun w =>
    BitVec.eq_of_getLsbD_eq fun j hj => by
      rw [wordOfBits_getLsbD _ 32 j le_rfl, h w j hj, decide_eq_true hj, Bool.true_and]
  simp only [Slot.build, hword]

/-- On sources with zero padding an operator on words makes the words of the result stream. `hop` at bit 32, past every word, says
that the operator keeps two zero bits zero, which is why the padding of the result needs no masking. -/
theorem Slot.build_bitwise {a b : Slot} {f : Bool → Bool → Bool} {op : Word → Word → Word}
    (hop : ∀ x y j, (op x y).getLsbD j = f (x.getLsbD j) (y.getLsbD j)) (hl : a.len = b.len) (ha : a.Padded)
    (hb : b.Padded) :
    a.build (fun p => f (a.bit p) (b.bit p)) =
      { isOpen := true
        words := (List.range a.nw).map fun w => op (a.words.getD w 0#32) (b.words.getD w 0#32)
        len := a.len
        pos := 0 } := by
  refine Slot.build_eq_of_words fun w j hj => ?_
  rw [hop, Slot.word_getLsbD a w hj, Slot.word_getLsbD b w hj]
  by_cases hlt : 32 * w + j < a.len
  · simp [hlt]
  · have hzero : f false false = false := by simpa using (hop 0#32 0#32 32).symm
    have hle : a.len ≤ 32 * w + j := not_lt.mp hlt
    simp [hlt, ha.bit_eq_false hle, hb.bit_eq_false (hl ▸ hle), hzero]

/-- The complement keeps no zero padding, so its last words are cut at the length (R704, C5). -/
theorem Slot.build_not (a : Slot) :
    a.build (fun p => !(a.bit p)) =
      { isOpen := true
        words := (List.range a.nw).map fun w =>
          ~~~(a.words.getD w 0#32) &&& BitVec.ofNat 32 (2 ^ min 32 (a.len - 32 * w) - 1)
        len := a.len
        pos := 0 } := by
  refine Slot.build_eq_of_words fun w j hj => ?_
  have hle : min 32 (a.len - 32 * w) ≤ 32 := min_le_left _ _
  have hmask := mask_eq_two_pow_sub_one ⟨min 32 (a.len - 32 * w), by omega⟩
  have hiff : j < min 32 (a.len - 32 * w) ↔ 32 * w + j < a.len := by omega
  rw [← hmask, BitVec.getLsbD_and, mask_getLsbD hle, BitVec.getLsbD_not, Slot.word_getLsbD a w hj, decide_eq_true hj,
    Bool.true_and, Bool.and_comm, decide_eq_decide.mpr hiff]

/-- What R705 says of `combine` at an operator on bits and the same operator on words. -/
theorem combine_words {f : Bool → Bool → Bool} {op : Word → Word → Word}
    (hop : ∀ x y j, (op x y).getLsbD j = f (x.getLsbD j) (y.getLsbD j)) (sd sa sb : SlotNo) (s : State) (d a b : Slot)
    (hd : s.slot? sd = some d) (ha : s.slot? sa = some a) (hb : s.slot? sb = some b) (hao : a.isOpen = true)
    (hbo : b.isOpen = true) (hl : a.len = b.len) (hap : a.Padded) (hbp : b.Padded) :
    combine f sd sa sb s = .next { s with
      slots := s.slots.set sd.toNat
        { isOpen := true
          words := (List.range a.nw).map fun w => op (a.words.getD w 0#32) (b.words.getD w 0#32)
          len := a.len
          pos := 0 }
      err := 0#32 } := by
  rw [combine_of_len_eq hd ha f hb hao hbo hl, Slot.build_bitwise hop hl hap hbp]
  rfl

/-- Settles O25: the three operators act on words bit by bit; `NOT` needs no padding of its source. -/
theorem logicalCommandsActWordByWord : Obligations.LogicalCommandsActWordByWord := by
  refine ⟨fun sd sa sb p hp => ?_, fun sd sa s d a hd ha ho _ => ?_⟩
  · simp only [List.mem_cons, List.not_mem_nil, or_false] at hp
    rcases hp with rfl | rfl | rfl
    · exact combine_words (fun _ _ _ => BitVec.getLsbD_and) sd sa sb
    · exact combine_words (fun _ _ _ => BitVec.getLsbD_or) sd sa sb
    · exact combine_words (fun _ _ _ => BitVec.getLsbD_xor) sd sa sb
  · exact (execNot_of_open hd ha ho).trans (by rw [Slot.build_not a]; rfl)

end Sys2Proof.Machine
end

section
/-!
PROOFS, part 16: the shift commands (O23, O24). On slots that exist, `shift` has one equation for each outcome of its checks, in the
order of R809; its success stores a `Slot.build`. R753 holds for a source in any state: a bit that the construction sets to 0 reads
as 0 whether or not the storage reaches it (`Slot.build_bit_eq_false`).
-/

namespace Sys2Proof.Machine

/-! ## The commands on slots that exist, one equation for each outcome of the checks -/

section
variable {s : State} {sd sa : SlotNo} {d a : Slot} (f : Slot → Nat → Nat → Bool) (hd : s.slot? sd = some d)
  (ha : s.slot? sa = some a)
include hd ha

theorem shift_of_closed (hc : a.isOpen = false) : shift f sd sa s = .next (s.raise .disposed) :=
  (State.onSlot_of_some hd _).trans (State.onOpenSlot_of_closed ha hc _)

theorem shift_of_open (ho : a.isOpen = true) :
    shift f sd sa s =
      if s.a0.toInt < 0 then .next (s.raise .invalidArg)
      else .next (s.setSlot sd (a.build (f a s.a0.toInt.toNat))).ok :=
  (State.onSlot_of_some hd _).trans (State.onOpenSlot_of_open ha ho _)

theorem shift_of_neg (ho : a.isOpen = true) (hn : s.a0.toInt < 0) : shift f sd sa s = .next (s.raise .invalidArg) :=
  (shift_of_open f hd ha ho).trans (if_pos hn)

theorem shift_of_nonneg (ho : a.isOpen = true) (hn : 0 ≤ s.a0.toInt) :
    shift f sd sa s = .next (s.setSlot sd (a.build (f a s.a0.toInt.toNat))).ok :=
  (shift_of_open f hd ha ho).trans (if_neg (not_lt.mpr hn))

end

/-! ## The rules on stream bits -/

/-- `SHL` is the shift by the bit function as R750 writes it. -/
theorem exec_shl (sd sa : SlotNo) (s : State) :
    exec (.shl sd sa) s = shift (fun a n q => if q + n < a.len then a.bit (q + n) else false) sd sa s := by
  simp only [Bool.if_false_right]
  rfl

/-- `SHR` is the shift by the bit function as R751 writes it. -/
theorem exec_shr (sd sa : SlotNo) (s : State) :
    exec (.shr sd sa) s = shift (fun a n q => if n ≤ q then a.bit (q - n) else false) sd sa s := by
  simp only [Bool.if_false_right]
  rfl

/-- What R750 and R751 say of a command that shifts by the bit function `f`. -/
theorem shift_rule {i : Instr} {f : Slot → Nat → Nat → Bool} {sd sa : SlotNo} (hi : ∀ s, exec i s = shift f sd sa s) (s : State)
    (d a : Slot) (hd : s.slot? sd = some d) (ha : s.slot? sa = some a) (hin : a.InBounds) :
    (a.isOpen = false → exec i s = .next (s.afterError 2)) ∧
      (a.isOpen = true → s.a0.toInt < 0 → exec i s = .next (s.afterError 3)) ∧
      (a.isOpen = true → 0 ≤ s.a0.toInt →
        ∃ t', exec i s = .next { s with slots := s.slots.set sd.toNat t', err := 0#32 } ∧
          BuiltFrom a t' (f a s.a0.toInt.toNat)) := by
  rw [hi s]
  exact ⟨shift_of_closed f hd ha, shift_of_neg f hd ha,
    fun ho hn => ⟨_, shift_of_nonneg f hd ha ho hn, Slot.build_from hin _⟩⟩

/-- Settles O23: both commands are shifts by the rules' bit functions. -/
theorem shiftResult : Obligations.ShiftResult := by
  intro sd sa p hp
  simp only [List.mem_cons, List.not_mem_nil, or_false] at hp
  rcases hp with rfl | rfl
  · exact ⟨encodeDA_eq_or _ sd sa, shift_rule (exec_shl sd sa)⟩
  · exact ⟨encodeDA_eq_or _ sd sa, shift_rule (exec_shr sd sa)⟩

/-! ## Zero fill (R753) -/

/-- A result stream reads as 0 where its bit function is 0 and above its length, whatever storage its source has. -/
theorem Slot.build_bit_eq_false {a : Slot} {f : Nat → Bool} {p : Nat} (h : p < a.len → f p = false) :
    (a.build f).bit p = false := by
  have hnw : (a.build f).nw = a.nw := by simp [Slot.build, Slot.nw]
  by_cases hw : p / 32 < a.nw
  · have hp : (decide (p < a.len) && f p) = false := by simpa using h
    simp [Slot.bit, Slot.build, List.getElem?_range hw, wordOfBits_getLsbD, Nat.div_add_mod, hp]
  · exact Slot.bit_of_nw_le (by omega)

section
variable {s : State} {sd sa : SlotNo} {d a : Slot} (hd : s.slot? sd = some d) (ha : s.slot? sa = some a)
  (ho : a.isOpen = true) (hn : 0 ≤ s.a0.toInt)
include hd ha ho hn

/-- `SHL` vacates the positions whose source bit would lie at or above the length. -/
theorem exec_shl_zero_fill : ∃ t, exec (.shl sd sa) s = .next (s.setSlot sd t).ok ∧ t.len = a.len ∧
    ∀ p, a.len ≤ p + s.a0.toInt.toNat → t.bit p = false := by
  refine ⟨_, (exec_shl sd sa s).trans (shift_of_nonneg _ hd ha ho hn), rfl, fun p hp => Slot.build_bit_eq_false fun _ => ?_⟩
  exact if_neg (not_lt.mpr hp)

/-- `SHR` vacates the positions below the amount; above the length every result stream is 0. -/
theorem exec_shr_zero_fill : ∃ t, exec (.shr sd sa) s = .next (s.setSlot sd t).ok ∧ t.len = a.len ∧
    ∀ p, p < s.a0.toInt.toNat ∨ a.len ≤ p → t.bit p = false := by
  refine ⟨_, (exec_shr sd sa s).trans (shift_of_nonneg _ hd ha ho hn), rfl, fun p hp => Slot.build_bit_eq_false fun hlt => ?_⟩
  have hvac : p < s.a0.toInt.toNat := hp.resolve_right (not_le.mpr hlt)
  exact if_neg (not_le.mpr hvac)

end

/-- Settles O24: by what each command vacates; an amount of the length or more vacates every position. -/
theorem shiftZeroFill : Obligations.ShiftZeroFill := by
  intro s sd sa d a hd ha ho hn
  obtain ⟨tl, hl, hllen, hlzero⟩ := exec_shl_zero_fill hd ha ho hn
  obtain ⟨tr, hr, hrlen, hrzero⟩ := exec_shr_zero_fill hd ha ho hn
  refine ⟨_, _, tl, tr, hl, hr, State.setSlot_slot?_same hd tl, State.setSlot_slot?_same hd tr, hllen, hrlen, ?_, ?_, ?_⟩
  · exact fun p hp _ => hlzero p (by omega)
  · exact fun p hp => hrzero p (by omega)
  · exact fun hk p => ⟨hlzero p (by omega), hrzero p (by omega)⟩

end Sys2Proof.Machine
end

section
/-!
PROOFS, part 17: errors (O26 to O29, O47). For each code one lemma says that a command to which that error applies and no smaller one
raises it (R802 to R807 in the order of R809), and `exec_passes` that a command to which none applies ends without one. Together they
are `exec_answers`: every command, in every state, raises the smallest applicable error or passes all its checks.
-/

namespace Sys2Proof.Machine

/-! ## The capacity check in every state -/

theorem doublings_zero (fuel e : Nat) : doublings fuel 0 e = 0 := by
  induction fuel with
  | zero => rfl
  | succ fuel ih => simp [doublings, ih]

/-- R807 is what `Reserve` computes for a slot without words too: doubling none leaves none, which no MAX_WORDS refuses. -/
theorem State.overCapacity_iff_reserve {s : State} {n : SlotNo} {t : Slot} (ht : s.slot? n = some t) (T : Nat) :
    s.overCapacity n T ↔ s.params.maxWords < t.reserve T := by
  rcases Nat.eq_zero_or_pos t.nw with h0 | hpos
  · have hres : t.reserve T = 0 := by rw [Slot.reserve, h0, doublings_zero]
    rw [hres]
    refine ⟨?_, fun h => absurd h (Nat.not_lt_zero _)⟩
    rintro ⟨t', m, ht', ⟨j, rfl, -⟩, hm⟩
    cases ht.symm.trans ht'
    simp [h0] at hm
  · exact State.overCapacity_iff ht hpos T

/-! ## The slot checks -/

/-- `ILLEGAL_COMMAND` applies exactly to a command that names a slot that does not exist (R802). -/
theorem errorApplies_one_iff {i : Instr} {s : State} : errorApplies i s 1 ↔ ∃ n ∈ i.slotFields, s.slot? n = none := by
  simp [errorApplies, Instr.wellFormed, State.slot?]

theorem slots_found {i : Instr} {s : State} (h : ¬ errorApplies i s 1) : ∀ n ∈ i.slotFields, ∃ t, s.slot? n = some t :=
  fun n hn => Option.ne_none_iff_exists'.mp fun hnone => h (errorApplies_one_iff.mpr ⟨n, hn, hnone⟩)

/-- A command that the slot checks let through: its slots exist, and those it must find open are open (R802, R803). -/
structure Admitted (i : Instr) (s : State) : Prop where
  found : ∀ n ∈ i.slotFields, ∃ t, s.slot? n = some t
  isOpen : ∀ n ∈ (kindOf i).openChecked, ∀ t, s.slot? n = some t → t.isOpen = true

theorem mem_slotFields_of_openChecked {i : Instr} {n : SlotNo} (h : n ∈ (kindOf i).openChecked) : n ∈ i.slotFields := by
  cases i
  case init | initc | status => cases h
  case and | or | xor | not | shl | shr => exact .tail _ h
  all_goals exact h

/-! ## Passing every check -/

/-- What R809 leaves when no error applies: success with `ERR` 0, or the fault on an unwritten TMEM entry (R900). -/
def Passes (r : Result) : Prop := (∃ s', r = .next s' ∧ s'.err = 0#32) ∨ ∃ j, r = .fault (.tmemUnwritten j)

theorem Passes.of_next {r : Result} {s' : State} (h : r = .next s') (herr : s'.err = 0#32) : Passes r := .inl ⟨s', h, herr⟩

theorem Passes.err_of_next {r : Result} {s' : State} (hr : Passes r) (h : r = .next s') : s'.err = 0#32 := by
  rcases hr with ⟨s'', h', herr⟩ | ⟨j, h'⟩
  · cases h.symm.trans h'
    exact herr
  · cases h.symm.trans h'

section
variable {s : State} {sd : SlotNo} {t : Slot} {W : Nat} (ht : s.slot? sd = some t) (ho : t.isOpen = true)
  (he : s.arrayArgs.check s.params.tmemEntries = none)
include ht ho he

theorem arrayWrite_of_reserve_gt (hcap : s.params.maxWords < t.reserve (s.arrayArgs.count * W)) :
    arrayWrite W sd s = .next (s.raise .capacityExceeded) := by
  rw [arrayWrite, State.onOpenSlot_of_open ht ho]
  simp only [he, if_pos hcap, State.fail_eq]

/-- Past its checks an array write reads its entries: all are there, or the first unwritten one is the fault. -/
theorem arrayWrite_passes (hcap : t.reserve (s.arrayArgs.count * W) ≤ s.params.maxWords) : Passes (arrayWrite W sd s) := by
  rw [arrayWrite, State.onOpenSlot_of_open ht ho]
  simp only [he, if_neg (not_lt.mpr hcap)]
  cases s.tmem.readEntries s.arrayArgs.start s.arrayArgs.count with
  | error j => exact .inr ⟨j, rfl⟩
  | ok es => exact .of_next rfl rfl

end

section
variable {i : Instr} {s : State}

theorem Admitted.of_not_applies (h1 : ¬ errorApplies i s 1) (h2 : ¬ errorApplies i s 2) : Admitted i s where
  found := slots_found h1
  isOpen n hn t ht := eq_true_of_ne_false fun hc => h2 ⟨n, hn, t, ht, hc⟩

/-- A slot that the command must find open. -/
theorem Admitted.openSlot (h : Admitted i s) {n : SlotNo} (hn : n ∈ (kindOf i).openChecked) :
    ∃ t, s.slot? n = some t ∧ t.isOpen = true := by
  obtain ⟨t, ht⟩ := h.found n (mem_slotFields_of_openChecked hn)
  exact ⟨t, ht, h.isOpen n hn t ht⟩

/-! ## One rule for each error (R802 to R807) -/

/-- R802, before every other check. -/
theorem exec_illegalCommand (h : errorApplies i s 1) : exec i s = .next (s.raise .illegalCommand) :=
  exec_illegal (errorApplies_one_iff.mp h)

/-- R803: the slot checks that follow those for existence. -/
theorem exec_disposed (h1 : ¬ errorApplies i s 1) (h : errorApplies i s 2) : exec i s = .next (s.raise .disposed) := by
  have hfound := slots_found h1
  obtain ⟨n, hn, t, ht, hc⟩ := h
  cases i <;> simp only [kindOf, Kind.openChecked, List.mem_cons, List.not_mem_nil, or_false] at hn
  case and sd sa sb | or sd sa sb | xor sd sa sb =>
    obtain ⟨d, hd⟩ := hfound sd (.head _)
    obtain ⟨a, ha⟩ := hfound sa (.tail _ (.head _))
    obtain ⟨b, hb⟩ := hfound sb (.tail _ (.tail _ (.head _)))
    refine combine_of_closed hd ha _ hb ?_
    rcases hn with rfl | rfl
    · exact .inl (Option.some.inj (ha.symm.trans ht) ▸ hc)
    · exact .inr (Option.some.inj (hb.symm.trans ht) ▸ hc)
  case not sd sa =>
    obtain ⟨d, hd⟩ := hfound sd (.head _)
    exact execNot_of_closed hd (hn ▸ ht) hc
  case shl sd sa | shr sd sa =>
    obtain ⟨d, hd⟩ := hfound sd (.head _)
    simp only [exec_shl, exec_shr]
    exact shift_of_closed _ hd (hn ▸ ht) hc
  all_goals exact State.onOpenSlot_of_closed (hn ▸ ht) hc _

variable (ha : Admitted i s)
include ha

/-- R804, the first of the operand checks. -/
theorem exec_invalidArg (h : errorApplies i s 3) : exec i s = .next (s.raise .invalidArg) := by
  cases i
  case initc sd =>
    obtain ⟨t, ht⟩ := ha.found sd (.head _)
    exact (execInitc_of_some ht).trans (if_pos h)
  case wrr1 | wrr8 | wrr16 | wrr32 | wrr64 =>
    obtain ⟨t, ht, ho⟩ := ha.openSlot (.head _)
    exact subrangeWrite_of_bad ht ho h
  case rdr1 | rdr8 | rdr16 | rdr32 | rdr64 =>
    obtain ⟨t, ht, ho⟩ := ha.openSlot (.head _)
    exact subrangeRead_of_bad ht ho h
  case wra1 | wra8 | wra16 | wra32 | wra64 =>
    obtain ⟨t, ht, ho⟩ := ha.openSlot (.head _)
    exact arrayWrite_of_check_some ht ho (ArrayArgs.check_of_badBuffer h)
  case rda1 | rda8 | rda16 | rda32 | rda64 =>
    obtain ⟨t, ht, ho⟩ := ha.openSlot (.head _)
    exact arrayRead_of_check_some ht ho (ArrayArgs.check_of_badBuffer h)
  case and sd sa sb | or sd sa sb | xor sd sa sb =>
    obtain ⟨d, hd⟩ := ha.found sd (.head _)
    obtain ⟨a, b, hsa, hsb, hlen⟩ := h
    exact combine_of_len_ne hd hsa _ hsb (ha.isOpen sa (.head _) a hsa) (ha.isOpen sb (.tail _ (.head _)) b hsb) hlen
  case shl sd sa | shr sd sa =>
    obtain ⟨d, hd⟩ := ha.found sd (.head _)
    obtain ⟨a, hsa, ho⟩ := ha.openSlot (.head _)
    simp only [exec_shl, exec_shr]
    exact shift_of_neg _ hd hsa ho h
  all_goals exact h.elim

/-- R805: `SETPOS` alone. -/
theorem exec_outOfRange (h : errorApplies i s 4) : exec i s = .next (s.raise .outOfRange) := by
  cases i
  case setpos sd =>
    obtain ⟨t, ht, hp⟩ := h
    exact execSetpos_of_outside ht (ha.isOpen sd (.head _) t ht) hp
  all_goals exact h.elim

/-- R806, after R804: the array commands. -/
theorem exec_tmemRange (h3 : ¬ errorApplies i s 3) (h : errorApplies i s 5) : exec i s = .next (s.raise .tmemRange) := by
  cases i
  case wra1 | wra8 | wra16 | wra32 | wra64 =>
    obtain ⟨t, ht, ho⟩ := ha.openSlot (.head _)
    exact arrayWrite_of_check_some ht ho (ArrayArgs.check_of_bufferOutside h3 h)
  case rda1 | rda8 | rda16 | rda32 | rda64 =>
    obtain ⟨t, ht, ho⟩ := ha.openSlot (.head _)
    exact arrayRead_of_check_some ht ho (ArrayArgs.check_of_bufferOutside h3 h)
  all_goals exact h.elim

/-- R807, after every other check. -/
theorem exec_capacityExceeded (h3 : ¬ errorApplies i s 3) (h5 : ¬ errorApplies i s 5) (h : errorApplies i s 6) :
    exec i s = .next (s.raise .capacityExceeded) := by
  cases i
  case initc sd =>
    obtain ⟨t, ht⟩ := ha.found sd (.head _)
    exact (execInitc_of_some ht).trans ((if_neg h3).trans (if_pos h))
  case wr1 | wr8 | wr16 | wr32 | wr64 =>
    obtain ⟨t, ht, ho⟩ := ha.openSlot (.head _)
    exact (scalarWrite_of_open _ ht ho).trans (if_pos ((State.overCapacity_iff_reserve ht _).mp h))
  case wrr1 | wrr8 | wrr16 | wrr32 | wrr64 =>
    obtain ⟨t, ht, ho⟩ := ha.openSlot (.head _)
    exact (subrangeWrite_of_legal ht ho h3).trans (if_pos ((State.overCapacity_iff_reserve ht _).mp h))
  case wra1 | wra8 | wra16 | wra32 | wra64 =>
    obtain ⟨t, ht, ho⟩ := ha.openSlot (.head _)
    exact arrayWrite_of_reserve_gt ht ho (ArrayArgs.check_of_inside h3 h5) ((State.overCapacity_iff_reserve ht _).mp h)
  all_goals exact h.elim

/-- A command to which no error applies passes every check. -/
theorem exec_passes (h3 : ¬ errorApplies i s 3) (h4 : ¬ errorApplies i s 4) (h5 : ¬ errorApplies i s 5)
    (h6 : ¬ errorApplies i s 6) : Passes (exec i s) := by
  cases i
  case init sd =>
    obtain ⟨t, ht⟩ := ha.found sd (.head _)
    exact .of_next (execInit_of_some ht) rfl
  case status sd =>
    obtain ⟨t, ht⟩ := ha.found sd (.head _)
    exact .of_next (execStatus_of_some ht) rfl
  case initc sd =>
    obtain ⟨t, ht⟩ := ha.found sd (.head _)
    exact .of_next ((execInitc_of_some ht).trans ((if_neg h3).trans (if_neg h6))) rfl
  case close =>
    obtain ⟨t, ht, ho⟩ := ha.openSlot (.head _)
    exact .of_next (execClose_of_open ht ho) rfl
  case setpos =>
    obtain ⟨t, ht, ho⟩ := ha.openSlot (.head _)
    exact .of_next ((State.onOpenSlot_of_open ht ho _).trans (if_neg fun hp => h4 ⟨t, ht, hp⟩)) rfl
  case rdbyte =>
    obtain ⟨t, ht, ho⟩ := ha.openSlot (.head _)
    exact .of_next (execRdbyte_of_open ht ho) rfl
  case getpos | getlen | getlen8 | getlen16 | getlen32 | getlen64 | getcap =>
    obtain ⟨t, ht, ho⟩ := ha.openSlot (.head _)
    exact .of_next (query_of_open _ ht ho) rfl
  case wr1 | wr8 | wr16 | wr32 | wr64 =>
    obtain ⟨t, ht, ho⟩ := ha.openSlot (.head _)
    exact .of_next ((scalarWrite_of_open _ ht ho).trans (if_neg fun hc => h6 ((State.overCapacity_iff_reserve ht _).mpr hc))) rfl
  case wrr1 | wrr8 | wrr16 | wrr32 | wrr64 =>
    obtain ⟨t, ht, ho⟩ := ha.openSlot (.head _)
    exact .of_next ((subrangeWrite_of_legal ht ho h3).trans
      (if_neg fun hc => h6 ((State.overCapacity_iff_reserve ht _).mpr hc))) rfl
  case rd1 | rd8 | rd16 | rd32 | rd64 =>
    obtain ⟨t, ht, ho⟩ := ha.openSlot (.head _)
    exact .of_next (scalarRead_of_open _ ht ho) rfl
  case rdr1 | rdr8 | rdr16 | rdr32 | rdr64 =>
    obtain ⟨t, ht, ho⟩ := ha.openSlot (.head _)
    exact .of_next (subrangeRead_of_legal ht ho h3) rfl
  case wra1 | wra8 | wra16 | wra32 | wra64 =>
    obtain ⟨t, ht, ho⟩ := ha.openSlot (.head _)
    exact arrayWrite_passes ht ho (ArrayArgs.check_of_inside h3 h5)
      (not_lt.mp fun hc => h6 ((State.overCapacity_iff_reserve ht _).mpr hc))
  case rda1 | rda8 | rda16 | rda32 | rda64 =>
    obtain ⟨t, ht, ho⟩ := ha.openSlot (.head _)
    exact .of_next (arrayRead_of_check_none ht ho (ArrayArgs.check_of_inside h3 h5)) rfl
  case and sd sa sb | or sd sa sb | xor sd sa sb =>
    obtain ⟨d, hd⟩ := ha.found sd (.head _)
    obtain ⟨a, hsa, hao⟩ := ha.openSlot (.head _)
    obtain ⟨b, hsb, hbo⟩ := ha.openSlot (.tail _ (.head _))
    have hlen : a.len = b.len := by_contra fun hne => h3 ⟨a, b, hsa, hsb, hne⟩
    exact .of_next (combine_of_len_eq hd hsa _ hsb hao hbo hlen) rfl
  case not sd sa =>
    obtain ⟨d, hd⟩ := ha.found sd (.head _)
    obtain ⟨a, hsa, ho⟩ := ha.openSlot (.head _)
    exact .of_next (execNot_of_open hd hsa ho) rfl
  case shl sd sa | shr sd sa =>
    obtain ⟨d, hd⟩ := ha.found sd (.head _)
    obtain ⟨a, hsa, ho⟩ := ha.openSlot (.head _)
    simp only [exec_shl, exec_shr]
    exact .of_next (shift_of_nonneg _ hd hsa ho (not_lt.mp h3)) rfl

end

/-! ## The order of the errors (R809) -/

/-- `k` is the smallest code of an error that applies. -/
def SmallestError (i : Instr) (s : State) (k : Nat) : Prop := errorApplies i s k ∧ ∀ j < k, ¬ errorApplies i s j

/-- Only the codes of R800 can apply. -/
theorem exists_code_of_applies {i : Instr} {s : State} {k : Nat} (h : errorApplies i s k) : ∃ e : Err, e.code = k := by
  match k, h with
  | 1, _ => exact ⟨.illegalCommand, rfl⟩
  | 2, _ => exact ⟨.disposed, rfl⟩
  | 3, _ => exact ⟨.invalidArg, rfl⟩
  | 4, _ => exact ⟨.outOfRange, rfl⟩
  | 5, _ => exact ⟨.tmemRange, rfl⟩
  | 6, _ => exact ⟨.capacityExceeded, rfl⟩

theorem exec_of_smallestError {i : Instr} {s : State} (e : Err) (h : SmallestError i s e.code) :
    exec i s = .next (s.raise e) := by
  obtain ⟨happ, hmin⟩ := h
  cases e
  case illegalCommand => exact exec_illegalCommand happ
  case disposed => exact exec_disposed (hmin 1 (by decide)) happ
  all_goals have ha := Admitted.of_not_applies (hmin 1 (by decide)) (hmin 2 (by decide))
  case invalidArg => exact exec_invalidArg ha happ
  case outOfRange => exact exec_outOfRange ha happ
  case tmemRange => exact exec_tmemRange ha (hmin 3 (by decide)) happ
  case capacityExceeded => exact exec_capacityExceeded ha (hmin 3 (by decide)) (hmin 5 (by decide)) happ

theorem exec_of_noError {i : Instr} {s : State} (h : ∀ k, ¬ errorApplies i s k) : Passes (exec i s) :=
  exec_passes (.of_not_applies (h 1) (h 2)) (h 3) (h 4) (h 5) (h 6)

/-- Every command, in every state, raises the smallest applicable error or passes all its checks. -/
theorem exec_answers (i : Instr) (s : State) :
    (∃ e : Err, SmallestError i s e.code ∧ exec i s = .next (s.raise e)) ∨ Passes (exec i s) := by
  classical
  by_cases h : ∃ k, errorApplies i s k
  · obtain ⟨e, he⟩ := exists_code_of_applies (Nat.find_spec h)
    have hsmall : SmallestError i s e.code := by
      rw [he]
      exact ⟨Nat.find_spec h, fun j => Nat.find_min h⟩
    exact .inl ⟨e, hsmall, exec_of_smallestError e hsmall⟩
  · exact .inr (exec_of_noError (not_exists.mp h))

theorem Err.eq_disposed_of_status {e : Err} (h : e.status = 2#32) : e = .disposed := by
  revert h
  cases e <;> decide

/-! ## The obligations -/

/-- Settles O26, from what a command can do: every effect but the raise ends with `State.ok`. -/
theorem raisingChangesOnlyErrAndSticky : Obligations.RaisingChangesOnlyErrAndSticky := by
  intro i s s' h
  cases exec_effect h with
  | raised e => exact .inr ⟨e.code, by cases e <;> decide, by cases e <;> decide, s.raise_eq_afterError e⟩
  | answered | stored | read | readArray => exact .inl ⟨rfl, rfl⟩

/-- Settles O28: `exec_of_smallestError` and `exec_of_noError`; neither needs the premise on the word counts
(`State.overCapacity_iff_reserve`). -/
theorem smallestApplicableErrorIsRaised : Obligations.SmallestApplicableErrorIsRaised := by
  refine ⟨fun c s hc => ?_, fun i s _ => ⟨fun k happ hmin => ?_, exec_of_noError⟩⟩
  · cases hd : decode c with
    | ok i => exact absurd hd (hc i)
    | error _ =>
      rw [runCommand, hd]
      rfl
  · obtain ⟨e, rfl⟩ := exists_code_of_applies happ
    exact exec_of_smallestError e ⟨happ, hmin⟩

/-- Settles O27: with the slots there, a closed one gives the smallest error; and no other answer leaves the code of `DISPOSED`. -/
theorem disposedExactlyOnClosedSlots : Obligations.DisposedExactlyOnClosedSlots := by
  intro i s hwf
  refine ⟨exec_disposed (by simp [errorApplies, hwf]), fun s' hs' herr => ?_⟩
  rcases exec_answers i s with ⟨e, ⟨happ, -⟩, he⟩ | hpass
  · cases hs'.symm.trans he
    rwa [Err.eq_disposed_of_status herr] at happ
  · exact absurd ((hpass.err_of_next hs').symm.trans herr) (by decide)

/-- Settles O29: each command overwrites `ERR` at its end and reads it nowhere, so the two answers are the same term. -/
theorem commandsIgnoreErr : Obligations.CommandsIgnoreErr := by
  intro i s e
  cases i
  all_goals rfl

/-- Settles O47. -/
theorem idleStepHolds : Obligations.IdleStepHolds := by
  intro s h
  rw [step, stepOnce, h]

end Sys2Proof.Machine
end

section
/-!
PROOFS, part 18: the argument registers and the reset input (O31, O39). Putting a value into an argument register that a command does
not read commutes with each shared operation, so with the command.
-/

namespace Sys2Proof.Machine

/-- `A<n> <- v`. -/
def State.putArg (n : Fin 4) (v : Value) (s : State) : State :=
  { s with
    a0 := if n = 0 then v else s.a0
    a1 := if n = 1 then v else s.a1
    a2 := if n = 2 then v else s.a2
    a3 := if n = 3 then v else s.a3 }

/-- What is answered, with `v` put into `A<n>` of the next state. -/
def Result.putArg (n : Fin 4) (v : Value) : Result → Result
  | .next s => .next (s.putArg n v)
  | .fault f => .fault f
  | .refused r => .refused r

section
variable {n : Fin 4} {v : Value} {s : State}

/-! ## The other fields, and the end of a command -/

@[simp] theorem Result.next_putArg : Result.putArg n v (.next s) = .next (s.putArg n v) := rfl

@[simp] theorem Result.ite_putArg {c : Prop} [Decidable c] (r r' : Result) :
    Result.putArg n v (if c then r else r') = if c then r.putArg n v else r'.putArg n v :=
  apply_ite (Result.putArg n v) c r r'

theorem State.putArg_a0 (h : n ≠ 0) : (s.putArg n v).a0 = s.a0 := if_neg h

theorem State.putArg_a1 (h : n ≠ 1) : (s.putArg n v).a1 = s.a1 := if_neg h

theorem State.putArg_a2 (h : n ≠ 2) : (s.putArg n v).a2 = s.a2 := if_neg h

@[simp] theorem State.putArg_params : (s.putArg n v).params = s.params := rfl

@[simp] theorem State.putArg_fail (e : Err) : (s.putArg n v).fail e = (s.fail e).putArg n v := rfl

@[simp] theorem State.putArg_setSlot_ok (m : SlotNo) (t : Slot) :
    ((s.putArg n v).setSlot m t).ok = (s.setSlot m t).ok.putArg n v := rfl

@[simp] theorem State.putArg_afterRead (m : SlotNo) (r : ReadResult 64) :
    (s.putArg n v).afterRead m r = (s.afterRead m r).putArg n v := rfl

/-! ## The slot checks, then operations that commute -/

theorem State.onSlot_putArg {m : SlotNo} {k k' : Slot → Result} (hk : ∀ t, k' t = (k t).putArg n v) :
    (s.putArg n v).onSlot m k' = (s.onSlot m k).putArg n v := by
  cases hs : s.slot? m with
  | none =>
    rw [State.onSlot_of_none hs, State.onSlot_of_none (s := s.putArg n v) hs]
    rfl
  | some t => rw [State.onSlot_of_some hs, State.onSlot_of_some (s := s.putArg n v) hs, hk]

theorem State.onOpenSlot_putArg {m : SlotNo} {k k' : Slot → Result} (hk : ∀ t, k' t = (k t).putArg n v) :
    (s.putArg n v).onOpenSlot m k' = (s.onOpenSlot m k).putArg n v :=
  State.onSlot_putArg fun t => by simp only [hk, State.putArg_fail, Result.ite_putArg]

/-! ## The shared operations and the commands with a meaning of their own -/

variable {sd sa sb : SlotNo}

theorem query_putArg (f : Slot → Nat) : query f sd (s.putArg n v) = (query f sd s).putArg n v :=
  State.onOpenSlot_putArg fun _ => rfl

theorem execStatus_putArg : execStatus sd (s.putArg n v) = (execStatus sd s).putArg n v :=
  State.onSlot_putArg fun _ => rfl

theorem execInit_putArg : execInit sd (s.putArg n v) = (execInit sd s).putArg n v :=
  State.onSlot_putArg fun _ => rfl

theorem execClose_putArg : execClose sd (s.putArg n v) = (execClose sd s).putArg n v :=
  State.onOpenSlot_putArg fun _ => rfl

theorem execInitc_putArg (h : n ≠ 0) : execInitc sd (s.putArg n v) = (execInitc sd s).putArg n v :=
  State.onSlot_putArg fun _ => by simp [State.putArg_a0 h]

theorem execSetpos_putArg (h : n ≠ 0) : execSetpos sd (s.putArg n v) = (execSetpos sd s).putArg n v :=
  State.onOpenSlot_putArg fun _ => by simp [State.putArg_a0 h]

theorem commitWrite_putArg (t : Slot) (T : Nat) (t' : Slot) :
    commitWrite sd t T t' (s.putArg n v) = (commitWrite sd t T t' s).putArg n v := by simp [commitWrite]

theorem scalarWrite_putArg (h : n ≠ 0) (W : Nat) : scalarWrite W sd (s.putArg n v) = (scalarWrite W sd s).putArg n v :=
  State.onOpenSlot_putArg fun _ => by rw [State.putArg_a0 h, commitWrite_putArg]

/-- A sub-range write reads every argument register but `A3`. -/
theorem subrangeWrite_putArg (W : Nat) : subrangeWrite W sd (s.putArg 3 v) = (subrangeWrite W sd s).putArg 3 v :=
  State.onOpenSlot_putArg fun _ => by simp [State.putArg_a0, State.putArg_a1, State.putArg_a2, commitWrite_putArg]

theorem scalarRead_putArg (W : Nat) : scalarRead W sd (s.putArg n v) = (scalarRead W sd s).putArg n v :=
  State.onOpenSlot_putArg fun _ => rfl

theorem subrangeRead_putArg (h1 : n ≠ 1) (h2 : n ≠ 2) (W : Nat) :
    subrangeRead W sd (s.putArg n v) = (subrangeRead W sd s).putArg n v :=
  State.onOpenSlot_putArg fun _ => by simp [State.putArg_a1 h1, State.putArg_a2 h2]

theorem execRdbyte_putArg : execRdbyte sd (s.putArg n v) = (execRdbyte sd s).putArg n v :=
  State.onOpenSlot_putArg fun _ => by
    dsimp only
    split <;> rfl

theorem combine_putArg (f : Bool → Bool → Bool) : combine f sd sa sb (s.putArg n v) = (combine f sd sa sb s).putArg n v :=
  State.onSlot_putArg fun _ => State.onSlot_putArg fun _ => State.onSlot_putArg fun _ => by simp

theorem execNot_putArg : execNot sd sa (s.putArg n v) = (execNot sd sa s).putArg n v :=
  State.onSlot_putArg fun _ => State.onOpenSlot_putArg fun _ => rfl

theorem shift_putArg (h : n ≠ 0) (f : Slot → Nat → Nat → Bool) :
    shift f sd sa (s.putArg n v) = (shift f sd sa s).putArg n v :=
  State.onSlot_putArg fun _ => State.onOpenSlot_putArg fun _ => by simp [State.putArg_a0 h]

/-- A command ignores the argument registers that it does not read (R305). -/
theorem exec_putArg {i : Instr} (h : (kindOf i).readsArg n = false) :
    exec i (s.putArg n v) = Result.putArg n v (exec i s) := by
  cases i <;> simp only [kindOf, Kind.readsArg, beq_eq_false_iff_ne, bne_eq_false_iff_eq, Bool.or_eq_false_iff,
    Bool.true_eq_false] at h
  case init => exact execInit_putArg
  case initc => exact execInitc_putArg h
  case close => exact execClose_putArg
  case status => exact execStatus_putArg
  case setpos => exact execSetpos_putArg h
  case rdbyte => exact execRdbyte_putArg
  case not => exact execNot_putArg
  case getpos | getlen | getlen8 | getlen16 | getlen32 | getlen64 | getcap => exact query_putArg _
  case wr1 | wr8 | wr16 | wr32 | wr64 => exact scalarWrite_putArg h _
  case wrr1 | wrr8 | wrr16 | wrr32 | wrr64 =>
    subst h
    exact subrangeWrite_putArg _
  case rd1 | rd8 | rd16 | rd32 | rd64 => exact scalarRead_putArg _
  case rdr1 | rdr8 | rdr16 | rdr32 | rdr64 =>
    obtain ⟨h1, h2⟩ := h
    exact subrangeRead_putArg h1 h2 _
  case and | or | xor => exact combine_putArg _
  case shl =>
    rw [exec_shl, exec_shl]
    exact shift_putArg h _
  case shr =>
    rw [exec_shr, exec_shr]
    exact shift_putArg h _

end

/-! ## The obligations -/

/-- Settles O31: no role writes an argument register, and a command ignores those it does not read. For each `n` the put of the
statement is `State.putArg n v`. -/
theorem argumentRegistersPersist : Obligations.ArgumentRegistersPersist := by
  intro i s
  refine ⟨fun s' hs => ?_, fun n v h => ?_⟩
  · obtain ⟨h0, h1, h2, h3, -, -⟩ := (exec_does hs).sameInputs
    exact ⟨h0, h1, h2, h3⟩
  · have hi := exec_putArg (s := s) (v := v) h
    clear h
    fin_cases n
    all_goals
      cases he : exec i s <;> rw [he] at hi <;> exact hi

/-- Settles O39. -/
theorem resetInputCompletes : Obligations.ResetInputCompletes := fun _ _ h =>
  ⟨_, step_of_reset h, rfl, List.length_replicate, rfl, rfl⟩

end Sys2Proof.Machine
end
